-- ==== Sys2Proof/Word.lean ====
section
/-! DEFINITION. The word types of the core: every word is 32 bits, every half 16, every byte 8
(00_scope.md R11, R12). -/

namespace Sys2Proof

/-- An 8-bit byte, the addressable unit (R41). -/
abbrev Byte := BitVec 8

/-- A 16-bit half (R87). -/
abbrev Half := BitVec 16

/-- A `u32`, or the pattern of a binary32 value (R12, R92). -/
abbrev Word := BitVec 32

/-- The 8-byte block prefix read as one little-endian number (R74). -/
abbrev PrefixWord := BitVec 64

/-- The 128-bit accumulator of the spherical-harmonics texel (R202). -/
abbrev Wide := BitVec 128

end Sys2Proof
end

