-- ==== Sys2Proof/Machine/Float32.lean ====
section
/-! DEFINITION. binary32 arithmetic on patterns (42_covariance_encoder.md R130 to R135): each operation
computes the exact result and rounds it once, to nearest, ties to even. -/

namespace Sys2Proof.Machine

/-- Bit 31 (R92). -/
def f32Sign (u : Word) : Bool := u.msb

/-- Bits 30:23 (R92). -/
def f32Exp (u : Word) : Nat := (u.extractLsb' 23 8).toNat

/-- Bits 22:0 (R92). -/
def f32Frac (u : Word) : Nat := (u.extractLsb' 0 23).toNat

/-- A NaN: exponent field 255, mantissa not zero (R135). -/
def f32IsNaN (u : Word) : Bool := f32Exp u == 255 && f32Frac u != 0

/-- What a binary32 pattern stands for: a NaN, a signed infinity, or `(-1)^neg * m * 2^e`. -/
inductive F32 where
  | nan
  | inf (neg : Bool)
  | fin (neg : Bool) (m : Nat) (e : Int)
deriving DecidableEq, Repr

/-- The value of a pattern (AsF32, R13); subnormals at their value (R131). -/
def f32Unpack (u : Word) : F32 :=
  if f32Exp u = 255 then (if f32Frac u = 0 then .inf (f32Sign u) else .nan)
  else if f32Exp u = 0 then .fin (f32Sign u) (f32Frac u) (-149)
  else .fin (f32Sign u) (f32Frac u + 2 ^ 23) ((f32Exp u : Int) - 150)

/-- The sign bit in place. -/
def f32SignBit (neg : Bool) : Word := if neg then 0x80000000 else 0

/-- The pattern the arithmetic carries for a computed NaN. Its sign and payload are not the spec's:
`f32Bits` replaces the sign before FLOAT_TO_HALF sees it, and nothing reads the payload (R135,
log 7). -/
def f32NaN : Word := 0x7FC00000

/-- The infinity of this sign. -/
def f32Inf (neg : Bool) : Word := f32SignBit neg ||| 0x7F800000

/-- `a / 2^k` rounded to an integer, ties to even. -/
def roundShift (a k : Nat) : Nat :=
  let q := a / 2 ^ k
  let r := a % 2 ^ k
  if 2 ^ k < 2 * r ∨ (2 ^ k = 2 * r ∧ q % 2 = 1) then q + 1 else q

/-- The exponent of the last kept bit of `m * 2^e`: 24 significant bits, and never below the subnormal
step 2^-149. -/
def f32Quantum (m : Nat) (e : Int) : Int := max ((Nat.log2 m : Int) + e - 23) (-149)

/-- The significand of `m * 2^e` at its quantum, rounded. -/
def f32Significand (m : Nat) (e : Int) : Nat :=
  let q := f32Quantum m e
  if q ≤ e then m * 2 ^ (e - q).toNat else roundShift m (q - e).toNat

/-- The pattern of the binary32 value nearest to `(-1)^neg * m * 2^e`, ties to even (R131). The exponent
field and the significand are one number, so that a carry out of the significand raises the exponent;
255 in the exponent field is overflow, an infinity of the right sign. -/
def f32Round (neg : Bool) (m : Nat) (e : Int) : Word :=
  if m = 0 then f32SignBit neg
  else
    let p := (f32Quantum m e + 149).toNat * 2 ^ 23 + f32Significand m e
    if 255 * 2 ^ 23 ≤ p then f32Inf neg else f32SignBit neg ||| BitVec.ofNat 32 p

/-- The signed integer `(-1)^neg * m`. -/
def f32Signed (neg : Bool) (m : Nat) : Int := if neg then -(m : Int) else (m : Int)

/-- The exact sum of two finite values, rounded; an exact zero is -0 only when both are negative
(round to nearest). -/
def f32AddFin (na : Bool) (ma : Nat) (ea : Int) (nb : Bool) (mb : Nat) (eb : Int) : Word :=
  let e := min ea eb
  let t := f32Signed na (ma * 2 ^ (ea - e).toNat) + f32Signed nb (mb * 2 ^ (eb - e).toNat)
  if t = 0 then f32SignBit (na && nb) else f32Round (decide (t < 0)) t.natAbs e

/-- fadd (R131). -/
def fadd (a b : Word) : Word :=
  match f32Unpack a, f32Unpack b with
  | .nan, _ => f32NaN
  | _, .nan => f32NaN
  | .inf na, .inf nb => if na = nb then f32Inf na else f32NaN
  | .inf na, .fin _ _ _ => f32Inf na
  | .fin _ _ _, .inf nb => f32Inf nb
  | .fin na ma ea, .fin nb mb eb => f32AddFin na ma ea nb mb eb

/-- The pattern with its sign bit changed. -/
def f32Neg (a : Word) : Word := a ^^^ 0x80000000

/-- fsub (R131): the sum with the second operand's sign changed. -/
def fsub (a b : Word) : Word := fadd a (f32Neg b)

/-- fmul (R131). -/
def fmul (a b : Word) : Word :=
  match f32Unpack a, f32Unpack b with
  | .nan, _ => f32NaN
  | _, .nan => f32NaN
  | .inf na, .inf nb => f32Inf (na ^^ nb)
  | .inf na, .fin nb mb _ => if mb = 0 then f32NaN else f32Inf (na ^^ nb)
  | .fin na ma _, .inf nb => if ma = 0 then f32NaN else f32Inf (na ^^ nb)
  | .fin na ma ea, .fin nb mb eb => f32Round (na ^^ nb) (ma * mb) (ea + eb)

/-- `2 * floor(a / b)`, plus one when the division leaves a remainder: enough to round the quotient
once, since the added bit lies below every rounding point. -/
def stickyDiv (a b : Nat) : Nat := 2 * (a / b) + (if a % b = 0 then 0 else 1)

/-- The quotient of two finite values, the divisor not zero, rounded: 64 further bits of quotient and
the sticky bit. -/
def f32DivFin (neg : Bool) (ma : Nat) (ea : Int) (mb : Nat) (eb : Int) : Word :=
  f32Round neg (stickyDiv (ma * 2 ^ 64) mb) (ea - eb - 65)

/-- fdiv (R131). -/
def fdiv (a b : Word) : Word :=
  match f32Unpack a, f32Unpack b with
  | .nan, _ => f32NaN
  | _, .nan => f32NaN
  | .inf _, .inf _ => f32NaN
  | .inf na, .fin nb _ _ => f32Inf (na ^^ nb)
  | .fin na _ _, .inf nb => f32SignBit (na ^^ nb)
  | .fin na ma ea, .fin nb mb eb =>
    if mb = 0 then (if ma = 0 then f32NaN else f32Inf (na ^^ nb))
    else f32DivFin (na ^^ nb) ma ea mb eb

/-- The largest `r` below `acc + 2^k` with `r^2` at most `a`, found bit by bit from `2^(k-1)` down. -/
def isqrtFrom (a : Nat) : Nat → Nat → Nat
  | 0, acc => acc
  | k + 1, acc => isqrtFrom a k (if (acc + 2 ^ k) ^ 2 ≤ a then acc + 2 ^ k else acc)

/-- The integer square root of `a`, for `a` below 2^128. -/
def isqrt (a : Nat) : Nat := isqrtFrom a 64 0

/-- `2 * floor(sqrt a)`, plus one when the root is not exact. -/
def stickySqrt (a : Nat) : Nat := 2 * isqrt a + (if isqrt a ^ 2 = a then 0 else 1)

/-- The root of a finite non-negative value, rounded: the exponent is made even, then 32 further bits
of root and the sticky bit. -/
def f32SqrtFin (m : Nat) (e : Int) : Word :=
  if e % 2 = 0 then f32Round false (stickySqrt (m * 2 ^ 64)) (e / 2 - 33)
  else f32Round false (stickySqrt (2 * m * 2 ^ 64)) ((e - 1) / 2 - 33)

/-- fsqrt (R131). -/
def fsqrt (a : Word) : Word :=
  match f32Unpack a with
  | .nan => f32NaN
  | .inf neg => if neg then f32NaN else f32Inf false
  | .fin neg m e => if m = 0 then f32SignBit neg else if neg then f32NaN else f32SqrtFin m e

/-- I2F (R13): the binary32 value of an integer, used where it is exact. -/
def i2f (k : Int) : Word := f32Round (decide (k < 0)) k.natAbs 0

end Sys2Proof.Machine
end

