-- ==== Sys2Proof/Config.lean ====
section
/-! DEFINITION. The implementation parameters of 00_scope.md R11 that a machine is built with, and
the free values the spec leaves open. The values R10 fixes and the default setting are in
Sys2Proof/Machine/Constants.lean. -/

namespace Sys2Proof

/-- HALF_ROUND (R11, R107). -/
inductive HalfRound where
  | truncate
  | nearestEven
deriving DecidableEq, Repr

/-- F32_SUBNORMAL_MODE (R11, R102). -/
inductive SubnormalMode where
  | zero
  | passTop10
deriving DecidableEq, Repr

/-- NAN_SIGN (R11, R135). -/
inductive NanSign where
  | draw
  | positive
  | negative
deriving DecidableEq, Repr

/-- The parameters of R11 that a rule reads. They stand in State as plain data and no step changes
them (log 3). DEBUG_BOUNDS is fixed false (R234) and INSTANCES is one (log 12). -/
structure Config where
  /-- ADDR_W, the width of an address; OPEN, at least 32. -/
  addrW : Nat
  /-- EXP, the binary32 pattern the core uses for `exp(c/16 - 10)`, for each code (R185). -/
  exp : Vector Word 256
  halfRound : HalfRound
  subnormal : SubnormalMode
  nanSign : NanSign
deriving DecidableEq, Repr

/-- The sign bit of the `k`-th computed NaN that reaches FLOAT_TO_HALF when NAN_SIGN is `draw`
(R135): a free value, log 7. -/
opaque Config.nanDraw : Nat → BitVec 1

/-- The `k`-th byte of an output footprint abandoned by reset (R251): a free value, log 7. -/
opaque Config.resetByte : Nat → Byte

end Sys2Proof
end

