-- ==== Sys2Proof/Machine/Constants.lean ====
section
/-! DEFINITION. The constants 00_scope.md R10 fixes, in one record, the other binary32 constants of
42_covariance_encoder.md R134, the default EXP table of 45_splat20.md R186, and the
default parameters of R11. -/

namespace Sys2Proof.Machine

/-- The constants R10 lists, under its names; the binary32 ones as patterns (R134). -/
structure Constants where
  /-- HEADER_LEN: bytes in the header buffer. -/
  headerLen : Nat
  /-- HASH_LEN: bytes hashed. -/
  hashLen : Nat
  /-- HASH_SEED: the initial rolling sum. -/
  hashSeed : Word
  /-- HASH_MULT: the multiplier of the rolling sum. -/
  hashMult : Word
  /-- CHECKSUM_OFF: the byte offset of the stored checksum. -/
  checksumOff : Nat
  /-- PREFIX_LEN: bytes of the block prefix. -/
  prefixLen : Nat
  /-- TAG_SPLAT20. -/
  tagSplat20 : Word
  /-- TAG_SH1. -/
  tagSh1 : Word
  /-- TAG_SH12. -/
  tagSh12 : Word
  /-- TAG_SH3. -/
  tagSh3 : Word
  /-- GEN_STRIDE: bytes of a Generic-Splat record. -/
  genStride : Nat
  /-- S20_STRIDE: payload bytes of a Splat20 point. -/
  s20Stride : Nat
  /-- SH1_K: coefficient bytes of an SH1 point. -/
  sh1K : Nat
  /-- SH12_K: coefficient bytes of an SH12 point. -/
  sh12K : Nat
  /-- SH3_K: coefficient bytes of an SH3 point. -/
  sh3K : Nat
  /-- GEO_TEXEL: bytes of a geometry texel. -/
  geoTexel : Nat
  /-- SH_TEXEL: bytes of a spherical-harmonics texel. -/
  shTexel : Nat
  /-- SH_BITS: bits kept of a coefficient. -/
  shBits : Nat
  /-- SH_TRAILER: the trailer of the last word. -/
  shTrailer : Wide
  /-- POS_DIV: the divisor of the fixed-point position, binary32. -/
  posDiv : Word
  /-- SEXT_MASK: set when bit 23 is (R183). -/
  sextMask : Word
  /-- Q_BIAS: subtracted from a quaternion byte, binary32. -/
  qBias : Word
  /-- Q_SCALE: the divisor of a quaternion byte, binary32. -/
  qScale : Word
  /-- SCALE_DIV: the divisor of a scale code (R185). -/
  scaleDiv : Nat
  /-- SCALE_OFF: subtracted from the divided scale code (R185). -/
  scaleOff : Nat
  /-- COV_GAIN: the factor of a covariance entry, binary32. -/
  covGain : Word
  /-- HALF_E_LO: the lowest binary32 exponent that maps to a normal half. -/
  halfELo : Nat
  /-- HALF_E_HI: the lowest binary32 exponent that saturates. -/
  halfEHi : Nat
  /-- HALF_REBIAS: subtracted from the exponents between. -/
  halfRebias : Nat
  /-- HALF_E_SAT: the exponent of a saturated half. -/
  halfESat : Nat
  /-- STATUS_OK. -/
  statusOk : Word
  /-- STATUS_FAIL. -/
  statusFail : Word
deriving DecidableEq, Repr

/-- The values of R10, which stand here and nowhere else. -/
def constants : Constants :=
  { headerLen := 128, hashLen := 124, hashSeed := 53653, hashMult := 33, checksumOff := 124,
    prefixLen := 8, tagSplat20 := 20, tagSh1 := 1, tagSh12 := 2, tagSh3 := 3, genStride := 32,
    s20Stride := 20, sh1K := 9, sh12K := 24, sh3K := 21, geoTexel := 32, shTexel := 16, shBits := 5,
    shTrailer := 1, posDiv := 0x45800000, sextMask := 0xFF000000, qBias := 0x43000000,
    qScale := 0x43000000, scaleDiv := 16, scaleOff := 10, covGain := 0x40800000, halfELo := 113,
    halfEHi := 142, halfRebias := 112, halfESat := 31, statusOk := 0, statusFail := 1 }

/-- `1.0` (R134). -/
def f32One : Word := 0x3F800000
/-- `2.0` (R134). -/
def f32Two : Word := 0x40000000
/-- Codes 0 to 31 of the default EXP (R186). -/
def expRows0 : List Word :=
  [0x383E6BCE, 0x384AB3C4, 0x3857C67F, 0x3865B113, 0x3874816B, 0x3882232C, 0x388A87D1, 0x3893770A,
   0x389CF9C5, 0x38A71988, 0x38B1E071, 0x38BD594B, 0x38C98F8D, 0x38D68F6F, 0x38E465F3, 0x38F320F0,
   0x39016791, 0x3909C01D, 0x3912A274, 0x391C1779, 0x392628A3, 0x3930E004, 0x393C4853, 0x39486CFB,
   0x39555A20, 0x39631CB1, 0x3971C271, 0x3980AD04, 0x3988F988, 0x3991CF10, 0x399B3673, 0x39A5391A]

/-- Codes 32 to 63 of the default EXP (R186). -/
def expRows1 : List Word :=
  [0x39AFE108, 0x39BB38E6, 0x39C74C0C, 0x39D4268E, 0x39E1D549, 0x39F065EC, 0x39FFE709, 0x3A083411,
   0x3A10FCDD, 0x3A1A56B2, 0x3A244AEB, 0x3A2EE37C, 0x3A3A2AFF, 0x3A462CBD, 0x3A52F4B8, 0x3A608FB9,
   0x3A6F0B5D, 0x3A7E7620, 0x3A876FB7, 0x3A902BD9, 0x3A997833, 0x3AA35E12, 0x3AADE75D, 0x3AB91E9E,
   0x3AC50F0C, 0x3AD1C49A, 0x3ADF4BFF, 0x3AEDB2C1, 0x3AFD074B, 0x3B06AC78, 0x3B0F5C03, 0x3B189AF5]

/-- Codes 64 to 95 of the default EXP (R186). -/
def expRows2 : List Word :=
  [0x3B227290, 0x3B2CECAA, 0x3B3813BF, 0x3B43F2F8, 0x3B509633, 0x3B5E0A17, 0x3B6C5C17, 0x3B7B9A86,
   0x3B85EA53, 0x3B8E8D58, 0x3B97BEF6, 0x3BA18860, 0x3BABF360, 0x3BB70A61, 0x3BC2D87D, 0x3BCF6980,
   0x3BDCC9FF, 0x3BEB075A, 0x3BFA2FD0, 0x3C052945, 0x3C0DBFD7, 0x3C16E434, 0x3C209F82, 0x3C2AFB7D,
   0x3C360282, 0x3C41BF99, 0x3C4E3E7F, 0x3C5B8BB5, 0x3C69B489, 0x3C78C724, 0x3C84694E, 0x3C8CF37E]

/-- Codes 96 to 127 of the default EXP (R186). -/
def expRows3 : List Word :=
  [0x3C960AAE, 0x3C9FB7F4, 0x3CAA0500, 0x3CB4FC1F, 0x3CC0A84A, 0x3CCD152C, 0x3CDA4F35, 0x3CE8639F,
   0x3CF76081, 0x3D03AA6C, 0x3D0C284C, 0x3D153261, 0x3D1ED1B4, 0x3D290FE6, 0x3D33F737, 0x3D3F928D,
   0x3D4BED86, 0x3D59147E, 0x3D67149C, 0x3D75FBE2, 0x3D82EC9C, 0x3D8B5E3F, 0x3D945B4C, 0x3D9DECC0,
   0x3DA81C2E, 0x3DB2F3C6, 0x3DBE7E61, 0x3DCAC78B, 0x3DD7DB8C, 0x3DE5C77C, 0x3DF49946, 0x3E022FDF]

/-- Codes 128 to 159 of the default EXP (R186). -/
def expRows4 : List Word :=
  [0x3E0A9555, 0x3E13856D, 0x3E1D0916, 0x3E2729D5, 0x3E31F1CC, 0x3E3D6BC4, 0x3E49A337, 0x3E56A45E,
   0x3E647C3C, 0x3E7338A8, 0x3E817431, 0x3E89CD8D, 0x3E92B0C2, 0x3E9C26B4, 0x3EA638D9, 0x3EB0F145,
   0x3EBC5AB2, 0x3EC88088, 0x3ED56EF0, 0x3EE332D9, 0x3EF1DA07, 0x3F00B992, 0x3F0906E5, 0x3F11DD4A,
   0x3F1B4598, 0x3F254939, 0x3F2FF231, 0x3F3B4B29, 0x3F475F7D, 0x3F543B41, 0x3F61EB51, 0x3F707D60]

/-- Codes 160 to 191 of the default EXP (R186). -/
def expRows5 : List Word :=
  [0x3F800000, 0x3F88415B, 0x3F910B02, 0x3F9A65C1, 0x3FA45AF2, 0x3FAEF48C, 0x3FBA3D29, 0x3FC64012,
   0x3FD3094C, 0x3FE0A5A2, 0x3FEF22AF, 0x3FFE8EF3, 0x40077CEE, 0x401039EA, 0x4019872C, 0x40236E02,
   0x402DF854, 0x403930AD, 0x40452246, 0x4051D911, 0x405F61C7, 0x406DC9F2, 0x407D1FFA, 0x4086B99C,
   0x408F69FF, 0x4098A9D9, 0x40A28269, 0x40ACFD89, 0x40B825B5, 0x40C40615, 0x40D0AA8D, 0x40DE1FC0]

/-- Codes 192 to 223 of the default EXP (R186). -/
def expRows6 : List Word :=
  [0x40EC7326, 0x40FBB312, 0x4105F763, 0x410E9B40, 0x4117CDC4, 0x41219822, 0x412C0426, 0x41371C3D,
   0x4142EB7F, 0x414F7DBC, 0x415CDF89, 0x416B1E48, 0x417A4838, 0x41853643, 0x418DCDAB, 0x4196F2ED,
   0x41A0AF2E, 0x41AB0C2C, 0x41B61444, 0x41C1D27F, 0x41CE529E, 0x41DBA120, 0x41E9CB55, 0x41F8DF6A,
   0x42047639, 0x420D013F, 0x42161951, 0x421FC789, 0x422A1597, 0x42350DC7, 0x4240BB15, 0x424D292E]

/-- Codes 224 to 255 of the default EXP (R186). -/
def expRows7 : List Word :=
  [0x425A6481, 0x42687A4B, 0x427778A3, 0x4283B744, 0x428C35F9, 0x429540EF, 0x429EE133, 0x42A92065,
   0x42B408C5, 0x42BFA53E, 0x42CC016B, 0x42D929AC, 0x42E72B27, 0x42F613E2, 0x4302F962, 0x430B6BD8,
   0x431469C5, 0x431DFC28, 0x43282C95, 0x4333053C, 0x433E90F7, 0x434ADB53, 0x4357F09B, 0x4365DDE6,
   0x4374B122, 0x43823C92, 0x438AA2DA, 0x439393D1, 0x439D1868, 0x43A73A24, 0x43B20328, 0x43BD7E3E]

set_option maxRecDepth 4000 in
/-- The default EXP, code 0 first (R186). -/
def defaultExp : Vector Word 256 :=
  ⟨(expRows0 ++ expRows1 ++ expRows2 ++ expRows3 ++ expRows4 ++ expRows5 ++ expRows6
    ++ expRows7).toArray, rfl⟩

/-- The defaults of R11. -/
def defaultConfig : Config :=
  { addrW := 32, exp := defaultExp, halfRound := .truncate, subnormal := .zero, nanSign := .draw }

end Sys2Proof.Machine
end

