-- ==== Sys2Proof/Syntax.lean ====
section
/-! DEFINITION. The ten operations of the core (00_scope.md R4), one constructor per row of
spec/opcode_table.json. -/

namespace Sys2Proof

/-- The operands of WRITE_GEOMETRY_TEXEL that come from one point (42_covariance_encoder.md R140):
position and scale patterns, quaternion before normalisation, and the colour word. -/
structure SplatRecord where
  px : Word
  py : Word
  pz : Word
  sx : Word
  sy : Word
  sz : Word
  qx : Word
  qy : Word
  qz : Word
  qw : Word
  rgba : Word
deriving DecidableEq, Repr

/-- The operations. A command takes its operands from the registers sampled at `start` (R70, R73);
a block format takes the latched count (R31, R74); an internal operation takes the values its
invoker hands it. -/
inductive Instr where
  /-- VALIDATE_HEADER (R120). -/
  | validateHeader
  /-- DECODE_POINTS (R170). -/
  | decodePoints
  /-- DECODE_BLOCK (R160). -/
  | decodeBlock
  /-- SPLAT20, tag 20 (R180), of `n` points. -/
  | splat20 (n : Word)
  /-- SH1, tag 1 (R204), of `n` points. -/
  | sh1 (n : Word)
  /-- SH12, tag 2 (R205), of `n` points. -/
  | sh12 (n : Word)
  /-- SH3, tag 3 (R206), of `n` points. -/
  | sh3 (n : Word)
  /-- FLOAT_TO_HALF (R100) of one binary32 pattern. -/
  | floatToHalf (u : Word)
  /-- PACK_HALF2X16 (R108) of two binary32 patterns. -/
  | packHalf2x16 (ux uy : Word)
  /-- WRITE_GEOMETRY_TEXEL (R140): output base, point index, the point's fields. -/
  | writeGeometryTexel (o : Nat) (i : Word) (r : SplatRecord)
deriving DecidableEq, Repr

end Sys2Proof
end

