-- ==== Sys2Proof/WellFormed.lean ====
section
/-! DEFINITION. Which instruction terms are well formed, and which have an encoding. -/

namespace Sys2Proof

/-- The bit fields are bounded by their types. The one operand with a condition of its own is the
output base of WRITE_GEOMETRY_TEXEL, a copy of `x[OUT_BASE]` and so a multiple of 4
(20_memory.md R46). -/
def Instr.wellFormed : Instr → Bool
  | .validateHeader => true
  | .decodePoints => true
  | .decodeBlock => true
  | .splat20 _ => true
  | .sh1 _ => true
  | .sh12 _ => true
  | .sh3 _ => true
  | .floatToHalf _ => true
  | .packHalf2x16 _ _ => true
  | .writeGeometryTexel o _ _ => o % 4 == 0

/-- A host command or a block format has an encoding; an internal operation has none
(00_scope.md R4). -/
def Instr.encodable : Instr → Bool
  | .validateHeader => true
  | .decodePoints => true
  | .decodeBlock => true
  | .splat20 _ => true
  | .sh1 _ => true
  | .sh12 _ => true
  | .sh3 _ => true
  | .floatToHalf _ => false
  | .packHalf2x16 _ _ => false
  | .writeGeometryTexel _ _ _ => false

end Sys2Proof
end

