-- ==== Sys2Proof/Decode.lean ====
section
/-! DEFINITION. Decoding and encoding of commands and block prefixes (30_encoding.md R70 to R76).
An internal operation has no encoding (00_scope.md R4). -/

namespace Sys2Proof

/-- What the core decodes: the CMD word `x[0]` as sampled at `start` (R70), or the block prefix read
as one little-endian 64-bit number, count in bits 31:0 and tag in bits 63:32 (R74). -/
inductive Encoded where
  | cmd (w : Word)
  | block (p : PrefixWord)
deriving DecidableEq, Repr

/-- Why an encoding is no instruction. -/
inductive DecodeError where
  /-- `x[0]` is 3 or has a bit of 31:2 set (R72). -/
  | reservedOpcode
  /-- The tag is none of 20, 1, 2, 3 (R76). -/
  | unsupportedTag
deriving DecidableEq, Repr

/-- The command word, matched on all 32 bits (R71, R72). -/
def decodeCommand (w : Word) : Except DecodeError Instr :=
  if w = 0 then .ok .validateHeader
  else if w = 1 then .ok .decodePoints
  else if w = 2 then .ok .decodeBlock
  else .error .reservedOpcode

/-- The unpacker a tag selects, compared on all 32 bits (R75, R76). -/
def decodeTag (tag n : Word) : Except DecodeError Instr :=
  if tag = Machine.constants.tagSplat20 then .ok (.splat20 n)
  else if tag = Machine.constants.tagSh1 then .ok (.sh1 n)
  else if tag = Machine.constants.tagSh12 then .ok (.sh12 n)
  else if tag = Machine.constants.tagSh3 then .ok (.sh3 n)
  else .error .unsupportedTag

/-- The count field of a prefix, `P[31:0]` (R74). -/
def prefixCount (p : PrefixWord) : Word := p.extractLsb' 0 32

/-- The tag field of a prefix, `P[63:32]` (R74). -/
def prefixTag (p : PrefixWord) : Word := p.extractLsb' 32 32

/-- Decoding, total on every word and every prefix. -/
def decode : Encoded → Except DecodeError Instr
  | .cmd w => decodeCommand w
  | .block p => decodeTag (prefixTag p) (prefixCount p)

/-- The little-endian number of a byte list, `sum byte_k * 256^k` (20_memory.md R43). -/
def leNat : List Byte → Nat
  | [] => 0
  | b :: t => b.toNat + 256 * leNat t

/-- The `k` lowest bytes of `w`, the least significant first (20_memory.md R44). -/
def leBytes : Nat → Nat → List Byte
  | 0, _ => []
  | k + 1, w => BitVec.ofNat 8 w :: leBytes k (w / 256)

/-- Four bytes are a command word, eight bytes a block prefix; any other run of bytes is no
encoding (R77: the layout fixes the length). -/
def decodeBytes (bs : List Byte) : Option Instr :=
  if bs.length = 4 then (decode (.cmd (BitVec.ofNat 32 (leNat bs)))).toOption
  else if bs.length = 8 then (decode (.block (BitVec.ofNat 64 (leNat bs)))).toOption
  else none

/-- The decoder on an opcode-table row: a 32-bit row is `x[0]`, a 64-bit row the block prefix, each
laid out little-endian (R42). -/
def decodeTableWord (nbits w : Nat) : Option Instr :=
  decodeBytes (leBytes (nbits / 8) w)

/-- The prefix of a block with this tag and count (R74). -/
def prefixWord (tag n : Word) : PrefixWord := tag ++ n

/-- The encoding of an instruction, from the tables of R71 and R75; none for an internal operation
(R4). -/
def encode : Instr → Option Encoded
  | .validateHeader => some (.cmd 0)
  | .decodePoints => some (.cmd 1)
  | .decodeBlock => some (.cmd 2)
  | .splat20 n => some (.block (prefixWord Machine.constants.tagSplat20 n))
  | .sh1 n => some (.block (prefixWord Machine.constants.tagSh1 n))
  | .sh12 n => some (.block (prefixWord Machine.constants.tagSh12 n))
  | .sh3 n => some (.block (prefixWord Machine.constants.tagSh3 n))
  | .floatToHalf _ => none
  | .packHalf2x16 _ _ => none
  | .writeGeometryTexel _ _ _ => none

/-- The bytes of an encoding as the hardware stores them, little-endian (R42). -/
def Encoded.bytes : Encoded → List Byte
  | .cmd w => leBytes 4 w.toNat
  | .block p => leBytes 8 p.toNat

end Sys2Proof
end

