-- ==== Sys2Proof/Machine/State.lean ====
section
/-! DEFINITION. The state of one instance of the core, its memory and the host's coming moves
(10_state.md R22; INVENTORY.md lists every field with its rule), the reasons a step can stop, and
the state right after reset. -/

namespace Sys2Proof.Machine

/-- A run of addresses the launch memory holds (20_memory.md R50), and whether it lies in the
writable part (R59). -/
structure Region where
  base : Nat
  size : Nat
  writable : Bool
deriving DecidableEq, Repr

/-- The host's memory (R36, R50). `map` says which addresses exist. `cells` lists the bytes, sorted by
address, without the entries that equal what an unlisted address reads as (`Memory.wf` in
Sys2Proof/Machine/Ops.lean). -/
structure Memory where
  map : List Region
  cells : List Host.Cell
deriving DecidableEq, Repr

/-- The interface registers, `x[0]` to `x[4]` (R24). -/
inductive XReg where
  | op
  | inBase
  | outBase
  | count
  | status
deriving DecidableEq, Repr

/-- What the host can do between two moves of the core (60_exceptions.md R231; log 11). -/
inductive HostMove where
  /-- Write a register (R24). -/
  | write (r : XReg) (v : Nat)
  /-- Start the command in `x[0]` (R28). -/
  | start
  /-- Reset (70_reset_and_hazards.md R250). -/
  | reset
  /-- Read BUSY once (R28). -/
  | readBusy
  /-- Poll BUSY until it reads 0 (R28, R90). -/
  | await
  /-- Let the core make one move. -/
  | pause
  /-- Read a byte of memory (R36, R63). -/
  | load (a : Nat)
  /-- Write a byte of memory (R36, R63). -/
  | store (a : Nat) (b : Byte)
deriving DecidableEq, Repr

/-- The operands `start` samples (R28); all zero when no command runs (log 4). -/
structure Sampled where
  op : Word
  inBase : Nat
  outBase : Nat
  count : Word
deriving DecidableEq, Repr

/-- No operands sampled (log 4). -/
def noOperands : Sampled := { op := 0, inBase := 0, outBase := 0, count := 0 }

/-- The addresses `base` to `base + len - 1`. -/
structure Span where
  base : Nat
  len : Nat
deriving DecidableEq, Repr

/-- The bytes a command reads and the bytes it writes (R53 to R58). -/
structure Footprint where
  reads : Span
  writes : Span
deriving DecidableEq, Repr

/-- The machine. `none` in a register or in a hidden field is the spec's own "holds no value"
(R35, R252). -/
structure State where
  /-- The parameters of R11 this core is built with. -/
  cfg : Config
  /-- `x[0]` OP (R25). -/
  op : Option Word
  /-- `x[1]` IN_BASE (R26). -/
  inBase : Option Nat
  /-- `x[2]` OUT_BASE (R26). -/
  outBase : Option Nat
  /-- `x[3]` COUNT (R26). -/
  count : Option Word
  /-- `x[4]` STATUS (R27). -/
  status : Word
  /-- BUSY (R28). -/
  busy : Bool
  /-- The operands of the running command (R28, R29). -/
  smp : Sampled
  /-- N, the latched count (R31). -/
  n : Option Word
  /-- TAG, the latched format tag (R31). -/
  tag : Option Word
  /-- The point index, or the byte index of VALIDATE_HEADER (R30). -/
  index : Option Word
  /-- The rolling sum (R32). -/
  rs : Option Word
  /-- The result FLOAT_TO_HALF hands back, a temporary (R33; log 5). -/
  half : Option Half
  /-- The result PACK_HALF2X16 hands back, a temporary (R33; log 5). -/
  packed : Option Word
  /-- The host's memory (R36). -/
  mem : Memory
  /-- The model's own: the footprints of the commands started since BUSY was last read as 0, which no other
  agent may touch (R63; log 15). -/
  held : List Footprint
  /-- The model's own: the number of the next free value (R135, R251; log 7). -/
  draws : Nat
  /-- The model's own: the host's coming moves (R21, R231; log 11). -/
  hostQueue : List HostMove
deriving DecidableEq, Repr

/-- The reasons the machine stops with a fault. The core detects nothing and has no fault of its own
(R15, R224). -/
inductive Fault where
  /-- Raised by a host load or store at an address that does not exist (R50). Safe: the host's access
  has no meaning in the spec, and the run stops. -/
  | absentAddress
deriving DecidableEq, Repr

/-- The refusals (R15): the spec gives the situation no meaning. R223 lists them. -/
inductive Refusal where
  /-- Raised by `exec` for an instruction without a meaning in this model. Safe: the run stops. -/
  | notModelled (mnemonic : String)
  /-- Raised by `start` (R72): `x[0]` is a reserved encoding. Safe: the run stops. -/
  | reservedOpcode
  /-- Raised by `start` (R29): a command is running. Safe: the run stops. -/
  | startWhileBusy
  /-- Raised by `start` (R35, and the table of refusals in R223): a needed register holds no value, the reset
  state of R252, for which a model must pick none. Safe: the run stops. -/
  | operandNotWritten
  /-- Raised by `start`, a command or a texel write (R46): a base is not a multiple of 4. Safe: the run
  stops. -/
  | misalignedBase
  /-- Raised by `start`, a command, an unpacker or a texel write (R52): a footprint passes the top of
  the address space. Safe: the run stops. -/
  | footprintWraps
  /-- Raised by `start`, a command, an unpacker or a texel write (R59): a footprint is not inside
  memory. Safe: the run stops. -/
  | footprintOutsideMemory
  /-- Raised by `start`, a command or an unpacker (R64): input and output share a byte. Safe: the run
  stops. -/
  | inputOutputOverlap
  /-- Raised by a host load or store (R63): another agent touches the footprint of a command before BUSY
  has been read as 0. Safe: the run stops. -/
  | footprintTouched
deriving DecidableEq, Repr

/-- What a move answers. -/
abbrev Out := Host.Outcome State Fault Refusal

/-- The memory of `State.reset`: 2^32 writable bytes, nothing listed. The spec leaves both to the host
(R50, R252); DESIGN CHOICE, unsafe, log 6. -/
def resetMemory : Memory :=
  { map := [{ base := 0, size := 2 ^ 32, writable := true }], cells := [] }

/-- The machine right after reset (R35, R252), with the default parameters (R11) and no host move
pending. -/
def State.reset : State :=
  { cfg := defaultConfig, op := none, inBase := none, outBase := none, count := none,
    status := constants.statusOk, busy := false, smp := noOperands, n := none, tag := none, index := none,
    rs := none, half := none, packed := none, mem := resetMemory, held := [], draws := 0, hostQueue := [] }

end Sys2Proof.Machine
end

