-- ==== Sys2Proof/Machine/Flags.lean ====
section
/-! DEFINITION. The core has no condition codes and no flags (10_state.md R34). Its one result bit is FAIL
of STATUS (R27): how it is computed, and the field accessors of `x[0]` and `x[4]`. -/

namespace Sys2Proof.Machine

/-- The status of a command that succeeded or failed (R27, 60_exceptions.md R220). -/
def statusOf (ok : Bool) : Word := if ok then constants.statusOk else constants.statusFail

/-- FAIL, bit 0 of STATUS (R27). -/
def failBit (status : Word) : Bool := status.getLsbD 0

/-- OPCODE, bits 1:0 of OP (R25). -/
def opcodeField (op : Word) : BitVec 2 := op.extractLsb' 0 2

/-- Bits 31:2 of OP, which must be written 0 (R25). -/
def opReserved (op : Word) : BitVec 30 := op.extractLsb' 2 30

end Sys2Proof.Machine
end

