-- ==== Sys2Proof/Machine/Ops.lean ====
section
/-! DEFINITION. The named operations over memory and registers: memory access (20_memory.md R40 to R45),
footprints and their checks (R46, R52 to R59, R64), the samples and latches of a command (10_state.md
R28, R31) and its completion (R28).

Exceptions: the core takes none and returns from none (60_exceptions.md R224). What stands in their
place is `complete`, the one way a command ends. -/

namespace Sys2Proof.Machine

/-! ## Memory -/

/-- What an unlisted address reads as (log 6). -/
def unlistedByte : Byte := 0

/-- The byte a cell list holds at an address. -/
def lookupCell : List Host.Cell → Nat → Byte
  | [], _ => unlistedByte
  | (x, c) :: t, a => if x = a then c else lookupCell t a

/-- Store a byte in a cell list. The order is kept, and an entry that an unlisted address would read as
is left out. -/
def setCell : List Host.Cell → Nat → Byte → List Host.Cell
  | [], a, b => if b = unlistedByte then [] else [(a, b)]
  | (x, c) :: t, a, b =>
    if a < x then (if b = unlistedByte then (x, c) :: t else (a, b) :: (x, c) :: t)
    else if a = x then (if b = unlistedByte then t else (a, b) :: t)
    else (x, c) :: setCell t a b

/-- The addresses rise strictly from `lo` on, and no entry is one an unlisted address reads as. -/
def cellsFrom : Nat → List Host.Cell → Bool
  | _, [] => true
  | lo, (a, b) :: t => decide (lo ≤ a) && b != unlistedByte && cellsFrom (a + 1) t

/-- The first address past a region. -/
def Region.top (r : Region) : Nat := r.base + r.size

/-- The region holds the address. -/
def Region.has (r : Region) (a : Nat) : Bool := decide (r.base ≤ a) && decide (a < r.top)

/-- The regions rise from `lo` on, are not empty and do not overlap. -/
def regionsFrom : Nat → List Region → Bool
  | _, [] => true
  | lo, r :: t => decide (lo ≤ r.base) && decide (0 < r.size) && regionsFrom r.top t

/-- The address exists (R50). -/
def Memory.has (m : Memory) (a : Nat) : Bool := m.map.any fun r => r.has a

/-- The canonical form: the regions in order, the cells in order, every cell at an existing
address. Equal memories are equal data. -/
def Memory.wf (m : Memory) : Bool :=
  regionsFrom 0 m.map && cellsFrom 0 m.cells && m.cells.all fun c => m.has c.1

/-- One byte (R41). -/
def Memory.byte (m : Memory) (a : Nat) : Byte := lookupCell m.cells a

/-- Store one byte (R44). An address that does not exist is left alone; the checks below keep every
store of the core inside memory. -/
def Memory.setByte (m : Memory) (a : Nat) (b : Byte) : Memory :=
  if m.has a then { m with cells := setCell m.cells a b } else m

/-- The `n` bytes at ascending addresses from `a`. -/
def Memory.bytes (m : Memory) : Nat → Nat → List Byte
  | _, 0 => []
  | a, n + 1 => m.byte a :: m.bytes (a + 1) n

/-- MemRead (R43). -/
def Memory.read (m : Memory) (a n : Nat) : Nat := leNat (m.bytes a n)

/-- MemRead of one word (R43). -/
def Memory.read32 (m : Memory) (a : Nat) : Word := BitVec.ofNat 32 (m.read a 4)

/-- MemRead of a three-byte element (R43). -/
def Memory.read24 (m : Memory) (a : Nat) : BitVec 24 := BitVec.ofNat 24 (m.read a 3)

/-- Store bytes at ascending addresses from `a`. -/
def Memory.setBytes (m : Memory) : Nat → List Byte → Memory
  | _, [] => m
  | a, b :: t => (m.setByte a b).setBytes (a + 1) t

/-- MemWrite of one word (R44). -/
def Memory.write32 (m : Memory) (a : Nat) (v : Word) : Memory := m.setBytes a (leBytes 4 v.toNat)

/-- Store words at ascending addresses from `a` (R60, R148). -/
def Memory.writeWords (m : Memory) : Nat → List Word → Memory
  | _, [] => m
  | a, v :: t => (m.write32 a v).writeWords (a + 4) t

/-- Store the free values from number `k` on over `n` bytes, where there is a byte (R251; log 7). -/
def Memory.scramble (m : Memory) : Nat → Nat → Nat → Memory
  | _, _, 0 => m
  | a, k, n + 1 => (m.setByte a (Config.resetByte k)).scramble (a + 1) (k + 1) n

/-! ## Footprints -/

/-- The first address past a span. -/
def Span.top (r : Span) : Nat := r.base + r.len

/-- The span holds the address. -/
def Span.has (r : Span) (a : Nat) : Bool := decide (r.base ≤ a) && decide (a < r.top)

/-- The last address is `2^w` or more (R52). -/
def Span.wraps (w : Nat) (r : Span) : Bool := decide (0 < r.len) && decide (2 ^ w < r.top)

/-- No shared byte (R64). -/
def Span.disjoint (r t : Span) : Bool :=
  decide (r.len = 0) || decide (t.len = 0) || decide (r.top ≤ t.base) || decide (t.top ≤ r.base)

/-- No address. -/
def noSpan : Span := { base := 0, len := 0 }

/-- Every address of `[lo, hi)` lies in one of the regions, which are in rising order. -/
def covers : List Region → Nat → Nat → Bool
  | [], lo, hi => decide (hi ≤ lo)
  | r :: t, lo, hi => covers t (if r.base ≤ lo ∧ lo ≤ r.top then r.top else lo) hi

/-- Every byte of the span exists (R59). -/
def Memory.readable (m : Memory) (r : Span) : Bool := covers m.map r.base r.top

/-- Every byte of the span is in the writable domain (R59). -/
def Memory.writable (m : Memory) (r : Span) : Bool :=
  covers (m.map.filter fun g => g.writable) r.base r.top

/-- The footprint refusals, in the order wrap (R52), outside memory (R59), overlap (R64); log 9. -/
def footprintCheck (s : State) (f : Footprint) : Option Refusal :=
  if f.reads.wraps s.cfg.addrW || f.writes.wraps s.cfg.addrW then some .footprintWraps
  else if !s.mem.readable f.reads || !s.mem.writable f.writes then some .footprintOutsideMemory
  else if !f.reads.disjoint f.writes then some .inputOutputOverlap
  else none

/-- A base is a multiple of 4 (R46). -/
def aligned (a : Nat) : Bool := a % 4 == 0

/-- VALIDATE_HEADER (R53). -/
def headerFootprint (s : State) : Footprint :=
  { reads := { base := s.smp.inBase, len := constants.headerLen }, writes := noSpan }

/-- DECODE_POINTS (R54). -/
def pointsFootprint (s : State) : Footprint :=
  { reads := { base := s.smp.inBase, len := constants.genStride * s.smp.count.toNat },
    writes := { base := s.smp.outBase, len := constants.geoTexel * s.smp.count.toNat } }

/-- DECODE_BLOCK before its tag is known (R55). -/
def prefixFootprint (s : State) : Footprint :=
  { reads := { base := s.smp.inBase, len := constants.prefixLen }, writes := noSpan }

/-- DECODE_BLOCK with a supported tag: the prefix and `stride` bytes a point, `texel` bytes of output a
point (R56, R57). -/
def blockFootprint (s : State) (stride texel : Nat) (n : Word) : Footprint :=
  { reads := { base := s.smp.inBase, len := constants.prefixLen + stride * n.toNat },
    writes := { base := s.smp.outBase, len := texel * n.toNat } }

/-- What VALIDATE_HEADER checks at `start` (R120). -/
def headerCheck (s : State) : Option Refusal :=
  if !aligned s.smp.inBase then some .misalignedBase else footprintCheck s (headerFootprint s)

/-- What DECODE_POINTS checks at `start` (R170). -/
def pointsCheck (s : State) : Option Refusal :=
  if !aligned s.smp.inBase || !aligned s.smp.outBase then some .misalignedBase
  else footprintCheck s (pointsFootprint s)

/-- What DECODE_BLOCK checks at `start` (R160). -/
def prefixCheck (s : State) : Option Refusal :=
  if !aligned s.smp.inBase || !aligned s.smp.outBase then some .misalignedBase
  else footprintCheck s (prefixFootprint s)

/-- Payload bytes and output bytes per point of a supported tag (R75). -/
def layoutOf (tag : Word) : Option (Nat × Nat) :=
  if tag = constants.tagSplat20 then some (constants.s20Stride, constants.geoTexel)
  else if tag = constants.tagSh1 then some (constants.sh1K, constants.shTexel)
  else if tag = constants.tagSh12 then some (constants.sh12K, constants.shTexel)
  else if tag = constants.tagSh3 then some (constants.sh3K, constants.shTexel)
  else none

/-- The footprint of the running command (R53 to R58): of DECODE_BLOCK with the latched prefix, or, before
it is latched, the prefix in memory. -/
def runningFootprint (s : State) : Footprint :=
  match decodeCommand s.smp.op with
  | .ok .validateHeader => headerFootprint s
  | .ok .decodePoints => pointsFootprint s
  | .ok .decodeBlock =>
    match layoutOf (s.tag.getD (s.mem.read32 (s.smp.inBase + 4))) with
    | some (stride, texel) => blockFootprint s stride texel (s.n.getD (s.mem.read32 s.smp.inBase))
    | none => prefixFootprint s
  | _ => { reads := noSpan, writes := noSpan }

/-! ## Outcomes -/

/-- Refuse, or go on. -/
def refuseOr (c : Option Refusal) (k : Out) : Out :=
  match c with
  | some r => .refused r
  | none => k

/-- Change the state of a next outcome. -/
def mapNext (f : State → State) : Out → Out
  | .next s => .next (f s)
  | .fault r => .fault r
  | .refused r => .refused r

/-! ## The life of a command -/

/-- Put away everything that exists only during a command (R20, R22, R252). -/
def clearHidden (s : State) : State :=
  { s with smp := noOperands, n := none, tag := none, index := none, rs := none, half := none,
           packed := none }

/-- `complete(st)`: STATUS and BUSY together, after the last write (R28). -/
def complete (st : Word) (s : State) : State := { clearHidden s with status := st, busy := false }

/-- Sample `x[0]` to `x[3]`; a register without a value that the command does not use leaves zero, which
nothing reads (R26, R28; log 4). -/
def sample (s : State) : State :=
  { s with smp := { op := s.op.getD 0, inBase := s.inBase.getD 0, outBase := s.outBase.getD 0,
                    count := s.count.getD 0 } }

/-- `start` goes through: the operands are sampled, BUSY is 1, and until BUSY is read as 0 no other agent
may touch the command's footprint (R28, R63; log 15). -/
def beginCommand (s : State) : State :=
  { sample s with busy := true, held := runningFootprint (sample s) :: s.held }

/-- The host reads BUSY: a 0 ends its duty to keep off the footprints of its commands (R63; log 15). -/
def observeBusy (s : State) : State := if s.busy then s else { s with held := [] }

/-- Latch the block prefix, count first (R31, R161). -/
def latchPrefix (s : State) : State :=
  { s with n := some (s.mem.read32 s.smp.inBase), tag := some (s.mem.read32 (s.smp.inBase + 4)) }

/-- The index before the first point (R30); with no point it is a mark of the loop alone (log 16). -/
def beginIndex (s : State) : State := { s with index := some 0 }

/-- The next index, in ascending order (R30). After the last point it holds the number of points, a mark of
the end of the loop that is no index of R30 (log 16). -/
def bumpIndex (s : State) : State := { s with index := s.index.map (· + 1) }

/-- Write words of output and take `k` free values (R44, R135). -/
def putWords (a : Nat) (ws : List Word) (k : Nat) (s : State) : State :=
  { s with mem := s.mem.writeWords a ws, draws := s.draws + k }

end Sys2Proof.Machine
end

