-- ==== Sys2Proof/Machine/Operands.lean ====
section
/-! DEFINITION. The operand forms: effective addresses (47_common_laws.md R215), the wire records, and the
dequantizers of their fields (30_encoding.md R78 to R84). A host command's operands are the sampled
registers; there are no immediates and no addressing modes (R73, R214). -/

namespace Sys2Proof.Machine

/-! ## Addresses (R215), without wrap (R52) -/

/-- Record `i` of the flat layout. -/
def genericAddr (inBase i : Nat) : Nat := inBase + constants.genStride * i

/-- Position element of axis `a` (0, 1, 2) of Splat20 point `i` of `n`. -/
def splatPosAddr (inBase n a i : Nat) : Nat := inBase + constants.prefixLen + 3 * a * n + 3 * i

/-- Byte plane `p` (3 to 13) of Splat20 point `i` of `n`. -/
def splatPlaneAddr (inBase n p i : Nat) : Nat := inBase + constants.prefixLen + (6 + p) * n + i

/-- The first coefficient of spherical-harmonics point `i`, `k` bytes a point. -/
def shAddr (inBase k i : Nat) : Nat := inBase + constants.prefixLen + k * i

/-- Geometry texel `i`. -/
def geoTexelAddr (outBase i : Nat) : Nat := outBase + constants.geoTexel * i

/-- Spherical-harmonics texel `i`. -/
def shTexelAddr (outBase i : Nat) : Nat := outBase + constants.shTexel * i

/-! ## Dequantizers -/

/-- Quaternion component, `(byte - 128) / 128` on the unsigned byte (R83, R172). -/
def quatComponent (b : Byte) : Word :=
  fdiv (fsub (i2f (b.toNat : Int)) constants.qBias) constants.qScale

/-- Sign extension of a 24-bit pattern with the fixed mask (R183). -/
def sext24 (u : BitVec 24) : Word :=
  if u.msb then u.setWidth 32 ||| constants.sextMask else u.setWidth 32

/-- Position, `I2F(sext_24(u)) / 4096` (R184). -/
def splatPosition (u : BitVec 24) : Word := fdiv (i2f (sext24 u).toInt) constants.posDiv

/-- The number whose natural exponential a scale code stands for, `c/16 - 10` (R81, R185). -/
def scaleExponent (c : Byte) : ℚ := (c.toNat : ℚ) / constants.scaleDiv - constants.scaleOff

/-- Scale: EXP of the code, the binary32 value the core uses for the exponential of `scaleExponent`
(R185). -/
def splatScale (cfg : Config) (c : Byte) : Word := cfg.exp[c.toFin]

/-- Colour, `A << 24 | B << 16 | G << 8 | R` (R82, R187). -/
def packRgba (r g b a : Byte) : Word :=
  a.setWidth 32 <<< 24 ||| b.setWidth 32 <<< 16 ||| g.setWidth 32 <<< 8 ||| r.setWidth 32

/-- The five kept bits of a coefficient (R201). -/
def shCode (b : Byte) : Byte := b >>> (8 - constants.shBits)

/-! ## Wire records -/

/-- The Generic-Splat record at `rb` (R78, R172). -/
def genericRecord (m : Memory) (rb : Nat) : SplatRecord :=
  { px := m.read32 rb
    py := m.read32 (rb + 4)
    pz := m.read32 (rb + 8)
    sx := m.read32 (rb + 12)
    sy := m.read32 (rb + 16)
    sz := m.read32 (rb + 20)
    rgba := m.read32 (rb + 24)
    qx := quatComponent (m.byte (rb + 28))
    qy := quatComponent (m.byte (rb + 29))
    qz := quatComponent (m.byte (rb + 30))
    qw := quatComponent (m.byte (rb + 31)) }

/-- Point `i` of a Splat20 payload of `n` points (R79, R182 to R187). -/
def splat20Record (cfg : Config) (m : Memory) (inBase n i : Nat) : SplatRecord :=
  { px := splatPosition (m.read24 (splatPosAddr inBase n 0 i))
    py := splatPosition (m.read24 (splatPosAddr inBase n 1 i))
    pz := splatPosition (m.read24 (splatPosAddr inBase n 2 i))
    sx := splatScale cfg (m.byte (splatPlaneAddr inBase n 3 i))
    sy := splatScale cfg (m.byte (splatPlaneAddr inBase n 4 i))
    sz := splatScale cfg (m.byte (splatPlaneAddr inBase n 5 i))
    rgba := packRgba (m.byte (splatPlaneAddr inBase n 6 i)) (m.byte (splatPlaneAddr inBase n 7 i))
      (m.byte (splatPlaneAddr inBase n 8 i)) (m.byte (splatPlaneAddr inBase n 9 i))
    qx := quatComponent (m.byte (splatPlaneAddr inBase n 10 i))
    qy := quatComponent (m.byte (splatPlaneAddr inBase n 11 i))
    qz := quatComponent (m.byte (splatPlaneAddr inBase n 12 i))
    qw := quatComponent (m.byte (splatPlaneAddr inBase n 13 i)) }

/-- The `k` coefficient bytes of point `i` (R84). -/
def shCoefficients (m : Memory) (inBase k i : Nat) : List Byte := m.bytes (shAddr inBase k i) k

end Sys2Proof.Machine
end

