-- ==== Sys2Proof/Machine/Harmonics.lean ====
section
/-! DEFINITION. The Spherical-Harmonics Unpackers SH1, SH12, SH3, tags 1, 2, 3
(46_spherical_harmonics.md). They use no floating-point arithmetic. -/

namespace Sys2Proof.Machine

/-- The coefficients from number `j` on, each in its place in the 128-bit stream (R202, R203). -/
def shAccumulate : Nat → List Byte → Wide
  | _, [] => 0
  | j, b :: t => ((shCode b).setWidth 128 <<< (128 - constants.shBits * (j + 1))) ||| shAccumulate (j + 1) t

/-- The accumulator of one point, with the trailer (R203). -/
def shPack (bs : List Byte) : Wide := shAccumulate 0 bs ||| constants.shTrailer

/-- Word `w` of the accumulator, word 0 the most significant (R202). -/
def shWord (v : Wide) (w : Nat) : Word := v.extractLsb' (96 - 32 * w) 32

/-- The four words of a texel (R86). -/
def shWords (v : Wide) : List Word := [shWord v 0, shWord v 1, shWord v 2, shWord v 3]

/-- Pack the point at the index, `k` coefficients (R202). -/
def shPoint (k : Nat) (s : State) : State :=
  match s.index with
  | some i =>
    bumpIndex (putWords (shTexelAddr s.smp.outBase i.toNat)
      (shWords (shPack (shCoefficients s.mem s.smp.inBase k i.toNat))) 0 s)
  | none => s

/-- The footprint check of an SH arm (R57, R161). -/
def shCheck (k : Nat) (n : Word) (s : State) : Option Refusal :=
  footprintCheck s (blockFootprint s k constants.shTexel n)

/-- `SH(O, I, N, K)` and completion (R161, R202). -/
def shDecode (k : Nat) (n : Word) (s : State) : Out :=
  refuseOr (shCheck k n s) (.next (complete constants.statusOk ((shPoint k)^[n.toNat] (beginIndex s))))

/-- SH1 (R204). -/
def execSh1 (n : Word) (s : State) : Out := shDecode constants.sh1K n s

/-- SH12 (R205). -/
def execSh12 (n : Word) (s : State) : Out := shDecode constants.sh12K n s

/-- SH3 (R206). -/
def execSh3 (n : Word) (s : State) : Out := shDecode constants.sh3K n s

end Sys2Proof.Machine
end

