-- ==== Sys2Proof/Machine/HalfFloat.lean ====
section
/-! DEFINITION. The Half-Float Packer: FLOAT_TO_HALF and PACK_HALF2X16 (40_half_float.md). -/

namespace Sys2Proof.Machine

/-- Round `h` up when the discarded `d` is more than half of `2^k`, or exactly half with `h` odd (R107). -/
def halfRoundUp (h d k : Nat) : Nat :=
  if 2 ^ k < 2 * d ∨ (2 ^ k = 2 * d ∧ h % 2 = 1) then h + 1 else h

/-- Keep `a / 2^k` on top of the exponent bits `h`, with the rounding HALF_ROUND selects (R103, R104, R107). -/
def halfNarrow (mode : HalfRound) (h a k : Nat) : Nat :=
  match mode with
  | .truncate => h + a / 2 ^ k
  | .nearestEven => halfRoundUp (h + a / 2 ^ k) (a % 2 ^ k) k

/-- Exponent and mantissa of the half, 15 bits, by the band of the binary32 exponent (R101 to R105). -/
def halfMagnitude (cfg : Config) (e f : Nat) : Nat :=
  if e = 0 then
    match cfg.subnormal with
    | .zero => 0
    | .passTop10 => f / 2 ^ 13
  else if e < constants.halfELo then halfNarrow cfg.halfRound 0 (f + 2 ^ 23) (constants.halfELo - e + 13)
  else if e < constants.halfEHi then halfNarrow cfg.halfRound ((e - constants.halfRebias) * 2 ^ 10) f 13
  else constants.halfESat * 2 ^ 10

/-- FLOAT_TO_HALF (R100, R106): the sign copied, then the 15 bits of the band. -/
def floatToHalf (cfg : Config) (u : Word) : Half :=
  BitVec.ofBool (f32Sign u) ++ BitVec.ofNat 15 (halfMagnitude cfg (f32Exp u) (f32Frac u))

/-- PACK_HALF2X16 (R108): the first half in bits 15:0, the second in bits 31:16. -/
def packHalf2x16 (cfg : Config) (ux uy : Word) : Word := floatToHalf cfg uy ++ floatToHalf cfg ux

/-- FLOAT_TO_HALF as an operation: the result goes to the temporary its invoker reads (R33; log 5). -/
def execFloatToHalf (u : Word) (s : State) : Out :=
  .next { s with half := some (floatToHalf s.cfg u) }

/-- PACK_HALF2X16 as an operation (R108; log 5). -/
def execPackHalf2x16 (ux uy : Word) (s : State) : Out :=
  .next { s with packed := some (packHalf2x16 s.cfg ux uy) }

end Sys2Proof.Machine
end

