-- ==== Sys2Proof/Machine/Covariance.lean ====
section
/-! DEFINITION. The Covariance Encoder: WRITE_GEOMETRY_TEXEL (42_covariance_encoder.md R140 to R149). The
nesting of the operations is that of the rules; nothing is fused or reordered (R133). -/

namespace Sys2Proof.Machine

/-- A normalised quaternion. -/
structure Quat where
  x : Word
  y : Word
  z : Word
  w : Word
deriving DecidableEq, Repr

/-- Nine entries in row-major order. -/
structure Mat3 where
  a0 : Word
  a1 : Word
  a2 : Word
  a3 : Word
  a4 : Word
  a5 : Word
  a6 : Word
  a7 : Word
  a8 : Word
deriving DecidableEq, Repr

/-- The upper triangle of a symmetric matrix, row-major (R144). -/
structure Sym3 where
  e0 : Word
  e1 : Word
  e2 : Word
  e3 : Word
  e4 : Word
  e5 : Word
deriving DecidableEq, Repr

/-- The squared norm of the quaternion, squares summed in the order x, y, z, w (R141). -/
def quatNorm2 (r : SplatRecord) : Word :=
  fadd (fadd (fadd (fmul r.qx r.qx) (fmul r.qy r.qy)) (fmul r.qz r.qz)) (fmul r.qw r.qw)

/-- Step 1, normalise: four divisions by the norm (R141). -/
def normalise (r : SplatRecord) : Quat :=
  let nrm := fsqrt (quatNorm2 r)
  { x := fdiv r.qx nrm, y := fdiv r.qy nrm, z := fdiv r.qz nrm, w := fdiv r.qw nrm }

/-- Step 2a, the nine rotation entries (R142). -/
def rotation (q : Quat) : Mat3 :=
  { a0 := fsub f32One (fmul f32Two (fadd (fmul q.y q.y) (fmul q.z q.z)))
    a1 := fmul f32Two (fadd (fmul q.x q.y) (fmul q.w q.z))
    a2 := fmul f32Two (fsub (fmul q.x q.z) (fmul q.w q.y))
    a3 := fmul f32Two (fsub (fmul q.x q.y) (fmul q.w q.z))
    a4 := fsub f32One (fmul f32Two (fadd (fmul q.x q.x) (fmul q.z q.z)))
    a5 := fmul f32Two (fadd (fmul q.y q.z) (fmul q.w q.x))
    a6 := fmul f32Two (fadd (fmul q.x q.z) (fmul q.w q.y))
    a7 := fmul f32Two (fsub (fmul q.y q.z) (fmul q.w q.x))
    a8 := fsub f32One (fmul f32Two (fadd (fmul q.x q.x) (fmul q.y q.y))) }

/-- Step 2b, scale the rows (R143). -/
def scaleRows (a : Mat3) (sx sy sz : Word) : Mat3 :=
  { a0 := fmul a.a0 sx, a1 := fmul a.a1 sx, a2 := fmul a.a2 sx
    a3 := fmul a.a3 sy, a4 := fmul a.a4 sy, a5 := fmul a.a5 sy
    a6 := fmul a.a6 sz, a7 := fmul a.a7 sz, a8 := fmul a.a8 sz }

/-- The dot product of two columns, left to right (R133, R144). -/
def dot3 (a0 b0 a1 b1 a2 b2 : Word) : Word :=
  fadd (fadd (fmul a0 b0) (fmul a1 b1)) (fmul a2 b2)

/-- Step 3, the six entries of `Mᵗ·M` (R144). -/
def gram (m : Mat3) : Sym3 :=
  { e0 := dot3 m.a0 m.a0 m.a3 m.a3 m.a6 m.a6
    e1 := dot3 m.a0 m.a1 m.a3 m.a4 m.a6 m.a7
    e2 := dot3 m.a0 m.a2 m.a3 m.a5 m.a6 m.a8
    e3 := dot3 m.a1 m.a1 m.a4 m.a4 m.a7 m.a7
    e4 := dot3 m.a1 m.a2 m.a4 m.a5 m.a7 m.a8
    e5 := dot3 m.a2 m.a2 m.a5 m.a5 m.a8 m.a8 }

/-- The covariance entries sigma0 to sigma5 of a point (R141 to R144). -/
def sigma (r : SplatRecord) : Sym3 := gram (scaleRows (rotation (normalise r)) r.sx r.sy r.sz)

/-- Step 4a, the gain (R146). -/
def gain (c : Sym3) : Sym3 :=
  { e0 := fmul constants.covGain c.e0, e1 := fmul constants.covGain c.e1, e2 := fmul constants.covGain c.e2
    e3 := fmul constants.covGain c.e3, e4 := fmul constants.covGain c.e4, e5 := fmul constants.covGain c.e5 }

/-- The sign bit of the `k`-th computed NaN (R135; log 7). -/
def nanSignBit (mode : NanSign) (k : Nat) : BitVec 1 :=
  match mode with
  | .draw => Config.nanDraw k
  | .positive => 0
  | .negative => 1

/-- BitsF32 of a computed value: a NaN gets its sign from NAN_SIGN (R135). -/
def f32Bits (mode : NanSign) (k : Nat) (u : Word) : Word :=
  if f32IsNaN u then nanSignBit mode k ++ u.extractLsb' 0 31 else u

/-- The eight words of a texel (R85, R147, R148); entry `j` takes the free value number `k + j` if it is a
NaN (R135). -/
def texelWords (cfg : Config) (k : Nat) (r : SplatRecord) : List Word :=
  let c := gain (sigma r)
  let b := f32Bits cfg.nanSign
  [r.px, r.py, r.pz, 0,
   packHalf2x16 cfg (b k c.e0) (b (k + 1) c.e1),
   packHalf2x16 cfg (b (k + 2) c.e2) (b (k + 3) c.e3),
   packHalf2x16 cfg (b (k + 4) c.e4) (b (k + 5) c.e5),
   r.rgba]

/-- The free values one texel may take: one for each entry (R135). -/
def texelDraws : Nat := 6

/-- Write texel `i` at output base `o`, and nothing else (R140, R148). -/
def writeTexel (o : Nat) (i : Word) (r : SplatRecord) (s : State) : State :=
  putWords (geoTexelAddr o i.toNat) (texelWords s.cfg s.draws r) texelDraws s

/-- The footprint of one texel write: it reads no memory (R140). -/
def texelFootprint (o : Nat) (i : Word) : Footprint :=
  { reads := noSpan, writes := { base := geoTexelAddr o i.toNat, len := constants.geoTexel } }

/-- What an invoker of WRITE_GEOMETRY_TEXEL guarantees (R46, R149). -/
def texelCheck (o : Nat) (i : Word) (s : State) : Option Refusal :=
  if !aligned o then some .misalignedBase else footprintCheck s (texelFootprint o i)

/-- WRITE_GEOMETRY_TEXEL as an operation (R140). -/
def execWriteGeometryTexel (o : Nat) (i : Word) (r : SplatRecord) (s : State) : Out :=
  refuseOr (texelCheck o i s) (.next (writeTexel o i r s))

end Sys2Proof.Machine
end

