-- ==== Sys2Proof/Machine/Splat20.lean ====
section
/-! DEFINITION. The Splat20 Unpacker, tag 20 (45_splat20.md). -/

namespace Sys2Proof.Machine

/-- Extract the point at the index and write its texel (R182 to R188). -/
def splat20Point (n : Word) (s : State) : State :=
  match s.index with
  | some i =>
    bumpIndex (writeTexel s.smp.outBase i
      (splat20Record s.cfg s.mem s.smp.inBase n.toNat i.toNat) s)
  | none => s

/-- The footprint check of the SPLAT20 arm (R56, R161). -/
def splat20Check (n : Word) (s : State) : Option Refusal :=
  footprintCheck s (blockFootprint s constants.s20Stride constants.geoTexel n)

/-- SPLAT20 (R180, R181): it always completes with STATUS_OK. -/
def execSplat20 (n : Word) (s : State) : Out :=
  refuseOr (splat20Check n s) (.next (complete constants.statusOk ((splat20Point n)^[n.toNat] (beginIndex s))))

end Sys2Proof.Machine
end

