-- ==== Sys2Proof/Machine/Block.lean ====
section
/-! DEFINITION. The Format Dispatcher: DECODE_BLOCK (43_dispatcher.md). -/

namespace Sys2Proof.Machine

/-- The four-way dispatch on the latched tag (R161). Each arm checks its payload footprint, unpacks and
completes with STATUS_OK; any other tag completes with STATUS_FAIL and nothing else (R162). -/
def dispatchTag (tag n : Word) (s : State) : Out :=
  if tag = constants.tagSplat20 then execSplat20 n s
  else if tag = constants.tagSh1 then execSh1 n s
  else if tag = constants.tagSh12 then execSh12 n s
  else if tag = constants.tagSh3 then execSh3 n s
  else .next (complete constants.statusFail s)

/-- DECODE_BLOCK (R160, R161): the prefix is read once, count first, and only the latched copies are used
afterwards (R31, R163). -/
def execDecodeBlock (s : State) : Out :=
  refuseOr (prefixCheck s)
    (dispatchTag (s.mem.read32 (s.smp.inBase + 4)) (s.mem.read32 s.smp.inBase) (latchPrefix s))

end Sys2Proof.Machine
end

