-- ==== Sys2Proof/Machine/Header.lean ====
section
/-! DEFINITION. The Header Validator: VALIDATE_HEADER (41_header_validator.md). -/

namespace Sys2Proof.Machine

/-- One step of the rolling sum: multiply modulo 2^32, then exclusive-or the zero-extended byte (R121). -/
def rollStep (rs : Word) (b : Byte) : Word := rs * constants.hashMult ^^^ b.setWidth 32

/-- The rolling sum of a run of bytes (R121). -/
def rollingSum (bs : List Byte) : Word := bs.foldl rollStep constants.hashSeed

/-- Before the first byte (R121). -/
def headerBegin (s : State) : State := { beginIndex s with rs := some constants.hashSeed }

/-- Hash the byte at the index (R121). -/
def hashByte (s : State) : State :=
  match s.index with
  | some i => bumpIndex { s with rs := s.rs.map fun r => rollStep r (s.mem.byte (s.smp.inBase + i.toNat)) }
  | none => s

/-- The stored checksum (R122). -/
def storedChecksum (s : State) : Word := s.mem.read32 (s.smp.inBase + constants.checksumOff)

/-- Compare on all 32 bits and complete (R123). -/
def headerEnd (s : State) : State := complete (statusOf (s.rs == some (storedChecksum s))) s

/-- VALIDATE_HEADER (R120). -/
def execValidateHeader (s : State) : Out :=
  refuseOr (headerCheck s) (.next (headerEnd (hashByte^[constants.hashLen] (headerBegin s))))

end Sys2Proof.Machine
end

