-- ==== Sys2Proof/Machine/Points.lean ====
section
/-! DEFINITION. The Generic-Splat Unpacker: DECODE_POINTS (44_generic_splat.md). -/

namespace Sys2Proof.Machine

/-- Latch the count and set the index before the first point (R30, R31). -/
def pointsBegin (s : State) : State := { beginIndex s with n := some s.smp.count }

/-- Decode the record at the index and write its texel (R172, R173). -/
def genericSplatPoint (s : State) : State :=
  match s.index with
  | some i => bumpIndex (writeTexel s.smp.outBase i (genericRecord s.mem (genericAddr s.smp.inBase i.toNat)) s)
  | none => s

/-- DECODE_POINTS (R170, R171): it always completes with STATUS_OK. -/
def execDecodePoints (s : State) : Out :=
  refuseOr (pointsCheck s)
    (.next (complete constants.statusOk (genericSplatPoint^[s.smp.count.toNat] (pointsBegin s))))

end Sys2Proof.Machine
end

