-- ==== Sys2Proof/Machine/Dispatch.lean ====
section
/-! DEFINITION. One arm per operation of 00_scope.md R4. -/

namespace Sys2Proof.Machine

def exec (i : Instr) (s : State) : Host.Outcome State Fault Refusal :=
  match i with
  | .validateHeader => Sys2Proof.Machine.execValidateHeader s
  | .decodePoints => Sys2Proof.Machine.execDecodePoints s
  | .decodeBlock => Sys2Proof.Machine.execDecodeBlock s
  | .splat20 n => Sys2Proof.Machine.execSplat20 n s
  | .sh1 n => Sys2Proof.Machine.execSh1 n s
  | .sh12 n => Sys2Proof.Machine.execSh12 n s
  | .sh3 n => Sys2Proof.Machine.execSh3 n s
  | .floatToHalf u => Sys2Proof.Machine.execFloatToHalf u s
  | .packHalf2x16 ux uy => Sys2Proof.Machine.execPackHalf2x16 ux uy s
  | .writeGeometryTexel o k r => Sys2Proof.Machine.execWriteGeometryTexel o k r s

end Sys2Proof.Machine
end

