-- ==== Sys2Proof/Machine/Fetch.lean ====
section
/-! DEFINITION. What the core decodes next, and one move of the core. The core fetches no instructions
(10_state.md R30): the command in the sampled OP stands in the place of a fetched word, and the latched
block prefix in the place of a second one (30_encoding.md R70, R74). -/

namespace Sys2Proof.Machine

/-- The encoding the core runs: nothing when idle, the latched prefix once there is one (R31), else the
sampled command (R28). -/
def fetch (s : State) : Option Encoded :=
  if s.busy then
    match s.n, s.tag with
    | some n, some tag => some (.block (prefixWord tag n))
    | _, _ => some (.cmd s.smp.op)
  else none

/-- An encoding that is no operation: an unsupported tag completes with STATUS_FAIL (R162), a reserved
command is refused (R72). -/
def noOperation (e : DecodeError) (s : State) : Out :=
  match e with
  | .unsupportedTag => .next (complete constants.statusFail s)
  | .reservedOpcode => .refused .reservedOpcode

/-- One move of the core: a running command, whole (R61). With BUSY = 0 the core is idle and nothing
changes (R235). -/
def coreStep (s : State) : Out :=
  match fetch s with
  | none => .next s
  | some w =>
    match decode w with
    | .ok i => exec i s
    | .error e => noOperation e s

end Sys2Proof.Machine
end

