-- ==== Sys2Proof/Machine/HostMoves.lean ====
section
/-! DEFINITION. The moves of the host (10_state.md R24, R28, R29, R35; 20_memory.md R63;
60_exceptions.md R231; 70_reset_and_hazards.md R250, R251). -/

namespace Sys2Proof.Machine

/-- What the host reads in a register (R24); none where it holds no value (R35). -/
def hostReadReg (r : XReg) (s : State) : Option Nat :=
  match r with
  | .op => s.op.map fun v => v.toNat
  | .inBase => s.inBase
  | .outBase => s.outBase
  | .count => s.count.map fun v => v.toNat
  | .status => some s.status.toNat

/-- What the host reads in BUSY (R28). -/
def hostReadBusy (s : State) : Bool := s.busy

/-- The host writes a register (R24): it keeps the low bits that fit its width (log 2); a write to STATUS is
ignored. -/
def hostWrite (r : XReg) (v : Nat) (s : State) : State :=
  match r with
  | .op => { s with op := some (BitVec.ofNat 32 v) }
  | .inBase => { s with inBase := some (v % 2 ^ s.cfg.addrW) }
  | .outBase => { s with outBase := some (v % 2 ^ s.cfg.addrW) }
  | .count => { s with count := some (BitVec.ofNat 32 v) }
  | .status => s

/-- The operand registers a command uses hold a value (R35, R71, D37). -/
def operandsWritten (i : Instr) (s : State) : Bool :=
  match i with
  | .validateHeader => s.inBase.isSome
  | .decodePoints => s.inBase.isSome && s.outBase.isSome && s.count.isSome
  | .decodeBlock => s.inBase.isSome && s.outBase.isSome
  | _ => true

/-- The alignment and footprint checks of a command at `start` (R46, R52, R59, R64). -/
def startCheck (i : Instr) (s : State) : Option Refusal :=
  match i with
  | .validateHeader => headerCheck s
  | .decodePoints => pointsCheck s
  | .decodeBlock => prefixCheck s
  | _ => none

/-- `start` (R28), with its refusals in the order of R225: opcode, busy, operands written, alignment,
footprint. An OP that holds no value has no opcode to check and is an operand not written, which R35 and
R252 refuse and do not let the model give a value. -/
def hostStart (s : State) : Out :=
  match s.op with
  | none => .refused (if s.busy then .startWhileBusy else .operandNotWritten)
  | some w =>
    match decodeCommand w with
    | .error _ => .refused .reservedOpcode
    | .ok i =>
      if s.busy then .refused .startWhileBusy
      else if !operandsWritten i s then .refused .operandNotWritten
      else refuseOr (startCheck i (sample s)) (.next (beginCommand s))

/-- The registers and hidden state after reset; memory is not touched (R35, R250, R252). BUSY is 0, and the
host that resets the core knows it (log 15). -/
def resetRegisters (s : State) : State :=
  { clearHidden s with op := none, inBase := none, outBase := none, count := none,
                       status := constants.statusOk, busy := false, held := [] }

/-- Every byte of an abandoned output holds any value (R251; log 7). -/
def abandon (f : Footprint) (s : State) : State :=
  { s with mem := s.mem.scramble f.writes.base s.draws f.writes.len, draws := s.draws + f.writes.len }

/-- Reset, at any time (R250). A running command is abandoned (R251), whatever its footprint (log 10). -/
def hostReset (s : State) : Out :=
  .next (resetRegisters (if s.busy then abandon (runningFootprint s) s else s))

/-- The output of a command whose end the host has not read holds the address (R63). -/
def heldOutput (s : State) (a : Nat) : Bool := s.held.any fun f => f.writes.has a

/-- The input or output of a command whose end the host has not read holds the address (R63). -/
def heldBuffer (s : State) (a : Nat) : Bool := s.held.any fun f => f.reads.has a || f.writes.has a

/-- The host reads a byte of memory: not one of a command's output until BUSY has been read as 0 (R63,
R267; log 15). -/
def hostLoad (a : Nat) (s : State) : Out :=
  if heldOutput s a then .refused .footprintTouched
  else if s.mem.has a then .next s
  else .fault .absentAddress

/-- The host writes a byte of memory: not one of a command's footprint until BUSY has been read as 0 (R63,
R265; log 15). That the writable domain of R59 binds the core alone, and the host may store to any
existing byte, is the model's choice (DESIGN CHOICE, log 14). -/
def hostStore (a : Nat) (b : Byte) (s : State) : Out :=
  if heldBuffer s a then .refused .footprintTouched
  else if s.mem.has a then .next { s with mem := s.mem.setByte a b }
  else .fault .absentAddress

/-- Put a move back at the head of the queue. -/
def requeue (m : HostMove) (s : State) : State := { s with hostQueue := m :: s.hostQueue }

/-- The host polls BUSY: while it reads 1 the core goes on and the host polls again (R28, R90; log 11). -/
def hostAwait (s : State) : Out :=
  if s.busy then mapNext (requeue .await) (coreStep s) else .next (observeBusy s)

/-- One move of the host (log 11). -/
def hostStep (m : HostMove) (s : State) : Out :=
  match m with
  | .write r v => .next (hostWrite r v s)
  | .start => hostStart s
  | .reset => hostReset s
  | .readBusy => .next (observeBusy s)
  | .await => hostAwait s
  | .pause => coreStep s
  | .load a => hostLoad a s
  | .store a b => hostStore a b s

end Sys2Proof.Machine
end

