-- ==== Sys2Proof/Machine/Step.lean ====
section
/-! DEFINITION. One step of the machine: the host's next move if it has one, else a move of the core. -/

namespace Sys2Proof.Machine

/-- One step (log 11). -/
def step (s : State) : Host.Outcome State Fault Refusal :=
  match s.hostQueue with
  | [] => coreStep s
  | m :: rest => hostStep m { s with hostQueue := rest }

/-- `s` with the instruction of an opcode-table row where the core decodes its next one (log 13): a 32-bit
row is the sampled OP of a running command, a 64-bit row the latched prefix of a running DECODE_BLOCK
whose output lies past the longest payload of that many points, where no input is (R64). No host move is
pending, so the very next step runs it. -/
def State.withFetchWord (s : State) (nbits w : Nat) : State :=
  if nbits = 64 then
    { s with busy := true, index := none, rs := none, hostQueue := [],
             smp := { s.smp with
                      op := 2
                      outBase := s.smp.inBase + constants.prefixLen +
                        constants.sh12K * (prefixCount (BitVec.ofNat 64 w)).toNat },
             n := some (prefixCount (BitVec.ofNat 64 w)), tag := some (prefixTag (BitVec.ofNat 64 w)) }
  else
    { s with busy := true, smp := { s.smp with op := BitVec.ofNat 32 w }, index := none, rs := none,
             hostQueue := [], n := none, tag := none }

end Sys2Proof.Machine
end

