-- ==== Sys2Proof/Machine/PerPoint.lean ====
section
/-! DEFINITION. The core as a per-point step relation, the other form 20_memory.md R61 allows. It runs the
same per-point functions one at a time, so the hidden index, rolling sum, count and tag (10_state.md R30
to R32) live from one step to the next. -/

namespace Sys2Proof.Machine

/-- How many points, or bytes, the running operation goes over (R30). -/
def pointTotal (i : Instr) (s : State) : Nat :=
  match i with
  | .validateHeader => constants.hashLen
  | .decodePoints => s.smp.count.toNat
  | .splat20 n => n.toNat
  | .sh1 n => n.toNat
  | .sh12 n => n.toNat
  | .sh3 n => n.toNat
  | _ => 0

/-- One point, or byte, of the running operation. -/
def pointBody (i : Instr) (s : State) : State :=
  match i with
  | .validateHeader => hashByte s
  | .decodePoints => genericSplatPoint s
  | .splat20 n => splat20Point n s
  | .sh1 _ => shPoint constants.sh1K s
  | .sh12 _ => shPoint constants.sh12K s
  | .sh3 _ => shPoint constants.sh3K s
  | _ => s

/-- The end of the running operation. -/
def pointEnd (i : Instr) (s : State) : State :=
  match i with
  | .validateHeader => headerEnd s
  | _ => complete constants.statusOk s

/-- The first step of an operation: its checks, then the index before the first point. DECODE_BLOCK latches
its prefix, and the core goes on with the unpacker the prefix selects (R161). -/
def pointBegin (i : Instr) (s : State) : Out :=
  match i with
  | .validateHeader => refuseOr (headerCheck s) (.next (headerBegin s))
  | .decodePoints => refuseOr (pointsCheck s) (.next (pointsBegin s))
  | .decodeBlock => refuseOr (prefixCheck s) (.next (latchPrefix s))
  | .splat20 n => refuseOr (splat20Check n s) (.next (beginIndex s))
  | .sh1 n => refuseOr (shCheck constants.sh1K n s) (.next (beginIndex s))
  | .sh12 n => refuseOr (shCheck constants.sh12K n s) (.next (beginIndex s))
  | .sh3 n => refuseOr (shCheck constants.sh3K n s) (.next (beginIndex s))
  | .floatToHalf u => execFloatToHalf u s
  | .packHalf2x16 ux uy => execPackHalf2x16 ux uy s
  | .writeGeometryTexel o k r => execWriteGeometryTexel o k r s

/-- A running operation: begin it, do its next point, or end it. Between the last point and the end the index
holds the number of points (124 for VALIDATE_HEADER, 0 with no point); R30 gives it no value there, and
that mark is the model's choice (DESIGN CHOICE, log 16). -/
def pointAdvance (i : Instr) (s : State) : Out :=
  match s.index with
  | none => pointBegin i s
  | some k => if k.toNat < pointTotal i s then .next (pointBody i s) else .next (pointEnd i s)

/-- One step of the per-point core. -/
def perPointStep (s : State) : Out :=
  match fetch s with
  | none => .next s
  | some w =>
    match decode w with
    | .ok i => pointAdvance i s
    | .error e => noOperation e s

/-- `k` steps of the per-point core, stopping at the first refusal. -/
def perPointRun : Nat → State → Out
  | 0, s => .next s
  | k + 1, s =>
    match perPointStep s with
    | .next t => perPointRun k t
    | .fault r => .fault r
    | .refused r => .refused r

end Sys2Proof.Machine
end

