-- ==== Sys2Proof/Safety.lean ====
section
/-! DEFINITION. What counts as a legal state and a safe move, in the terms the statements use. -/

namespace Sys2Proof.Machine

/-- The state a move answers, if it is a next state. -/
def nextState : Out → Option State
  | .next s => some s
  | .fault _ => none
  | .refused _ => none

/-- The refusal a move answers, if it is one. -/
def refusalOf : Out → Option Refusal
  | .next _ => none
  | .fault _ => none
  | .refused r => some r

/-! ## Footprints -/

/-- The address is in the writable domain of the launch memory (R50, R59). -/
def Memory.canWrite (m : Memory) (a : Nat) : Bool := m.map.any fun r => r.has a && r.writable

/-- No footprint passes the top of the address space (R52). -/
def footprintFits (s : State) (f : Footprint) : Prop :=
  (0 < f.reads.len → f.reads.top ≤ 2 ^ s.cfg.addrW) ∧
    (0 < f.writes.len → f.writes.top ≤ 2 ^ s.cfg.addrW)

/-- Every byte read exists, and every byte written is writable (R59). -/
def footprintInside (s : State) (f : Footprint) : Prop :=
  (∀ a, f.reads.has a = true → s.mem.has a = true) ∧
    (∀ a, f.writes.has a = true → s.mem.canWrite a = true)

/-- No byte is both read and written (R64). -/
def footprintApart (f : Footprint) : Prop := ∀ a, ¬ (f.reads.has a = true ∧ f.writes.has a = true)

/-- What a command may rely on (R52, R59, R64). -/
def footprintOk (s : State) (f : Footprint) : Prop :=
  footprintFits s f ∧ footprintInside s f ∧ footprintApart f

/-- Every byte outside the span reads as before. -/
def sameOutside (r : Span) (m m' : Memory) : Prop := ∀ a, r.has a = false → m'.byte a = m.byte a

/-- The words stand at ascending addresses from `a`. -/
def wordsAt (m : Memory) (a : Nat) (ws : List Word) : Prop :=
  ∀ k (h : k < ws.length), m.read32 (a + 4 * k) = ws[k]

/-- `t` is `s` after an unpacker of `n` points with `texel` bytes of output a point: completed with
STATUS_OK, texel `i` holds `ws i`, `draws` free values taken, and nothing else is changed. -/
def unpacked (s t : State) (texel n : Nat) (ws : Nat → List Word) (draws : Nat) : Prop :=
  t = { complete constants.statusOk s with mem := t.mem, draws := s.draws + draws } ∧
    t.mem.map = s.mem.map ∧
    (∀ i < n, wordsAt t.mem (s.smp.outBase + texel * i) (ws i)) ∧
    sameOutside { base := s.smp.outBase, len := texel * n } s.mem t.mem

/-- The six covariance entries of a point after the gain, as FLOAT_TO_HALF reads them but for a NaN's sign
(R144, R146). -/
def covarianceEntries (r : SplatRecord) : List Word :=
  let g := gain (sigma r)
  [g.e0, g.e1, g.e2, g.e3, g.e4, g.e5]

/-- The texel at `a` is the same in both memories but for the sign bits of the halves whose entry (after the
gain) is a NaN, which are drawn (R49, R135): half `j` has its sign in the top bit of byte `17 + 2 j`. -/
def sameButNaNSigns (r : SplatRecord) (a : Nat) (m m' : Memory) : Prop :=
  ∀ b < 32, (m'.byte (a + b)).extractLsb' 0 7 = (m.byte (a + b)).extractLsb' 0 7 ∧
    ((∀ j e, b = 17 + 2 * j → (covarianceEntries r)[j]? = some e → f32IsNaN e = false) →
      m'.byte (a + b) = m.byte (a + b))

/-- The most per-point steps the running command takes (70_reset_and_hazards.md R275): its first step and
its last, one for each byte or point, and for DECODE_BLOCK one for the prefix. -/
def pointBound (s : State) : Nat :=
  match decodeCommand s.smp.op with
  | .ok .validateHeader => constants.hashLen + 2
  | .ok .decodePoints => s.smp.count.toNat + 2
  | .ok .decodeBlock => (s.mem.read32 s.smp.inBase).toNat + 3
  | _ => 0

/-! ## binary32 values -/

/-- A finite pattern. -/
def f32Finite (u : Word) : Bool := f32Exp u != 255

/-- The number a finite pattern stands for; 0 for the others. -/
def f32Rat (u : Word) : ℚ :=
  match f32Unpack u with
  | .fin neg m e => (if neg then -1 else 1) * (m : ℚ) * (2 : ℚ) ^ e
  | _ => 0

/-- `r` is the binary32 value IEEE 754 prescribes for the exact number `x` (R131): nearest, ties to an even
significand, an infinity of the right sign from half a step past the largest finite value on; a result
of a number that is not zero has its sign. -/
def roundsTo (x : ℝ) (r : Word) : Prop :=
  (0 < x → r.msb = false) ∧ (x < 0 → r.msb = true) ∧
    ((2 ^ 128 - 2 ^ 103 ≤ |x| ∧ f32Unpack r = .inf r.msb) ∨
      (|x| < 2 ^ 128 - 2 ^ 103 ∧ f32Finite r = true ∧
        ∀ y, f32Finite y = true →
          |(f32Rat r : ℝ) - x| ≤ |(f32Rat y : ℝ) - x| ∧
            (|(f32Rat y : ℝ) - x| = |(f32Rat r : ℝ) - x| → f32Rat y = f32Rat r ∨ f32Frac r % 2 = 0)))

/-! ## The invariant -/

/-- The parameters are ones a core can be built with: ADDR_W at least 32 (R11), and every region inside
the address space (R40). -/
def configOk (s : State) : Prop :=
  32 ≤ s.cfg.addrW ∧ ∀ r ∈ s.mem.map, r.top ≤ 2 ^ s.cfg.addrW

/-- The address registers hold ADDR_W bits (R26). -/
def widthsOk (s : State) : Prop :=
  (∀ a ∈ s.inBase, a < 2 ^ s.cfg.addrW) ∧ (∀ a ∈ s.outBase, a < 2 ^ s.cfg.addrW) ∧
    s.smp.inBase < 2 ^ s.cfg.addrW ∧ s.smp.outBase < 2 ^ s.cfg.addrW

/-- STATUS is 0 or 1 (R27, R220). -/
def statusLegal (s : State) : Prop := s.status = constants.statusOk ∨ s.status = constants.statusFail

/-- Outside a command the hidden state does not exist (R22, R35, R252). -/
def hiddenGone (s : State) : Prop :=
  s.busy = false → s.smp = noOperands ∧ s.n = none ∧ s.tag = none ∧ s.index = none ∧ s.rs = none ∧
    s.half = none ∧ s.packed = none

/-- A running command is one `start` accepted (R28, R72, R225), and its footprint is held (R63). -/
def commandAccepted (s : State) : Prop :=
  s.busy = true → s.index = none ∧ s.rs = none ∧ s.n = none ∧ s.tag = none ∧
    runningFootprint s ∈ s.held ∧ ∃ i, decodeCommand s.smp.op = .ok i ∧ startCheck i s = none

/-- The invariant of the machine. -/
def StateInv (s : State) : Prop :=
  s.mem.wf = true ∧ configOk s ∧ widthsOk s ∧ statusLegal s ∧ hiddenGone s ∧ commandAccepted s

end Sys2Proof.Machine
end

