-- ==== Sys2Proof/Certificates/Slice0/Obligations.lean ====
section
/-! DEFINITION. The statements for the provers. Each docstring names the rule or section of spec/ it
formalises. -/

open Sys2Proof Sys2Proof.Machine

/-! ## Encodings -/

/-- 30_encoding.md sections 1 and 2: an instruction is decoded from its own encoding and from no other, and
the bytes of an encoding, laid out as the hardware stores them, decode to it. -/
def Obligations.DecodeInvertsEncode : Prop :=
  (∀ (i : Instr) (e : Encoded), decode e = .ok i ↔ encode i = some e) ∧
    (∀ (i : Instr) (e : Encoded), i.wellFormed = true → encode i = some e →
      decodeBytes e.bytes = some i) ∧
    (∀ i : Instr, i.encodable = (encode i).isSome)

/-- 30_encoding.md sections 1 and 2: one word of each row of the tables, and one reserved word and tag. -/
def Obligations.TableWordsDecode : Prop :=
  decodeTableWord 32 0x00000000 = some .validateHeader ∧
    decodeTableWord 32 0x00000001 = some .decodePoints ∧
    decodeTableWord 32 0x00000002 = some .decodeBlock ∧
    decodeTableWord 32 0x00000003 = none ∧
    decodeTableWord 64 0x0000001400000002 = some (.splat20 2) ∧
    decodeTableWord 64 0x0000000100000003 = some (.sh1 3) ∧
    decodeTableWord 64 0x00000002FFFFFFFF = some (.sh12 0xFFFFFFFF) ∧
    decodeTableWord 64 0x0000000300000000 = some (.sh3 0) ∧
    decodeTableWord 64 0x0000006300000002 = none

/-- R72 and R76, the encodings: exactly the words with a bit of 31:2 set or with 3 in bits 1:0 are
reserved, and exactly the tags other than 20, 1, 2, 3 are unsupported. -/
def Obligations.ReservedEncodingsRejected : Prop :=
  (∀ w : Word, decodeCommand w = .error .reservedOpcode ↔ opReserved w ≠ 0 ∨ opcodeField w = 3) ∧
    (∀ tag n : Word, decodeTag tag n = .error .unsupportedTag ↔
      tag ≠ 20 ∧ tag ≠ 1 ∧ tag ≠ 2 ∧ tag ≠ 3)

/-! ## The step -/

/-- 10_state.md sections 2 to 4: an idle core changes nothing; a running core decodes the latched prefix if
there is one, else the sampled command, and when that decodes to an operation the step is `exec` of it.
That a core with a latched prefix (R31) goes on with the operation the prefix selects is the model's
choice (log 8); only the per-point form reaches such a state. -/
def Obligations.StepRunsDecodedOperation : Prop :=
  (∀ s : State, s.hostQueue = [] → s.busy = false → step s = .next s) ∧
    (∀ s i, s.hostQueue = [] → s.busy = true → s.tag = none → decode (.cmd s.smp.op) = .ok i →
      step s = exec i s) ∧
    (∀ s i n tag, s.hostQueue = [] → s.busy = true → s.n = some n → s.tag = some tag →
      decode (.block (tag ++ n)) = .ok i → step s = exec i s)

/-- R24, R26, R27, R35: the host writes a register, nothing else changes, and the host reads there what it
wrote; a write to STATUS is ignored, and STATUS always reads as a value; a register that holds no value
reads as none, and after reset x[0] to x[3] do. That an address register keeps the low ADDR_W bits of a
wider value is the model's choice (log 2), so the values here fit. -/
def Obligations.HostWriteChangesOneRegister : Prop :=
  (∀ (s : State) (rest : List HostMove) (v : Nat),
    (s.hostQueue = .write .op v :: rest → v < 2 ^ 32 → ∃ t, step s = .next t ∧
      t = { s with op := some (BitVec.ofNat 32 v), hostQueue := rest } ∧ hostReadReg .op t = some v) ∧
    (s.hostQueue = .write .inBase v :: rest → v < 2 ^ s.cfg.addrW → ∃ t, step s = .next t ∧
      t = { s with inBase := some v, hostQueue := rest } ∧ hostReadReg .inBase t = some v) ∧
    (s.hostQueue = .write .outBase v :: rest → v < 2 ^ s.cfg.addrW → ∃ t, step s = .next t ∧
      t = { s with outBase := some v, hostQueue := rest } ∧ hostReadReg .outBase t = some v) ∧
    (s.hostQueue = .write .count v :: rest → v < 2 ^ 32 → ∃ t, step s = .next t ∧
      t = { s with count := some (BitVec.ofNat 32 v), hostQueue := rest } ∧
      hostReadReg .count t = some v) ∧
    (s.hostQueue = .write .status v :: rest → step s = .next { s with hostQueue := rest })) ∧
  (∀ s : State, hostReadReg .status s = some s.status.toNat ∧
    (s.op = none → hostReadReg .op s = none) ∧ (s.inBase = none → hostReadReg .inBase s = none) ∧
    (s.outBase = none → hostReadReg .outBase s = none) ∧
    (s.count = none → hostReadReg .count s = none)) ∧
  ∀ r : XReg, hostReadReg r State.reset = if r = .status then some 0 else none

/-- R28: `start` samples the operands and sets BUSY, and changes nothing else, under the conditions of
R35, R46, R52, R59 and R64. The footprint of DECODE_BLOCK at `start` is its prefix (R55). The operand of a
register the command does not use is the model's (log 4), and so is the list of footprints that other
agents must keep off (log 15). -/
def Obligations.StartSamplesOperands : Prop :=
  ∀ (s : State) (rest : List HostMove) (a b : Nat) (c : Word),
    s.hostQueue = .start :: rest → s.mem.wf = true → s.busy = false → s.inBase = some a →
    a % 4 = 0 →
    (s.op = some 0 → footprintOk s { reads := { base := a, len := 128 }, writes := noSpan } →
      step s = .next { s with busy := true, hostQueue := rest,
                              smp := { op := 0, inBase := a, outBase := s.outBase.getD 0,
                                       count := s.count.getD 0 },
                              held := { reads := { base := a, len := 128 }, writes := noSpan } ::
                                s.held }) ∧
    (s.op = some 1 → s.outBase = some b → b % 4 = 0 → s.count = some c →
      footprintOk s { reads := { base := a, len := 32 * c.toNat },
                      writes := { base := b, len := 32 * c.toNat } } →
      step s = .next { s with busy := true, hostQueue := rest,
                              smp := { op := 1, inBase := a, outBase := b, count := c },
                              held := { reads := { base := a, len := 32 * c.toNat },
                                        writes := { base := b, len := 32 * c.toNat } } ::
                                s.held }) ∧
    (s.op = some 2 → s.outBase = some b → b % 4 = 0 →
      footprintOk s { reads := { base := a, len := 8 }, writes := noSpan } →
      ∀ t, t = { s with busy := true, hostQueue := rest,
                        smp := { op := 2, inBase := a, outBase := b, count := s.count.getD 0 } } →
        step s = .next { t with held := runningFootprint t :: s.held })

/-- R29, R35, R46, R52, R59, R64, R72 in the order of R225: what `start` refuses. The order of the three
footprint refusals among themselves is the model's choice (log 9). -/
def Obligations.StartRefusals : Prop :=
  ∀ (s : State) (rest : List HostMove), s.hostQueue = .start :: rest →
    (s.op = none → s.busy = false → step s = .refused .operandNotWritten) ∧
    (∀ w, s.op = some w → (opReserved w ≠ 0 ∨ opcodeField w = 3) →
      step s = .refused .reservedOpcode) ∧
    ((∀ w, s.op = some w → w = 0 ∨ w = 1 ∨ w = 2) → s.busy = true →
      step s = .refused .startWhileBusy) ∧
    (s.busy = false → s.op = some 0 → s.inBase = none → step s = .refused .operandNotWritten) ∧
    (s.busy = false → s.op = some 1 → (s.inBase = none ∨ s.outBase = none ∨ s.count = none) →
      step s = .refused .operandNotWritten) ∧
    (s.busy = false → s.op = some 2 → (s.inBase = none ∨ s.outBase = none) →
      step s = .refused .operandNotWritten) ∧
    (∀ a, s.busy = false → s.op = some 0 → s.inBase = some a → a % 4 ≠ 0 →
      step s = .refused .misalignedBase) ∧
    (∀ a b c, s.busy = false → s.op = some 1 → s.inBase = some a → s.outBase = some b →
      s.count = some c → (a % 4 ≠ 0 ∨ b % 4 ≠ 0) → step s = .refused .misalignedBase) ∧
    (∀ a b, s.busy = false → s.op = some 2 → s.inBase = some a → s.outBase = some b →
      (a % 4 ≠ 0 ∨ b % 4 ≠ 0) → step s = .refused .misalignedBase) ∧
    (∀ a r, s.busy = false → s.op = some 0 → s.inBase = some a → a % 4 = 0 →
      footprintCheck s { reads := { base := a, len := 128 }, writes := noSpan } = some r →
      step s = .refused r) ∧
    (∀ a b c r, s.busy = false → s.op = some 1 → s.inBase = some a → s.outBase = some b →
      s.count = some c → a % 4 = 0 → b % 4 = 0 →
      footprintCheck s { reads := { base := a, len := 32 * c.toNat },
                         writes := { base := b, len := 32 * c.toNat } } = some r →
      step s = .refused r) ∧
    (∀ a b r, s.busy = false → s.op = some 2 → s.inBase = some a → s.outBase = some b →
      a % 4 = 0 → b % 4 = 0 →
      footprintCheck s { reads := { base := a, len := 8 }, writes := noSpan } = some r →
      step s = .refused r)

/-- R52, R59, R64: which refusal a footprint gets, and none when it is in order. That a wrap comes before
an absent byte and that before an overlap is the model's choice (log 9). -/
def Obligations.FootprintRefusals : Prop :=
  ∀ (s : State) (f : Footprint), s.mem.wf = true →
    (footprintCheck s f = some .footprintWraps ↔ ¬ footprintFits s f) ∧
    (footprintCheck s f = some .footprintOutsideMemory ↔ footprintFits s f ∧ ¬ footprintInside s f) ∧
    (footprintCheck s f = some .inputOutputOverlap ↔
      footprintFits s f ∧ footprintInside s f ∧ ¬ footprintApart f) ∧
    (footprintCheck s f = none ↔ footprintOk s f)

/-- A command, an unpacker or a texel write whose preconditions are broken is refused, whatever else the
state holds. R46, R52, R59 and R64 raise these refusals of a command at `start` or after its prefix; that
`exec` checks them again, and that a WRITE_GEOMETRY_TEXEL of its own checks its base and its bytes, is the
model's choice (log 8). -/
def Obligations.BrokenPreconditionsRefused : Prop :=
  ∀ (s : State) (r : Refusal) (n : Word) (o : Nat) (i : Word) (p : SplatRecord),
    (s.smp.inBase % 4 ≠ 0 → exec .validateHeader s = .refused .misalignedBase) ∧
    (s.smp.inBase % 4 ≠ 0 ∨ s.smp.outBase % 4 ≠ 0 →
      exec .decodePoints s = .refused .misalignedBase ∧
      exec .decodeBlock s = .refused .misalignedBase) ∧
    (o % 4 ≠ 0 → exec (.writeGeometryTexel o i p) s = .refused .misalignedBase) ∧
    (s.smp.inBase % 4 = 0 → footprintCheck s (headerFootprint s) = some r →
      exec .validateHeader s = .refused r) ∧
    (s.smp.inBase % 4 = 0 → s.smp.outBase % 4 = 0 →
      footprintCheck s (pointsFootprint s) = some r → exec .decodePoints s = .refused r) ∧
    (s.smp.inBase % 4 = 0 → s.smp.outBase % 4 = 0 →
      footprintCheck s (prefixFootprint s) = some r → exec .decodeBlock s = .refused r) ∧
    (footprintCheck s (blockFootprint s 20 32 n) = some r → exec (.splat20 n) s = .refused r) ∧
    (footprintCheck s (blockFootprint s 9 16 n) = some r → exec (.sh1 n) s = .refused r) ∧
    (footprintCheck s (blockFootprint s 24 16 n) = some r → exec (.sh12 n) s = .refused r) ∧
    (footprintCheck s (blockFootprint s 21 16 n) = some r → exec (.sh3 n) s = .refused r) ∧
    (o % 4 = 0 → footprintCheck s (texelFootprint o i) = some r →
      exec (.writeGeometryTexel o i p) s = .refused r)

/-- R29: a host write to a register does not affect the running command. -/
def Obligations.HostWriteDuringCommandIsNotSeen : Prop :=
  ∀ (s : State) (r : XReg) (v : Nat),
    coreStep (hostWrite r v s) = mapNext (hostWrite r v) (coreStep s)

/-- R35, R250, R252: reset completes in every state and leaves this, whatever ran before; an idle core's reset
touches no memory. That no footprint is held after it is the model's choice (log 15). -/
def Obligations.ResetClearsRegisters : Prop :=
  (∀ (s : State) (rest : List HostMove), s.hostQueue = .reset :: rest → ∃ t, step s = .next t ∧
    t.op = none ∧ t.inBase = none ∧ t.outBase = none ∧ t.count = none ∧ t.status = 0 ∧
      t.busy = false ∧ t.n = none ∧ t.tag = none ∧ t.index = none ∧ t.rs = none ∧
      t.half = none ∧ t.packed = none ∧ t.held = [] ∧ t.cfg = s.cfg ∧ t.mem.map = s.mem.map ∧
      (s.busy = false → t.mem = s.mem)) ∧
    (State.reset.op = none ∧ State.reset.inBase = none ∧ State.reset.outBase = none ∧
      State.reset.count = none ∧ State.reset.status = 0 ∧ State.reset.busy = false)

/-- R251: reset while a command runs abandons it, whatever its footprint: BUSY and STATUS are 0, each byte of
its write footprint holds a free value (in the form of log 7), and every other byte, the read footprint's
among them, is unchanged. That a byte which two footprints that are not in order share holds a free value
is the model's choice (log 10). -/
def Obligations.ResetAbandonsCommand : Prop :=
  ∀ (s : State) (rest : List HostMove), s.hostQueue = .reset :: rest → s.mem.wf = true →
    s.busy = true →
    ∃ t, step s = .next t ∧ t.busy = false ∧ t.status = 0 ∧
      sameOutside (runningFootprint s).writes s.mem t.mem ∧
      (∀ k < (runningFootprint s).writes.len,
        s.mem.has ((runningFootprint s).writes.base + k) = true →
        t.mem.byte ((runningFootprint s).writes.base + k) = Config.resetByte (s.draws + k)) ∧
      t.mem.map = s.mem.map ∧
      (footprintApart (runningFootprint s) →
        ∀ a, (runningFootprint s).reads.has a = true → t.mem.byte a = s.mem.byte a)

/-- R63 with D39 of 92_eei_decisions.md: until BUSY has been read as 0 another agent's store into the
footprint of a command, or load from its output, is refused, and a running command's footprint is among
those held. That any other store to an existing address, writable by the core or not, changes that byte
alone, and any other load nothing, is the model's form of the host's ownership (R36; logs 11, 14, 15). -/
def Obligations.HostAccessAndRunningFootprint : Prop :=
  ∀ (s : State) (rest : List HostMove) (a : Nat) (b : Byte),
    (StateInv s → s.busy = true → runningFootprint s ∈ s.held) ∧
    (∀ f ∈ s.held, s.hostQueue = .store a b :: rest →
      (f.reads.has a = true ∨ f.writes.has a = true) → step s = .refused .footprintTouched) ∧
    (∀ f ∈ s.held, s.hostQueue = .load a :: rest → f.writes.has a = true →
      step s = .refused .footprintTouched) ∧
    (s.hostQueue = .store a b :: rest → s.mem.wf = true → s.mem.has a = true →
      (∀ f ∈ s.held, f.reads.has a = false ∧ f.writes.has a = false) →
      ∃ t, step s = .next t ∧ t = { s with mem := t.mem, hostQueue := rest } ∧
        t.mem.map = s.mem.map ∧ ∀ x, t.mem.byte x = if x = a then b else s.mem.byte x) ∧
    (s.hostQueue = .load a :: rest → s.mem.has a = true →
      (∀ f ∈ s.held, f.writes.has a = false) → step s = .next { s with hostQueue := rest })

/-- R63 with D39 of 92_eei_decisions.md, in the form of log 15: `start` holds the footprint of its command;
a footprint is let go by reset or by a read of BUSY as 0, and by no other move; a read of BUSY changes
nothing else. -/
def Obligations.FootprintHeldUntilBusyIsRead : Prop :=
  (∀ s t : State, step s = .next t →
    (s.busy = false → t.busy = true → t.held = runningFootprint t :: s.held) ∧
    ∀ f ∈ s.held, f ∉ t.held → ∃ rest, s.hostQueue = .reset :: rest ∨
      (s.busy = false ∧ (s.hostQueue = .readBusy :: rest ∨ s.hostQueue = .await :: rest))) ∧
  ∀ (s : State) (rest : List HostMove), s.hostQueue = .readBusy :: rest →
    (s.busy = true → step s = .next { s with hostQueue := rest }) ∧
    (s.busy = false → step s = .next { s with hostQueue := rest, held := [] })

/-- R28 and R90 in the form of logs 8 and 11: a poll of BUSY lets a running command complete in one step and
reads BUSY as 0 in the next, and an idle core is left as it is but for the footprints held (log 15). -/
def Obligations.AwaitRunsCommand : Prop :=
  ∀ (s : State) (rest : List HostMove), s.hostQueue = .await :: rest →
    (s.busy = false → step s = .next { s with hostQueue := rest, held := [] }) ∧
    (∀ t, StateInv s → s.busy = true → coreStep s = .next t → ∃ u v, step s = .next u ∧
      step u = .next v ∧ v = { t with hostQueue := rest, held := [] })

/-! ## The whole machine -/

/-- The invariant holds right after reset. -/
def Obligations.ResetHasInvariant : Prop := StateInv State.reset

/-- Every step of every state keeps the invariant: memory canonical, registers within their widths, STATUS
0 or 1, no hidden state outside a command, and a running command is one `start` accepted. -/
def Obligations.StepKeepsInvariant : Prop :=
  ∀ s t : State, StateInv s → step s = .next t → StateInv t

/-- R24: no move of the core writes `x[0]` to `x[3]`; nor a parameter, the memory map, the footprints held or
the host's moves. -/
def Obligations.CoreNeverWritesOperandRegisters : Prop :=
  ∀ s t : State, coreStep s = .next t →
    t.op = s.op ∧ t.inBase = s.inBase ∧ t.outBase = s.outBase ∧ t.count = s.count ∧
      t.cfg = s.cfg ∧ t.mem.map = s.mem.map ∧ t.held = s.held ∧ t.hostQueue = s.hostQueue

/-- R36: every byte outside the write footprint of the running command is unchanged. -/
def Obligations.CoreWritesOnlyItsFootprint : Prop :=
  ∀ s t : State, StateInv s → coreStep s = .next t →
    (s.busy = false → t = s) ∧
      (s.busy = true → sameOutside (runningFootprint s).writes s.mem t.mem)

/-- R27, R28: STATUS changes only when a command completes or at reset, and BUSY is set only by `start`. -/
def Obligations.StatusAndBusyChangeOnlyAtTheirMoves : Prop :=
  ∀ s t : State, StateInv s → step s = .next t →
    (t.status ≠ s.status →
      (s.busy = true ∧ t.busy = false) ∨ ∃ rest, s.hostQueue = .reset :: rest) ∧
    (s.busy = false → t.busy = true → ∃ rest, s.hostQueue = .start :: rest)

/-- 20_memory.md section 6, the sentence "the two must agree": a command done whole and the same command
done point by point answer the same state, or the same refusal, and the per-point form takes at most a
constant number of steps beside one for each point (70_reset_and_hazards.md section 4). -/
def Obligations.PerPointAgreesWithAtomic : Prop :=
  ∀ s : State, StateInv s → s.busy = true →
    (∀ t, coreStep s = .next t → ∃ k ≤ pointBound s, perPointRun k s = .next t) ∧
    (∀ r, coreStep s = .refused r → ∃ k ≤ pointBound s, perPointRun k s = .refused r)

/-- 70_reset_and_hazards.md section 4, the termination sentence: a running command whose footprint is in
order completes after finitely many per-point steps, a bound that no data value changes but the point
count; one whose footprint is not in order is refused at once, or right after its prefix. -/
def Obligations.RunningCommandTerminates : Prop :=
  ∀ s : State, StateInv s → s.busy = true →
    (footprintOk s (runningFootprint s) →
      ∃ k ≤ pointBound s, ∃ t, perPointRun k s = .next t ∧ t.busy = false ∧
        (t.status = 0 ∨ t.status = 1)) ∧
    (¬ footprintOk s (runningFootprint s) → ∃ k ≤ 2, ∃ r, perPointRun k s = .refused r)

/-- R20: the status and the bytes a command writes depend on its operands, the bytes of its read
footprint, the parameters and the free values, and on nothing else. That the free values are numbered by
a counter, and both runs take the same number of them, is the model's form (log 7). -/
def Obligations.ResultDependsOnlyOnInputs : Prop :=
  ∀ s s' t : State, StateInv s → StateInv s' → s.busy = true → s'.busy = true → s'.smp = s.smp →
    s'.cfg = s.cfg → s'.draws = s.draws →
    (∀ a, (runningFootprint s).reads.has a = true → s'.mem.byte a = s.mem.byte a) →
    footprintOk s' (runningFootprint s) → coreStep s = .next t →
    ∃ t', coreStep s' = .next t' ∧ t'.status = t.status ∧ t'.draws = t.draws ∧
      ∀ a, (runningFootprint s).writes.has a = true → t'.mem.byte a = t.mem.byte a

/-- R49: run again with the same operands, at whatever number the free values then stand (log 7), a command
returns the same status and leaves every byte outside its output as it was. A geometry texel is the same
but for the sign bits of halves whose entry is a NaN (R135); and the whole output is the same if the
command draws the same NaN signs, or draws none: NAN_SIGN is fixed, or the command is VALIDATE_HEADER or a
block whose tag is not that of Splat20. -/
def Obligations.CommandIsIdempotent : Prop :=
  ∀ (s t : State) (k : Nat), StateInv s → s.busy = true → coreStep s = .next t →
    ∃ u, coreStep { t with busy := true, smp := s.smp, draws := k } = .next u ∧ u.status = t.status ∧
      sameOutside (runningFootprint s).writes t.mem u.mem ∧
      (s.smp.op = 1 → ∀ i < s.smp.count.toNat,
        sameButNaNSigns (genericRecord s.mem (s.smp.inBase + 32 * i)) (s.smp.outBase + 32 * i)
          t.mem u.mem) ∧
      (s.smp.op = 2 → s.mem.read32 (s.smp.inBase + 4) = 20 →
        ∀ i < (s.mem.read32 s.smp.inBase).toNat,
          sameButNaNSigns
            (splat20Record s.cfg s.mem s.smp.inBase (s.mem.read32 s.smp.inBase).toNat i)
            (s.smp.outBase + 32 * i) t.mem u.mem) ∧
      ((k = s.draws ∨ s.cfg.nanSign ≠ .draw ∨ s.smp.op = 0 ∨
          (s.smp.op = 2 ∧ s.mem.read32 (s.smp.inBase + 4) ≠ 20)) →
        ∀ a, u.mem.byte a = t.mem.byte a)

/-! ## Memory -/

/-- R44, with R43: a word stored is four bytes, the least significant first, reads back, and leaves every
other byte alone. -/
def Obligations.WordStoreIsLittleEndian : Prop :=
  ∀ (m : Memory) (a : Nat) (v : Word), m.wf = true → (∀ k < 4, m.has (a + k) = true) →
    (∀ k < 4, (m.write32 a v).byte (a + k) = v.extractLsb' (8 * k) 8) ∧
      (m.write32 a v).read32 a = v ∧ sameOutside { base := a, len := 4 } m (m.write32 a v)

/-- The canonical form: two memories in it with one map and the same bytes are the same data (the model's
choice of representation, log 6). -/
def Obligations.CanonicalMemoryIsUnique : Prop :=
  ∀ m m' : Memory, m.wf = true → m'.wf = true → m.map = m'.map → (∀ a, m.byte a = m'.byte a) →
    m = m'

/-! ## VALIDATE_HEADER -/

/-- R121, R122, R123: the status compares the rolling sum of bytes 0 to 123 with the word at 124, and
nothing but STATUS, BUSY and the hidden state of the command changes. -/
def Obligations.ValidateHeaderResult : Prop :=
  ∀ s : State, s.mem.wf = true → s.smp.inBase % 4 = 0 → footprintOk s (headerFootprint s) →
    ∃ rs : Word,
      rs = (s.mem.bytes s.smp.inBase 124).foldl (fun r b => r * 33 ^^^ b.setWidth 32) 53653 ∧
      exec .validateHeader s =
        .next (complete (if rs = s.mem.read32 (s.smp.inBase + 124) then 0 else 1) s)

/-- 41_header_validator.md, the derivation under "Sensitivity": two buffers that differ in exactly one byte
have different rolling sums. -/
def Obligations.RollingSumSeesEveryByte : Prop :=
  ∀ (bs : List Byte) (k : Nat) (h : k < bs.length) (b : Byte), b ≠ bs[k] →
    rollingSum (bs.set k b) ≠ rollingSum bs

/-- R125: after any single-bit flip in a header that validates, it does not validate. -/
def Obligations.HeaderBitFlipIsCaught : Prop :=
  ∀ (s t : State) (k j : Nat), s.mem.wf = true → s.smp.inBase % 4 = 0 →
    footprintOk s (headerFootprint s) → exec .validateHeader s = .next t → t.status = 0 →
    k < 128 → j < 8 →
    ∀ m, m = s.mem.setByte (s.smp.inBase + k) (s.mem.byte (s.smp.inBase + k) ^^^ (1#8 <<< j)) →
      ∃ u, exec .validateHeader { s with mem := m } = .next u ∧ u.status = 1

/-! ## DECODE_POINTS -/

/-- R171 to R173: record `i`, seven words and four biased bytes, gives texel `i` for every `i`, the command
completes with STATUS 0, and nothing else changes. Six free values a point, numbered from `draws`, is the
form of log 7. -/
def Obligations.DecodePointsResult : Prop :=
  ∀ s : State, s.mem.wf = true → s.smp.inBase % 4 = 0 → s.smp.outBase % 4 = 0 →
    footprintOk s (pointsFootprint s) →
    ∃ t, exec .decodePoints s = .next t ∧
      unpacked s t 32 s.smp.count.toNat
        (fun i => texelWords s.cfg (s.draws + 6 * i)
          { px := s.mem.read32 (s.smp.inBase + 32 * i)
            py := s.mem.read32 (s.smp.inBase + 32 * i + 4)
            pz := s.mem.read32 (s.smp.inBase + 32 * i + 8)
            sx := s.mem.read32 (s.smp.inBase + 32 * i + 12)
            sy := s.mem.read32 (s.smp.inBase + 32 * i + 16)
            sz := s.mem.read32 (s.smp.inBase + 32 * i + 20)
            rgba := s.mem.read32 (s.smp.inBase + 32 * i + 24)
            qx := quatComponent (s.mem.byte (s.smp.inBase + 32 * i + 28))
            qy := quatComponent (s.mem.byte (s.smp.inBase + 32 * i + 29))
            qz := quatComponent (s.mem.byte (s.smp.inBase + 32 * i + 30))
            qw := quatComponent (s.mem.byte (s.smp.inBase + 32 * i + 31)) })
        (6 * s.smp.count.toNat)

/-- R173: the position words and the colour word of a texel are bit-for-bit copies of record words 0, 1,
2 and 6; word 3 is 0 (R147). -/
def Obligations.DecodePointsCopiesPositionAndColour : Prop :=
  ∀ s : State, s.mem.wf = true → s.smp.inBase % 4 = 0 → s.smp.outBase % 4 = 0 →
    footprintOk s (pointsFootprint s) →
    ∃ t, exec .decodePoints s = .next t ∧ ∀ i < s.smp.count.toNat,
      t.mem.read32 (s.smp.outBase + 32 * i) = s.mem.read32 (s.smp.inBase + 32 * i) ∧
      t.mem.read32 (s.smp.outBase + 32 * i + 4) = s.mem.read32 (s.smp.inBase + 32 * i + 4) ∧
      t.mem.read32 (s.smp.outBase + 32 * i + 8) = s.mem.read32 (s.smp.inBase + 32 * i + 8) ∧
      t.mem.read32 (s.smp.outBase + 32 * i + 12) = 0 ∧
      t.mem.read32 (s.smp.outBase + 32 * i + 28) = s.mem.read32 (s.smp.inBase + 32 * i + 24)

/-! ## DECODE_BLOCK and the unpackers -/

/-- R162: an unsupported tag completes with STATUS_FAIL whatever N is, and writes nothing. -/
def Obligations.UnsupportedTagFails : Prop :=
  ∀ s : State, s.mem.wf = true → s.smp.inBase % 4 = 0 → s.smp.outBase % 4 = 0 →
    footprintOk s (prefixFootprint s) →
    s.mem.read32 (s.smp.inBase + 4) ≠ 20 → s.mem.read32 (s.smp.inBase + 4) ≠ 1 →
    s.mem.read32 (s.smp.inBase + 4) ≠ 2 → s.mem.read32 (s.smp.inBase + 4) ≠ 3 →
    exec .decodeBlock s = .next (complete 1 s)

/-- R161: the latched tag, all 32 bits of it, selects the unpacker, which gets the latched count and which
the payload footprint check may refuse; with that footprint in order a supported tag completes with 0;
every other tag completes with 1. -/
def Obligations.DecodeBlockDispatch : Prop :=
  ∀ (s l : State) (tag n : Word), s.mem.wf = true → s.smp.inBase % 4 = 0 → s.smp.outBase % 4 = 0 →
    footprintOk s (prefixFootprint s) →
    n = s.mem.read32 s.smp.inBase → tag = s.mem.read32 (s.smp.inBase + 4) →
    l = { s with n := some n, tag := some tag } →
    (tag = 20 → exec .decodeBlock s = exec (.splat20 n) l ∧
      (footprintOk s (blockFootprint s 20 32 n) →
        ∃ t, exec .decodeBlock s = .next t ∧ t.status = 0 ∧ t.busy = false)) ∧
    (tag = 1 → exec .decodeBlock s = exec (.sh1 n) l ∧
      (footprintOk s (blockFootprint s 9 16 n) →
        ∃ t, exec .decodeBlock s = .next t ∧ t.status = 0 ∧ t.busy = false)) ∧
    (tag = 2 → exec .decodeBlock s = exec (.sh12 n) l ∧
      (footprintOk s (blockFootprint s 24 16 n) →
        ∃ t, exec .decodeBlock s = .next t ∧ t.status = 0 ∧ t.busy = false)) ∧
    (tag = 3 → exec .decodeBlock s = exec (.sh3 n) l ∧
      (footprintOk s (blockFootprint s 21 16 n) →
        ∃ t, exec .decodeBlock s = .next t ∧ t.status = 0 ∧ t.busy = false)) ∧
    (tag ≠ 20 → tag ≠ 1 → tag ≠ 2 → tag ≠ 3 → exec .decodeBlock s = .next (complete 1 s))

/-- R181 to R188: point `i` of the fourteen planes gives texel `i` for every `i`, its scales by EXP (R185), and
nothing else changes but what completion changes and the number of free values taken, six a point from
`draws` on (log 7). -/
def Obligations.Splat20Result : Prop :=
  ∀ (s : State) (n : Word), s.mem.wf = true → footprintOk s (blockFootprint s 20 32 n) →
    ∃ t, exec (.splat20 n) s = .next t ∧
      unpacked s t 32 n.toNat
        (fun i => texelWords s.cfg (s.draws + 6 * i)
          { px := splatPosition (s.mem.read24 (s.smp.inBase + 8 + 3 * i))
            py := splatPosition (s.mem.read24 (s.smp.inBase + 8 + 3 * n.toNat + 3 * i))
            pz := splatPosition (s.mem.read24 (s.smp.inBase + 8 + 6 * n.toNat + 3 * i))
            sx := splatScale s.cfg (s.mem.byte (s.smp.inBase + 8 + 9 * n.toNat + i))
            sy := splatScale s.cfg (s.mem.byte (s.smp.inBase + 8 + 10 * n.toNat + i))
            sz := splatScale s.cfg (s.mem.byte (s.smp.inBase + 8 + 11 * n.toNat + i))
            rgba := packRgba (s.mem.byte (s.smp.inBase + 8 + 12 * n.toNat + i))
              (s.mem.byte (s.smp.inBase + 8 + 13 * n.toNat + i))
              (s.mem.byte (s.smp.inBase + 8 + 14 * n.toNat + i))
              (s.mem.byte (s.smp.inBase + 8 + 15 * n.toNat + i))
            qx := quatComponent (s.mem.byte (s.smp.inBase + 8 + 16 * n.toNat + i))
            qy := quatComponent (s.mem.byte (s.smp.inBase + 8 + 17 * n.toNat + i))
            qz := quatComponent (s.mem.byte (s.smp.inBase + 8 + 18 * n.toNat + i))
            qw := quatComponent (s.mem.byte (s.smp.inBase + 8 + 19 * n.toNat + i)) })
        (6 * n.toNat)

/-- R202 to R206: every point of SH1, SH12 and SH3 gives the four words of its 128-bit stream, and nothing
else changes. -/
def Obligations.SphericalHarmonicsResult : Prop :=
  ∀ (s : State) (n : Word), s.mem.wf = true →
    (footprintOk s (blockFootprint s 9 16 n) → ∃ t, exec (.sh1 n) s = .next t ∧
      unpacked s t 16 n.toNat
        (fun i => shWords (shPack (s.mem.bytes (s.smp.inBase + 8 + 9 * i) 9))) 0) ∧
    (footprintOk s (blockFootprint s 24 16 n) → ∃ t, exec (.sh12 n) s = .next t ∧
      unpacked s t 16 n.toNat
        (fun i => shWords (shPack (s.mem.bytes (s.smp.inBase + 8 + 24 * i) 24))) 0) ∧
    (footprintOk s (blockFootprint s 21 16 n) → ∃ t, exec (.sh3 n) s = .next t ∧
      unpacked s t 16 n.toNat
        (fun i => shWords (shPack (s.mem.bytes (s.smp.inBase + 8 + 21 * i) 21))) 0)

/-- R86, R201, R203: coefficient `j` is the top five bits of its byte at `V[127-5j : 123-5j]`, `V[0]` is
1, and every other bit is 0. The continuous stream and the one-bit trailer are the spec's own reading of
its source (D22, D23 of 92_eei_decisions.md). -/
def Obligations.CoefficientPlacement : Prop :=
  ∀ bs : List Byte, bs.length ≤ 24 →
    (∀ j (h : j < bs.length), (shPack bs).extractLsb' (123 - 5 * j) 5 = bs[j].extractLsb' 3 5) ∧
      (shPack bs).getLsbD 0 = true ∧
      ∀ p, 0 < p → p < 128 - 5 * bs.length → (shPack bs).getLsbD p = false

/-- R86: the words of a texel are four, and in their order, the first the most significant, they are the
128-bit stream. -/
def Obligations.HarmonicsWordsAreTheStream : Prop :=
  ∀ v : Wide, ∃ w0 w1 w2 w3 : Word, shWords v = [w0, w1, w2, w3] ∧
    v = (w0 ++ w1 ++ w2 ++ w3 : BitVec (32 + 32 + 32 + 32))

/-- R201: the low three bits of every input byte have no effect on the output. -/
def Obligations.LowCoefficientBitsAreDropped : Prop :=
  ∀ bs bs' : List Byte, bs.map (fun b : Byte => b >>> 3) = bs'.map (fun b : Byte => b >>> 3) →
    shPack bs = shPack bs'

/-- 45_splat20.md, R183 and R184: the position of a 24-bit pattern is exactly its two's-complement value
divided by 4096. -/
def Obligations.SplatPositionIsExact : Prop :=
  ∀ u : BitVec 24, f32Finite (splatPosition u) = true ∧
    f32Rat (splatPosition u) = (u.toInt : ℚ) / 4096 ∧ (u = 0 → splatPosition u = 0)

/-- R83: a quaternion byte decodes to exactly `(b - 128) / 128`. -/
def Obligations.QuaternionByteIsExact : Prop :=
  ∀ b : Byte, f32Finite (quatComponent b) = true ∧
    f32Rat (quatComponent b) = ((b.toNat : ℚ) - 128) / 128

/-- R82: R, G, B, A stand in bits 7:0, 15:8, 23:16 and 31:24 of the colour word. -/
def Obligations.ColourBytesInPlace : Prop :=
  ∀ r g b a : Byte, (packRgba r g b a).extractLsb' 0 8 = r ∧
    (packRgba r g b a).extractLsb' 8 8 = g ∧ (packRgba r g b a).extractLsb' 16 8 = b ∧
    (packRgba r g b a).extractLsb' 24 8 = a

/-- R186, the check values of the default EXP, and the exponents `c/16 - 10` of three of them (R185); all 256
patterns are finite and positive and grow with the code. -/
def Obligations.ScaleCheckValues : Prop :=
  scaleExponent 160 = 0 ∧ scaleExponent 176 = 1 ∧ scaleExponent 144 = -1 ∧
  splatScale defaultConfig 160 = 0x3F800000 ∧ splatScale defaultConfig 176 = 0x402DF854 ∧
    splatScale defaultConfig 144 = 0x3EBC5AB2 ∧ splatScale defaultConfig 0 = 0x383E6BCE ∧
    splatScale defaultConfig 255 = 0x43BD7E3E ∧
    (∀ c : Byte, f32Finite (splatScale defaultConfig c) = true ∧
      (splatScale defaultConfig c).msb = false ∧ splatScale defaultConfig c ≠ 0) ∧
    ∀ c : Byte, c ≠ 255 →
      (splatScale defaultConfig c).toNat < (splatScale defaultConfig (c + 1)).toNat

/-- R186 with R185: every one of the 256 patterns of the default EXP is the binary32 value nearest to the real
number `e^(c/16 - 10)`. -/
def Obligations.DefaultExpIsNearest : Prop :=
  ∀ c : Byte, roundsTo (Real.exp ((scaleExponent c : ℚ) : ℝ)) (splatScale defaultConfig c)

/-! ## FLOAT_TO_HALF and PACK_HALF2X16 -/

/-- R102 to R105: the sign is copied, and the exponent and mantissa of the half are those of the band of
the binary32 exponent; the instruction's half is that of the function which R107's and the later
statements speak of. That the result is left in the temporary `half`, and nothing else written, is the
model's choice (log 5). -/
def Obligations.FloatToHalfBands : Prop :=
  ∀ (s : State) (u : Word) (h : Half), h = floatToHalf s.cfg u →
    exec (.floatToHalf u) s = .next { s with half := some h } ∧ h.msb = u.msb ∧
    ((u.extractLsb' 23 8).toNat = 0 → (h.extractLsb' 10 5).toNat = 0 ∧
      (s.cfg.subnormal = .zero → (h.extractLsb' 0 10).toNat = 0) ∧
      (s.cfg.subnormal = .passTop10 → h.extractLsb' 0 10 = u.extractLsb' 13 10)) ∧
    (s.cfg.halfRound = .truncate → 1 ≤ (u.extractLsb' 23 8).toNat →
      (u.extractLsb' 23 8).toNat ≤ 112 → (h.extractLsb' 10 5).toNat = 0 ∧
      (h.extractLsb' 0 10).toNat =
        ((u.extractLsb' 0 23).toNat + 2 ^ 23) / 2 ^ (113 - (u.extractLsb' 23 8).toNat) / 2 ^ 13) ∧
    (s.cfg.halfRound = .truncate → 113 ≤ (u.extractLsb' 23 8).toNat →
      (u.extractLsb' 23 8).toNat ≤ 141 →
      (h.extractLsb' 10 5).toNat = (u.extractLsb' 23 8).toNat - 112 ∧
      h.extractLsb' 0 10 = u.extractLsb' 13 10) ∧
    (142 ≤ (u.extractLsb' 23 8).toNat → (h.extractLsb' 10 5).toNat = 31 ∧
      (h.extractLsb' 0 10).toNat = 0)

/-- R107: with HALF_ROUND `nearest_even` the 15 bits are the nearest to the significand at the scale of the
band, ties to even. -/
def Obligations.FloatToHalfNearestEven : Prop :=
  ∀ (cfg : Config) (u : Word), cfg.halfRound = .nearestEven →
    (1 ≤ (u.extractLsb' 23 8).toNat → (u.extractLsb' 23 8).toNat ≤ 112 →
      ∀ h k x : Nat, h = ((floatToHalf cfg u).extractLsb' 0 15).toNat →
        k = 126 - (u.extractLsb' 23 8).toNat → x = (u.extractLsb' 0 23).toNat + 2 ^ 23 →
        2 * h * 2 ^ k ≤ 2 * x + 2 ^ k ∧ 2 * x ≤ 2 * h * 2 ^ k + 2 ^ k ∧
          ((2 * h * 2 ^ k = 2 * x + 2 ^ k ∨ 2 * x = 2 * h * 2 ^ k + 2 ^ k) → h % 2 = 0)) ∧
    (113 ≤ (u.extractLsb' 23 8).toNat → (u.extractLsb' 23 8).toNat ≤ 141 →
      ∀ h x : Nat, h = ((floatToHalf cfg u).extractLsb' 0 15).toNat →
        x = ((u.extractLsb' 23 8).toNat - 112) * 2 ^ 23 + (u.extractLsb' 0 23).toNat →
        2 * h * 2 ^ 13 ≤ 2 * x + 2 ^ 13 ∧ 2 * x ≤ 2 * h * 2 ^ 13 + 2 ^ 13 ∧
          ((2 * h * 2 ^ 13 = 2 * x + 2 ^ 13 ∨ 2 * x = 2 * h * 2 ^ 13 + 2 ^ 13) → h % 2 = 0))

/-- 40_half_float.md section 1, the derivation at the end of its assembly rule: changing the sign of the
input changes the sign of the half and nothing else. -/
def Obligations.FloatToHalfSignSymmetry : Prop :=
  ∀ (cfg : Config) (u : Word), floatToHalf cfg (u ^^^ 0x80000000) = floatToHalf cfg u ^^^ 0x8000

/-- 95_test_vectors.md section 2, its last sentence: under the default rounding the low 15 bits of the half
do not decrease as the low 31 bits of the input grow. -/
def Obligations.FloatToHalfMonotone : Prop :=
  ∀ (cfg : Config) (u v : Word), cfg.halfRound = .truncate → cfg.subnormal = .zero →
    (u.extractLsb' 0 31).toNat ≤ (v.extractLsb' 0 31).toNat →
    ((floatToHalf cfg u).extractLsb' 0 15).toNat ≤ ((floatToHalf cfg v).extractLsb' 0 15).toNat

/-- 30_encoding.md section 4, the derivation on the half: under truncation no half has exponent 30, and
none is a NaN pattern. -/
def Obligations.HalfIsNeverNaN : Prop :=
  ∀ (cfg : Config) (u : Word), cfg.halfRound = .truncate →
    ((floatToHalf cfg u).extractLsb' 10 5).toNat ≠ 30 ∧
      (((floatToHalf cfg u).extractLsb' 10 5).toNat = 31 →
        ((floatToHalf cfg u).extractLsb' 0 10).toNat = 0)

/-- R88, R108: the first half in bits 15:0, the second in bits 31:16. That the result is left in the
temporary `packed`, and nothing else written, is the model's choice (log 5). -/
def Obligations.PackHalvesInPlace : Prop :=
  ∀ (s : State) (ux uy : Word), ∃ p : Word,
    exec (.packHalf2x16 ux uy) s = .next { s with packed := some p } ∧
      p.extractLsb' 0 16 = floatToHalf s.cfg ux ∧ p.extractLsb' 16 16 = floatToHalf s.cfg uy

/-! ## WRITE_GEOMETRY_TEXEL -/

/-- R140 to R148, every step spelled out in the nesting of the rules: the norm and the four divisions
(R141), the nine rotation entries (R142), the scaled rows (R143), the dot products (R144), the gain (R146)
and the eight words at `o + 32 i` (R147, R148); nothing else changes but the count of free values, one
for each entry from `draws` on (log 7). -/
def Obligations.WriteGeometryTexelResult : Prop :=
  ∀ (s : State) (o : Nat) (i : Word) (r : SplatRecord) (nrm X Y Z W : Word) (A M : Nat → Word)
    (dot : Nat → Nat → Word) (c : Nat → Word → Word), s.mem.wf = true → o % 4 = 0 →
    footprintOk s (texelFootprint o i) →
    nrm = fsqrt (fadd (fadd (fadd (fmul r.qx r.qx) (fmul r.qy r.qy)) (fmul r.qz r.qz))
      (fmul r.qw r.qw)) →
    X = fdiv r.qx nrm → Y = fdiv r.qy nrm → Z = fdiv r.qz nrm → W = fdiv r.qw nrm →
    A 0 = fsub 0x3F800000 (fmul 0x40000000 (fadd (fmul Y Y) (fmul Z Z))) →
    A 1 = fmul 0x40000000 (fadd (fmul X Y) (fmul W Z)) →
    A 2 = fmul 0x40000000 (fsub (fmul X Z) (fmul W Y)) →
    A 3 = fmul 0x40000000 (fsub (fmul X Y) (fmul W Z)) →
    A 4 = fsub 0x3F800000 (fmul 0x40000000 (fadd (fmul X X) (fmul Z Z))) →
    A 5 = fmul 0x40000000 (fadd (fmul Y Z) (fmul W X)) →
    A 6 = fmul 0x40000000 (fadd (fmul X Z) (fmul W Y)) →
    A 7 = fmul 0x40000000 (fsub (fmul Y Z) (fmul W X)) →
    A 8 = fsub 0x3F800000 (fmul 0x40000000 (fadd (fmul X X) (fmul Y Y))) →
    (∀ k < 3, M k = fmul (A k) r.sx ∧ M (k + 3) = fmul (A (k + 3)) r.sy ∧
      M (k + 6) = fmul (A (k + 6)) r.sz) →
    (∀ a b, dot a b = fadd (fadd (fmul (M a) (M b)) (fmul (M (a + 3)) (M (b + 3))))
      (fmul (M (a + 6)) (M (b + 6)))) →
    (∀ k e, c k e = f32Bits s.cfg.nanSign (s.draws + k) (fmul 0x40800000 e)) →
    ∃ t, exec (.writeGeometryTexel o i r) s = .next t ∧
      t = { s with mem := t.mem, draws := s.draws + 6 } ∧ t.mem.map = s.mem.map ∧
      wordsAt t.mem (o + 32 * i.toNat)
        [r.px, r.py, r.pz, 0,
          packHalf2x16 s.cfg (c 0 (dot 0 0)) (c 1 (dot 0 1)),
          packHalf2x16 s.cfg (c 2 (dot 0 2)) (c 3 (dot 1 1)),
          packHalf2x16 s.cfg (c 4 (dot 1 2)) (c 5 (dot 2 2)), r.rgba] ∧
      sameOutside { base := o + 32 * i.toNat, len := 32 } s.mem t.mem

/-- R150 (a), with R135: a quaternion of zeros of either sign gives six halves, all 0x7C00 with NAN_SIGN
positive, all 0xFC00 with negative, and with draw each by its own free sign bit; and the other words as
always. That half `j` takes the free value number `k + j` is the model's form
(log 7). -/
def Obligations.ZeroQuaternionTexel : Prop :=
  ∀ (cfg : Config) (k : Nat) (r : SplatRecord), (r.qx = 0 ∨ r.qx = 0x80000000) →
    (r.qy = 0 ∨ r.qy = 0x80000000) → (r.qz = 0 ∨ r.qz = 0x80000000) →
    (r.qw = 0 ∨ r.qw = 0x80000000) →
    ∃ h : Nat → Half,
      (cfg.nanSign = .positive → ∀ j < 6, h j = 0x7C00) ∧
      (cfg.nanSign = .negative → ∀ j < 6, h j = 0xFC00) ∧
      (cfg.nanSign = .draw → ∀ j < 6, h j = if Config.nanDraw (k + j) = 1 then 0xFC00 else 0x7C00) ∧
      texelWords cfg k r =
        [r.px, r.py, r.pz, 0, (h 1 ++ h 0 : BitVec (16 + 16)), (h 3 ++ h 2 : BitVec (16 + 16)),
          (h 5 ++ h 4 : BitVec (16 + 16)), r.rgba]

/-- 42_covariance_encoder.md section 2, the derivation on the diagonal of Sigma: its entries are never
negative and never -0, unless NaN. -/
def Obligations.CovarianceDiagonalIsNotNegative : Prop :=
  ∀ r : SplatRecord, ∀ e ∈ [(sigma r).e0, (sigma r).e3, (sigma r).e5],
    f32IsNaN e = true ∨ e.msb = false

/-- 42_covariance_encoder.md section 2, the derivation in corner case (d), which speaks of Sigma: a scale and
its negative give the same texel with the same free values. That a NaN entry draws the same sign on both
sides is the model's form (log 7): both take the free values from number `k` on. -/
def Obligations.NegativeScaleGivesSameTexel : Prop :=
  ∀ (cfg : Config) (k : Nat) (r : SplatRecord),
    texelWords cfg k { r with sx := r.sx ^^^ 0x80000000 } = texelWords cfg k r ∧
      texelWords cfg k { r with sy := r.sy ^^^ 0x80000000 } = texelWords cfg k r ∧
      texelWords cfg k { r with sz := r.sz ^^^ 0x80000000 } = texelWords cfg k r

/-- R151: the two worked examples. -/
def Obligations.IdentityRotationTexels : Prop :=
  texelWords defaultConfig 0
      { px := 0, py := 0, pz := 0, sx := 0x3F800000, sy := 0x3F800000, sz := 0x3F800000,
        qx := 0, qy := 0, qz := 0, qw := 0x3F800000, rgba := 0xFF0000FF } =
      [0, 0, 0, 0, 0x00004400, 0x44000000, 0x44000000, 0xFF0000FF] ∧
    texelWords defaultConfig 0
      { px := 0x3F800000, py := 0x40000000, pz := 0x40400000,
        sx := 0x3F800000, sy := 0x40000000, sz := 0x40400000,
        qx := 0, qy := 0, qz := 0, qw := 0x3F800000, rgba := 0x11223344 } =
      [0x3F800000, 0x40000000, 0x40400000, 0, 0x00004400, 0x4C000000, 0x50800000, 0x11223344]

/-! ## binary32 arithmetic -/

/-- R131: fadd and fsub of finite operands are the exact result rounded once; an exact zero is -0 only as
the sum of two negative zeros. -/
def Obligations.AdditionIsCorrectlyRounded : Prop :=
  ∀ a b : Word, f32Finite a = true → f32Finite b = true →
    roundsTo ((f32Rat a : ℝ) + f32Rat b) (fadd a b) ∧
      roundsTo ((f32Rat a : ℝ) - f32Rat b) (fsub a b) ∧
      (f32Rat a + f32Rat b = 0 → fadd a b = if a.msb && b.msb then 0x80000000 else 0) ∧
      (f32Rat a - f32Rat b = 0 → fsub a b = if a.msb && !b.msb then 0x80000000 else 0)

/-- R131: fmul of finite operands is the exact product rounded once; a zero product has the exclusive-or
of the signs. -/
def Obligations.MultiplicationIsCorrectlyRounded : Prop :=
  ∀ a b : Word, f32Finite a = true → f32Finite b = true →
    roundsTo ((f32Rat a : ℝ) * f32Rat b) (fmul a b) ∧
      (f32Rat a * f32Rat b = 0 → fmul a b = if a.msb ^^ b.msb then 0x80000000 else 0)

/-- R131: fdiv of finite operands, the divisor not zero, is the exact quotient rounded once; a zero
quotient has the exclusive-or of the signs. -/
def Obligations.DivisionIsCorrectlyRounded : Prop :=
  ∀ a b : Word, f32Finite a = true → f32Finite b = true → f32Rat b ≠ 0 →
    roundsTo ((f32Rat a : ℝ) / f32Rat b) (fdiv a b) ∧
      (f32Rat a = 0 → fdiv a b = if a.msb ^^ b.msb then 0x80000000 else 0)

/-- R131: fsqrt of a finite operand that is not negative is the exact root rounded once, and the root of
plus infinity is plus infinity. -/
def Obligations.SquareRootIsCorrectlyRounded : Prop :=
  (∀ a : Word, f32Finite a = true → 0 ≤ f32Rat a →
    roundsTo (Real.sqrt (f32Rat a : ℝ)) (fsqrt a)) ∧
    fsqrt (f32Inf false) = f32Inf false

/-- R131: which operations give a NaN, the infinities of a division by zero, the roots of the two zeros,
and, as IEEE 754 prescribes, what an infinite operand gives. -/
def Obligations.SpecialOperands : Prop :=
  (∀ a b : Word, f32IsNaN a = true ∨ f32IsNaN b = true →
      f32IsNaN (fadd a b) = true ∧ f32IsNaN (fsub a b) = true ∧ f32IsNaN (fmul a b) = true ∧
        f32IsNaN (fdiv a b) = true) ∧
    (∀ a : Word, f32IsNaN a = true → f32IsNaN (fsqrt a) = true) ∧
    (∀ a z : Word, f32IsNaN a = false → a ≠ 0 → a ≠ 0x80000000 →
      (z = 0 ∨ z = 0x80000000) → fdiv a z = f32Inf (a.msb ^^ z.msb)) ∧
    (∀ a z : Word, (a = 0 ∨ a = 0x80000000) → (z = 0 ∨ z = 0x80000000) →
      f32IsNaN (fdiv a z) = true) ∧
    (∀ n n' : Bool, f32IsNaN (fdiv (f32Inf n) (f32Inf n')) = true ∧
      f32IsNaN (fsub (f32Inf n) (f32Inf n)) = true ∧
      f32IsNaN (fadd (f32Inf n) (f32Inf !n)) = true ∧
      f32IsNaN (fmul (f32SignBit n) (f32Inf n')) = true ∧
      f32IsNaN (fmul (f32Inf n) (f32SignBit n')) = true) ∧
    (∀ a : Word, f32IsNaN a = false → a.msb = true → a ≠ 0x80000000 → f32IsNaN (fsqrt a) = true) ∧
    fsqrt 0 = 0 ∧ fsqrt 0x80000000 = 0x80000000 ∧ fsqrt (f32Inf false) = f32Inf false ∧
    (∀ n : Bool, fadd (f32Inf n) (f32Inf n) = f32Inf n ∧ fsub (f32Inf n) (f32Inf !n) = f32Inf n) ∧
    (∀ (n : Bool) (a : Word), f32Finite a = true →
      fadd (f32Inf n) a = f32Inf n ∧ fadd a (f32Inf n) = f32Inf n ∧
        fsub (f32Inf n) a = f32Inf n ∧ fsub a (f32Inf n) = f32Inf !n) ∧
    (∀ (n : Bool) (a : Word), f32IsNaN a = false → a ≠ 0 → a ≠ 0x80000000 →
      fmul (f32Inf n) a = f32Inf (n ^^ a.msb) ∧ fmul a (f32Inf n) = f32Inf (a.msb ^^ n)) ∧
    (∀ (n : Bool) (a : Word), f32Finite a = true →
      fdiv (f32Inf n) a = f32Inf (n ^^ a.msb) ∧ fdiv a (f32Inf n) = f32SignBit (a.msb ^^ n))

/-- 42_covariance_encoder.md section 1, the derivation on powers of two: the gain 4 is exact unless it
overflows. -/
def Obligations.GainIsExact : Prop :=
  ∀ v : Word, f32Finite v = true → |4 * f32Rat v| < 2 ^ 128 →
    f32Finite (fmul 0x40800000 v) = true ∧ f32Rat (fmul 0x40800000 v) = 4 * f32Rat v
end

