-- ==== Sys2Proof/Laws/Float.lean ====
section
/-! SUPPORT. What rounding does, said once (42_covariance_encoder.md R131): the pattern `f32Round` answers is
the nearest one, ties to even, of the exact number, and also of a number that a sticky bit stands for. -/

namespace Sys2Proof.Machine

/-! ## Patterns as multiples of 2^-149 -/

/-- The value of a magnitude pattern in units of 2^-149. -/
def f32Ulps (p : Nat) : Nat :=
  if p / 2 ^ 23 = 0 then p % 2 ^ 23 else (p % 2 ^ 23 + 2 ^ 23) * 2 ^ (p / 2 ^ 23 - 1)

/-- Consecutive patterns differ by one unit of their binade. -/
theorem f32Ulps_succ (p : Nat) : f32Ulps (p + 1) = f32Ulps p + 2 ^ (p / 2 ^ 23 - 1) := by
  unfold f32Ulps
  have hd := Nat.div_add_mod p (2 ^ 23)
  have hl := Nat.mod_lt p (show 0 < 2 ^ 23 by norm_num)
  generalize hE : p / 2 ^ 23 = E at *
  generalize hF : p % 2 ^ 23 = F at *
  by_cases hc : F + 1 < 2 ^ 23
  · have h1 : (p + 1) / 2 ^ 23 = E := by omega
    have h2 : (p + 1) % 2 ^ 23 = F + 1 := by omega
    rw [h1, h2]
    split
    · rename_i h; subst h; simp
    · ring
  · have h1 : (p + 1) / 2 ^ 23 = E + 1 := by omega
    have h2 : (p + 1) % 2 ^ 23 = 0 := by omega
    rw [h1, h2, if_neg (by omega), Nat.add_sub_cancel]
    have hF' : F = 2 ^ 23 - 1 := by omega
    rcases E with _ | E
    · simp [hF']
    · rw [if_neg (by omega), hF', Nat.add_sub_cancel, pow_succ]; ring

theorem f32Ulps_mono {p y : Nat} (h : p ≤ y) : f32Ulps p ≤ f32Ulps y := by
  induction y, h using Nat.le_induction with
  | base => exact le_rfl
  | succ y _ ih => rw [f32Ulps_succ]; exact ih.trans (Nat.le_add_right _ _)

/-- A significand `s` at exponent `k`, carry included. -/
theorem f32Ulps_significand {k s : Nat} (hs : s ≤ 2 ^ 24) (hk : 0 < k → 2 ^ 23 ≤ s) :
    f32Ulps (k * 2 ^ 23 + s) = s * 2 ^ k := by
  unfold f32Ulps
  rcases Nat.lt_or_ge s (2 ^ 23) with h | h
  · have : k = 0 := by by_contra hne; have := hk (by omega); omega
    subst this
    simp only [Nat.zero_mul, Nat.zero_add]
    rw [if_pos (by omega)]; omega
  · rcases Nat.lt_or_ge s (2 ^ 24) with h' | h'
    · have h1 : (k * 2 ^ 23 + s) / 2 ^ 23 = k + 1 := by omega
      have h2 : (k * 2 ^ 23 + s) % 2 ^ 23 = s - 2 ^ 23 := by omega
      rw [h1, h2, if_neg (by omega), Nat.add_sub_cancel, Nat.sub_add_cancel h]
    · have h1 : (k * 2 ^ 23 + s) / 2 ^ 23 = k + 2 := by omega
      have h2 : (k * 2 ^ 23 + s) % 2 ^ 23 = 0 := by omega
      have h3 : s = 2 ^ 24 := by omega
      rw [h1, h2, if_neg (by omega), h3, show k + 2 - 1 = k + 1 by omega, pow_succ]; ring

/-- The magnitude pattern without its sign. -/
def f32Magnitude (u : Word) : Nat := f32Exp u * 2 ^ 23 + f32Frac u

theorem f32Frac_lt (u : Word) : f32Frac u < 2 ^ 23 := (u.extractLsb' 0 23).isLt

theorem f32Exp_lt (u : Word) : f32Exp u < 2 ^ 8 := (u.extractLsb' 23 8).isLt

/-- A finite pattern is its magnitude in units of 2^-149, with its sign. -/
theorem f32Rat_finite {u : Word} (h : f32Finite u = true) :
    f32Rat u = (if u.msb then -1 else 1) * (f32Ulps (f32Magnitude u) : ℚ) * (2 : ℚ) ^ (-149 : ℤ) := by
  have h1 := f32Frac_lt u
  have hE : f32Magnitude u / 2 ^ 23 = f32Exp u := by unfold f32Magnitude; omega
  have hF : f32Magnitude u % 2 ^ 23 = f32Frac u := by unfold f32Magnitude; omega
  have hne : f32Exp u ≠ 255 := by simpa [f32Finite] using h
  rw [f32Rat, f32Unpack, if_neg hne, f32Ulps, hE, hF]
  by_cases h0 : f32Exp u = 0
  · simp only [if_pos h0, f32Sign]
  · simp only [if_neg h0, f32Sign]
    push_cast
    have : (f32Exp u : ℤ) - 150 = ((f32Exp u - 1 : ℕ) : ℤ) + (-149) := by
      have : 1 ≤ f32Exp u := Nat.one_le_iff_ne_zero.mpr h0
      push_cast [Nat.cast_sub this]; ring
    rw [this, zpow_add₀ (by norm_num), zpow_natCast]
    ring

/-- The fields of a magnitude pattern. -/
theorem f32_ofNat {p : Nat} (h : p < 2 ^ 31) :
    f32Exp (BitVec.ofNat 32 p) = p / 2 ^ 23 ∧ f32Frac (BitVec.ofNat 32 p) = p % 2 ^ 23 ∧
      (BitVec.ofNat 32 p).msb = false := by
  refine ⟨?_, ?_, ?_⟩
  · simp only [f32Exp, BitVec.extractLsb'_toNat, BitVec.toNat_ofNat, Nat.shiftRight_eq_div_pow]
    omega
  · simp only [f32Frac, BitVec.extractLsb'_toNat, BitVec.toNat_ofNat, Nat.shiftRight_eq_div_pow]
    omega
  · rw [BitVec.msb_eq_decide, BitVec.toNat_ofNat]
    simp only [decide_eq_false_iff_not, not_le]
    omega

theorem f32Magnitude_ofNat {p : Nat} (h : p < 2 ^ 31) : f32Magnitude (BitVec.ofNat 32 p) = p := by
  obtain ⟨h1, h2, -⟩ := f32_ofNat h
  rw [f32Magnitude, h1, h2]
  omega

/-! ## The nearest pattern -/

/-- `s` at exponent `k` is nearest to `x` in units of 2^-149, ties to even, with the quantum rule: at an
exponent above the lowest, `x` has all 24 bits. -/
structure F32Near (x : ℝ) (k s : Nat) : Prop where
  err : |(s : ℝ) * 2 ^ k - x| ≤ 2 ^ k / 2
  tie : |(s : ℝ) * 2 ^ k - x| = 2 ^ k / 2 → s % 2 = 0
  big : 0 < k → (2 : ℝ) ^ 23 * 2 ^ k ≤ x
  small : s ≤ 2 ^ 24

theorem F32Near_normal {x : ℝ} {k s : Nat} (h : F32Near x k s) (hk : 0 < k) : 2 ^ 23 ≤ s := by
  by_contra hs
  have h1 : (s : ℝ) + 1 ≤ 2 ^ 23 := by exact_mod_cast Nat.lt_of_not_le hs
  have h2 := h.big hk
  have h3 := (abs_le.mp h.err).1
  have hp : (0 : ℝ) < 2 ^ k := by positivity
  nlinarith

/-- No other magnitude is nearer, and one as near makes `s` even. -/
theorem F32Near_best {x : ℝ} {k s : Nat} (h : F32Near x k s) (y : Nat) :
    |(s : ℝ) * 2 ^ k - x| ≤ |(f32Ulps y : ℝ) - x| ∧
      (|(f32Ulps y : ℝ) - x| = |(s : ℝ) * 2 ^ k - x| → f32Ulps y = s * 2 ^ k ∨ s % 2 = 0) := by
  have hn := F32Near_normal h
  have hv := f32Ulps_significand h.small hn
  have hp : (0 : ℝ) < 2 ^ k := by positivity
  have herr := abs_le.mp h.err
  -- a magnitude at least one unit away
  have far : ∀ d : ℝ, 2 ^ k ≤ |d - s * 2 ^ k| → |(s : ℝ) * 2 ^ k - x| ≤ |d - x| ∧
      (|d - x| = |(s : ℝ) * 2 ^ k - x| → s % 2 = 0) := by
    intro d hd
    have tri : |d - s * 2 ^ k| ≤ |d - x| + |(s : ℝ) * 2 ^ k - x| := by
      rw [abs_sub_comm ((s : ℝ) * 2 ^ k) x]; exact abs_sub_le _ _ _
    have := h.err
    exact ⟨by linarith, fun he => h.tie (by linarith)⟩
  rcases Nat.lt_trichotomy y (k * 2 ^ 23 + s) with hy | hy | hy
  · -- below
    obtain ⟨p, hp1⟩ : ∃ p, k * 2 ^ 23 + s = p + 1 := ⟨k * 2 ^ 23 + s - 1, by omega⟩
    have hm : f32Ulps y ≤ f32Ulps p := f32Ulps_mono (by omega)
    have hs := f32Ulps_succ p
    rw [← hp1, hv] at hs
    by_cases hx : 0 < k ∧ s = 2 ^ 23
    · have hb := h.big hx.1
      have hlt : f32Ulps y < s * 2 ^ k := by
        have : 0 < 2 ^ (p / 2 ^ 23 - 1) := by positivity
        omega
      have hlt' : (f32Ulps y : ℝ) < s * 2 ^ k := by exact_mod_cast hlt
      rw [hx.2] at hlt' ⊢
      push_cast at hlt' ⊢
      rw [abs_of_nonpos (by linarith), abs_of_nonpos (by linarith)]
      exact ⟨by linarith, fun he => by linarith⟩
    · have hg : 2 ^ k ≤ 2 ^ (p / 2 ^ 23 - 1) := by
        refine Nat.pow_le_pow_right (by norm_num) ?_
        rcases Nat.eq_zero_or_pos k with h0 | h0
        · omega
        · have := hn h0
          have : s ≠ 2 ^ 23 := fun he => hx ⟨h0, he⟩
          omega
      have h1 : f32Ulps y + 2 ^ k ≤ s * 2 ^ k := by omega
      have h2 : (f32Ulps y : ℝ) + 2 ^ k ≤ s * 2 ^ k := by exact_mod_cast h1
      obtain ⟨a, b⟩ := far (f32Ulps y) (by rw [abs_of_nonpos (by linarith)]; linarith)
      exact ⟨a, fun he => .inr (b he)⟩
  · rw [hy, hv]
    push_cast
    exact ⟨le_rfl, fun _ => .inl rfl⟩
  · -- above
    have hm : f32Ulps (k * 2 ^ 23 + s + 1) ≤ f32Ulps y := f32Ulps_mono (by omega)
    rw [f32Ulps_succ, hv] at hm
    have hg : 2 ^ k ≤ 2 ^ ((k * 2 ^ 23 + s) / 2 ^ 23 - 1) := by
      refine Nat.pow_le_pow_right (by norm_num) ?_
      rcases Nat.eq_zero_or_pos k with h0 | h0
      · omega
      · have := hn h0
        omega
    have h1 : s * 2 ^ k + 2 ^ k ≤ f32Ulps y := by omega
    have h2 : (s : ℝ) * 2 ^ k + 2 ^ k ≤ f32Ulps y := by exact_mod_cast h1
    obtain ⟨a, b⟩ := far (f32Ulps y) (by rw [abs_of_nonneg (by linarith)]; linarith)
    exact ⟨a, fun he => .inr (b he)⟩

/-! ## Signs -/

theorem f32Neg_fields (u : Word) : f32Exp (f32Neg u) = f32Exp u ∧ f32Frac (f32Neg u) = f32Frac u ∧
    (f32Neg u).msb = !u.msb := by
  refine ⟨?_, ?_, ?_⟩
  · rw [f32Exp, f32Neg, BitVec.extractLsb'_xor, show (0x80000000 : Word).extractLsb' 23 8 = 0#8 by decide,
      BitVec.xor_zero, f32Exp]
  · rw [f32Frac, f32Neg, BitVec.extractLsb'_xor, show (0x80000000 : Word).extractLsb' 0 23 = 0#23 by decide,
      BitVec.xor_zero, f32Frac]
  · rw [f32Neg, BitVec.msb_xor, show (0x80000000 : Word).msb = true by decide, Bool.xor_true]

@[simp] theorem f32Neg_neg (u : Word) : f32Neg (f32Neg u) = u := by
  rw [f32Neg, f32Neg, BitVec.xor_assoc, BitVec.xor_self, BitVec.xor_zero]

@[simp] theorem f32Neg_finite (u : Word) : f32Finite (f32Neg u) = f32Finite u := by
  rw [f32Finite, (f32Neg_fields u).1, f32Finite]

/-- The number of a pattern with its sign changed. -/
theorem f32Rat_neg {u : Word} (h : f32Finite u = true) : f32Rat (f32Neg u) = -f32Rat u := by
  obtain ⟨h1, h2, h3⟩ := f32Neg_fields u
  rw [f32Rat_finite h, f32Rat_finite (by simpa using h), f32Magnitude, h1, h2, h3, f32Magnitude]
  cases u.msb <;> simp

/-- Rounding commutes with the sign. -/
theorem roundsTo_neg {x : ℝ} {r : Word} (h : roundsTo x r) : roundsTo (-x) (f32Neg r) := by
  obtain ⟨h1, h2, h3⟩ := h
  obtain ⟨e1, e2, e3⟩ := f32Neg_fields r
  refine ⟨fun hx => ?_, fun hx => ?_, ?_⟩
  · rw [e3, h2 (by linarith)]; rfl
  · rw [e3, h1 (by linarith)]; rfl
  · rw [abs_neg]
    rcases h3 with ⟨ha, hb⟩ | ⟨ha, hb, hc⟩
    · left
      refine ⟨ha, ?_⟩
      rw [f32Unpack] at hb ⊢
      rw [e1, e2, e3, f32Sign, e3]
      rw [f32Sign] at hb
      split at hb
      · split at hb
        · rename_i x y; rw [if_pos x, if_pos y]
        · cases hb
      · split at hb <;> cases hb
    · right
      refine ⟨ha, by simpa using hb, fun y hy => ?_⟩
      obtain ⟨a, b⟩ := hc (f32Neg y) (by simpa using hy)
      have hf : ∀ u v : ℚ, |((-u : ℚ) : ℝ) - -x| = |(u : ℝ) - x| := by
        intro u _
        rw [← abs_neg]; congr 1; push_cast; ring
      have hy' : f32Rat y = -f32Rat (f32Neg y) := by rw [f32Rat_neg hy, neg_neg]
      rw [hy', f32Rat_neg hb, hf _ 0, hf _ 0, e2]
      exact ⟨a, fun he => (b he).imp (fun q => by rw [q]) id⟩

/-- A number near which `s` at exponent `k` stands rounds to that pattern, or overflows. -/
theorem roundsTo_of_near {x : ℝ} {k s : Nat} (hx : 0 ≤ x) (h : F32Near (x * 2 ^ 149) k s) :
    roundsTo x (if 255 * 2 ^ 23 ≤ k * 2 ^ 23 + s then f32Inf false
      else BitVec.ofNat 32 (k * 2 ^ 23 + s)) := by
  have hn := F32Near_normal h
  have herr := abs_le.mp h.err
  have hs := h.small
  have h149 : (0 : ℝ) < 2 ^ 149 := by positivity
  obtain ⟨T, hT⟩ : ∃ T : ℝ, T = 2 ^ 252 := ⟨_, rfl⟩
  have hTpos : 0 < T := by rw [hT]; positivity
  have h253 : (2 : ℝ) ^ 253 = 2 * T := by rw [hT]; exact pow_succ' 2 252
  have h254 : (2 : ℝ) ^ 254 = 4 * T := by
    rw [hT, show (4 : ℝ) = 2 ^ 2 by norm_num]; exact pow_add 2 2 252
  have hcut : (2 : ℝ) ^ 128 - 2 ^ 103 = (2 ^ 25 * T - T) / 2 ^ 149 := by
    rw [eq_div_iff h149.ne', hT, sub_mul, ← pow_add, ← pow_add, ← pow_add]
  have hpow : ∀ a b : Nat, a ≤ b → (2 : ℝ) ^ a ≤ 2 ^ b := fun a b hab =>
    pow_le_pow_right₀ (by norm_num) hab
  by_cases hp : 255 * 2 ^ 23 ≤ k * 2 ^ 23 + s
  · rw [if_pos hp]
    refine ⟨fun _ => by decide, fun hx' => absurd hx' (not_lt.mpr hx), .inl ⟨?_, by decide⟩⟩
    rw [abs_of_nonneg hx, hcut, div_le_iff₀ h149]
    rcases Nat.lt_or_ge k 254 with hk | hk
    · have hk' : k = 253 := by omega
      have hs' : s = 2 ^ 24 := by omega
      subst hk' hs'
      have h1 : ((2 ^ 24 : ℕ) : ℝ) = 2 ^ 24 := by norm_num
      rw [h253, h1] at herr
      linarith
    · have h1 := h.big (by omega)
      have h2 := hpow 254 k hk
      rw [h254] at h2
      linarith [mul_le_mul_of_nonneg_left h2 (show (0 : ℝ) ≤ 2 ^ 23 by positivity)]
  · rw [if_neg hp]
    have hlt : k * 2 ^ 23 + s < 2 ^ 31 := by omega
    obtain ⟨f1, f2, f3⟩ := f32_ofNat hlt
    have hfin : f32Finite (BitVec.ofNat 32 (k * 2 ^ 23 + s)) = true := by
      rw [f32Finite, f1]
      simp only [bne_iff_ne, ne_eq]
      omega
    have hrat : (f32Rat (BitVec.ofNat 32 (k * 2 ^ 23 + s)) : ℝ) * 2 ^ 149 = s * 2 ^ k := by
      rw [f32Rat_finite hfin, f3, f32Magnitude_ofNat hlt, f32Ulps_significand hs hn]
      rw [if_neg (by decide)]
      push_cast
      rw [one_mul, mul_assoc, ← zpow_natCast (2 : ℝ) 149, ← zpow_add₀ (by norm_num)]
      norm_num
    refine ⟨fun _ => f3, fun hx' => absurd hx' (not_lt.mpr hx), .inr ⟨?_, hfin, fun y hy => ?_⟩⟩
    · rw [abs_of_nonneg hx, hcut, lt_div_iff₀ h149]
      rcases Nat.lt_or_ge k 253 with hk | hk
      · have h1 := hpow k 252 (by omega)
        rw [← hT] at h1
        have h2 : (s : ℝ) ≤ 2 ^ 24 := by exact_mod_cast hs
        have h4 : (0 : ℝ) < 2 ^ k := by positivity
        have h5 : (s : ℝ) * 2 ^ k ≤ 2 ^ 24 * 2 ^ k := by nlinarith
        nlinarith
      · have hk' : k = 253 := by omega
        subst hk'
        rcases Nat.lt_or_ge s (2 ^ 24 - 1) with hs' | hs'
        · have h2 : (s : ℝ) + 2 ≤ 2 ^ 24 := by exact_mod_cast (show s + 2 ≤ 2 ^ 24 by omega)
          rw [h253] at herr
          nlinarith
        · have hs'' : s = 2 ^ 24 - 1 := by omega
          have hne : |(s : ℝ) * 2 ^ 253 - x * 2 ^ 149| ≠ 2 ^ 253 / 2 := fun he => by
            have := h.tie he; omega
          have h2 := lt_of_le_of_ne h.err hne
          have h3 := (abs_lt.mp h2).1
          have hs3 : (s : ℝ) = 2 ^ 24 - 1 := by rw [hs'']; norm_num
          rw [hs3, h253] at h3
          linarith
    · have hyr : (f32Rat y : ℝ) * 2 ^ 149 = (if y.msb then -1 else 1) * (f32Ulps (f32Magnitude y) : ℝ) := by
        have : ((2 : ℝ) ^ (-149 : ℤ)) * 2 ^ 149 = 1 := by
          rw [← zpow_natCast (2 : ℝ) 149, ← zpow_add₀ (by norm_num)]
          norm_num
        rw [f32Rat_finite hy]
        push_cast
        rw [mul_assoc, this, mul_one]
        cases y.msb <;> simp
      have scale : ∀ a : ℝ, |a - x| = |a * 2 ^ 149 - x * 2 ^ 149| / 2 ^ 149 := by
        intro a
        rw [← sub_mul, abs_mul, abs_of_pos h149]
        field_simp
      obtain ⟨b1, b2⟩ := F32Near_best h (f32Magnitude y)
      have hX : 0 ≤ x * 2 ^ 149 := by positivity
      have hU : (0 : ℝ) ≤ f32Ulps (f32Magnitude y) := by positivity
      have hr0 : f32Frac (BitVec.ofNat 32 (k * 2 ^ 23 + s)) % 2 = s % 2 := by rw [f2]; omega
      rw [scale, scale, hrat, hyr, hr0]
      cases hm : y.msb
      · simp only [Bool.false_eq_true, if_false, one_mul]
        refine ⟨div_le_div_of_nonneg_right b1 h149.le, fun he => ?_⟩
        rw [div_left_inj' h149.ne'] at he
        refine (b2 he).imp (fun q => ?_) id
        have : (f32Rat y : ℝ) * 2 ^ 149 = (f32Rat (BitVec.ofNat 32 (k * 2 ^ 23 + s)) : ℝ) * 2 ^ 149 := by
          rw [hyr, hrat, hm]
          simp only [Bool.false_eq_true, if_false, one_mul]
          exact_mod_cast q
        exact_mod_cast mul_right_cancel₀ h149.ne' this
      · simp only [if_true, neg_one_mul]
        have hge : |(f32Ulps (f32Magnitude y) : ℝ) - x * 2 ^ 149| ≤
            |-(f32Ulps (f32Magnitude y) : ℝ) - x * 2 ^ 149| := by
          rw [abs_of_nonpos (show -(f32Ulps (f32Magnitude y) : ℝ) - x * 2 ^ 149 ≤ 0 by linarith)]
          exact abs_le.mpr ⟨by linarith, by linarith⟩
        refine ⟨div_le_div_of_nonneg_right (b1.trans hge) h149.le, fun he => ?_⟩
        rw [div_left_inj' h149.ne'] at he
        have he1 : |(f32Ulps (f32Magnitude y) : ℝ) - x * 2 ^ 149| = |(s : ℝ) * 2 ^ k - x * 2 ^ 149| :=
          le_antisymm (hge.trans he.le) b1
        rcases b2 he1 with q | q
        · -- the same magnitude on the other side of zero is as near only at zero or at `x = 0`
          have hz : f32Ulps (f32Magnitude y) = 0 ∨ x = 0 := by
            by_contra hcon
            rw [not_or] at hcon
            have hup : (0 : ℝ) < f32Ulps (f32Magnitude y) := by
              exact_mod_cast Nat.pos_of_ne_zero hcon.1
            have hxp : 0 < x * 2 ^ 149 := by
              have := lt_of_le_of_ne hx (Ne.symm hcon.2)
              positivity
            have : |(f32Ulps (f32Magnitude y) : ℝ) - x * 2 ^ 149| <
                |-(f32Ulps (f32Magnitude y) : ℝ) - x * 2 ^ 149| := by
              rw [abs_of_nonpos (show -(f32Ulps (f32Magnitude y) : ℝ) - x * 2 ^ 149 ≤ 0 by linarith)]
              exact abs_lt.mpr ⟨by linarith, by linarith⟩
            linarith
          rcases hz with hz | hz
          · left
            have : (f32Rat y : ℝ) * 2 ^ 149 = (f32Rat (BitVec.ofNat 32 (k * 2 ^ 23 + s)) : ℝ) * 2 ^ 149 := by
              rw [hyr, hrat, hm, hz]
              have : (s : ℝ) * 2 ^ k = 0 := by exact_mod_cast (q.symm.trans hz)
              rw [this]; simp
            exact_mod_cast mul_right_cancel₀ h149.ne' this
          · right
            have hk0 : k = 0 := by
              by_contra hne
              have := h.big (by omega)
              rw [hz, zero_mul] at this
              have : (0 : ℝ) < 2 ^ 23 * 2 ^ k := by positivity
              linarith
            subst hk0
            rw [hz] at herr
            have : (s : ℝ) ≤ 1 / 2 := by
              have := herr.2
              simp at this
              linarith
            have : s = 0 := by
              by_contra hne
              have : (1 : ℝ) ≤ s := by exact_mod_cast Nat.one_le_iff_ne_zero.mpr hne
              linarith
            rw [this]
        · exact .inr q

/-! ## f32Round -/

/-- `roundShift` is the nearest integer to `a / 2^k`, ties to even. -/
theorem roundShift_near (a k : Nat) : 2 * a ≤ 2 * (roundShift a k * 2 ^ k) + 2 ^ k ∧
    2 * (roundShift a k * 2 ^ k) ≤ 2 * a + 2 ^ k ∧
    ((2 * a = 2 * (roundShift a k * 2 ^ k) + 2 ^ k ∨ 2 * (roundShift a k * 2 ^ k) = 2 * a + 2 ^ k) →
      roundShift a k % 2 = 0) := by
  have hd := Nat.div_add_mod a (2 ^ k)
  have hm := Nat.mod_lt a (show 0 < 2 ^ k by positivity)
  simp only [roundShift]
  generalize a / 2 ^ k = q at *
  generalize a % 2 ^ k = r at *
  generalize 2 ^ k = B at *
  have hc : B * q = q * B := Nat.mul_comm _ _
  split
  · rw [Nat.add_mul, Nat.one_mul]
    refine ⟨by omega, by omega, fun h => ?_⟩
    omega
  · refine ⟨by omega, by omega, fun h => ?_⟩
    omega

/-- The quantum in terms of the exponent of the leading bit. -/
theorem f32Quantum_nat (m : Nat) (e : Int) : ∃ k : Nat, f32Quantum m e = (k : Int) - 149 ∧
    (f32Quantum m e + 149).toNat = k := by
  refine ⟨(f32Quantum m e + 149).toNat, ?_, rfl⟩
  have : -149 ≤ f32Quantum m e := le_max_right _ _
  omega

theorem zpow_shift (m : ℝ) (e : Int) (k sh : Nat) (h : e + sh = (k : Int) - 149) :
    m * (2 : ℝ) ^ e * 2 ^ 149 = m * 2 ^ k / 2 ^ sh := by
  have he : e = (k : Int) - 149 - sh := by omega
  rw [he, zpow_sub₀ (by norm_num), zpow_sub₀ (by norm_num), zpow_natCast, zpow_natCast,
    show (2 : ℝ) ^ (149 : ℤ) = 2 ^ 149 from zpow_natCast 2 149]
  have : (2 : ℝ) ^ 149 ≠ 0 := by positivity
  have : (2 : ℝ) ^ sh ≠ 0 := by positivity
  generalize (2 : ℝ) ^ 149 = A at *
  field_simp

theorem roundShift_small {m sh : Nat} (h : m < 2 ^ 24 * 2 ^ sh) : roundShift m sh ≤ 2 ^ 24 := by
  have : m / 2 ^ sh < 2 ^ 24 := Nat.div_lt_of_lt_mul (by rwa [Nat.mul_comm] at h)
  simp only [roundShift]
  split <;> omega

/-- The significand `f32Round` takes is near the exact number. -/
theorem f32Significand_near {m : Nat} (e : Int) (hm : m ≠ 0) :
    F32Near ((m : ℝ) * 2 ^ e * 2 ^ 149) (f32Quantum m e + 149).toNat (f32Significand m e) := by
  obtain ⟨k, hq, hk⟩ := f32Quantum_nat m e
  rw [hk]
  have hL1 := Nat.log2_self_le hm
  have hL2 := Nat.lt_log2_self (n := m)
  have hqle : (Nat.log2 m : Int) + e - 23 ≤ f32Quantum m e := le_max_left _ _
  have hqeq : 0 < k → f32Quantum m e = (Nat.log2 m : Int) + e - 23 := by
    intro h
    unfold f32Quantum at hq ⊢
    omega
  have hbig : 0 < k → (2 : ℝ) ^ 23 * 2 ^ k ≤ (m : ℝ) * 2 ^ e * 2 ^ 149 := by
    intro h
    have h1 : ((2 ^ Nat.log2 m : ℕ) : ℝ) ≤ m := by exact_mod_cast hL1
    have h2 : (2 : ℝ) ^ 23 * 2 ^ k = ((2 ^ Nat.log2 m : ℕ) : ℝ) * 2 ^ e * 2 ^ 149 := by
      push_cast
      rw [← zpow_natCast (2 : ℝ) 23, ← zpow_natCast (2 : ℝ) k, ← zpow_natCast (2 : ℝ) (Nat.log2 m),
        ← zpow_natCast (2 : ℝ) 149, ← zpow_add₀ (by norm_num), ← zpow_add₀ (by norm_num),
        ← zpow_add₀ (by norm_num)]
      congr 1
      have := hqeq h
      push_cast
      omega
    rw [h2]
    have : (0 : ℝ) < 2 ^ e := by positivity
    gcongr
  unfold f32Significand
  simp only
  split
  · rename_i hle
    obtain ⟨d, hd⟩ : ∃ d : Nat, e = f32Quantum m e + d := ⟨(e - f32Quantum m e).toNat, by omega⟩
    have hdn : (e - f32Quantum m e).toNat = d := by omega
    rw [hdn]
    have hval : ((m * 2 ^ d : ℕ) : ℝ) * 2 ^ k = (m : ℝ) * 2 ^ e * 2 ^ 149 := by
      push_cast
      rw [mul_assoc, mul_assoc, ← pow_add, ← zpow_natCast (2 : ℝ) (d + k), ← zpow_natCast (2 : ℝ) 149,
        ← zpow_add₀ (by norm_num)]
      congr 2
      push_cast
      omega
    refine ⟨?_, ?_, hbig, ?_⟩
    · rw [hval, sub_self, abs_zero]; positivity
    · rw [hval, sub_self, abs_zero]
      intro h
      have : (0 : ℝ) < 2 ^ k / 2 := by positivity
      linarith
    · have hd2 : d + Nat.log2 m ≤ 23 := by omega
      have h1 : m * 2 ^ d < 2 ^ (Nat.log2 m + 1) * 2 ^ d := Nat.mul_lt_mul_of_pos_right hL2 (by positivity)
      rw [← pow_add] at h1
      have h2 : 2 ^ (Nat.log2 m + 1 + d) ≤ 2 ^ 24 := Nat.pow_le_pow_right (by norm_num) (by omega)
      exact h1.le.trans h2
  · rename_i hlt
    obtain ⟨sh, hsh⟩ : ∃ sh : Nat, f32Quantum m e = e + sh := ⟨(f32Quantum m e - e).toNat, by omega⟩
    have hshn : (f32Quantum m e - e).toNat = sh := by omega
    rw [hshn]
    obtain ⟨r1, r2, r3⟩ := roundShift_near m sh
    have hval := zpow_shift (m : ℝ) e k sh (by omega)
    have hB : (0 : ℝ) < 2 ^ sh := by positivity
    have hK : (0 : ℝ) < 2 ^ k := by positivity
    have r1' : 2 * (m : ℝ) ≤ 2 * (roundShift m sh * 2 ^ sh) + 2 ^ sh := by exact_mod_cast r1
    have r2' : 2 * ((roundShift m sh : ℝ) * 2 ^ sh) ≤ 2 * m + 2 ^ sh := by exact_mod_cast r2
    have hdiff : (roundShift m sh : ℝ) * 2 ^ k - (m : ℝ) * 2 ^ e * 2 ^ 149 =
        ((roundShift m sh : ℝ) * 2 ^ sh - m) * (2 ^ k / 2 ^ sh) := by
      rw [hval]; field_simp
    have hhalf : (2 : ℝ) ^ k / 2 = 2 ^ sh / 2 * (2 ^ k / 2 ^ sh) := by field_simp
    refine ⟨?_, ?_, hbig, roundShift_small ?_⟩
    · rw [hdiff, abs_mul, abs_of_pos (show (0 : ℝ) < 2 ^ k / 2 ^ sh by positivity), hhalf]
      refine mul_le_mul_of_nonneg_right (abs_le.mpr ⟨by linarith, by linarith⟩) (by positivity)
    · rw [hdiff, abs_mul, abs_of_pos (show (0 : ℝ) < 2 ^ k / 2 ^ sh by positivity), hhalf]
      intro h
      have h' := mul_right_cancel₀ (show (2 : ℝ) ^ k / 2 ^ sh ≠ 0 by positivity) h
      refine r3 ?_
      rcases abs_cases ((roundShift m sh : ℝ) * 2 ^ sh - m) with ⟨ha, -⟩ | ⟨ha, -⟩
      · right
        rw [ha] at h'
        have : 2 * ((roundShift m sh : ℝ) * 2 ^ sh) = 2 * m + 2 ^ sh := by linarith
        exact_mod_cast this
      · left
        rw [ha] at h'
        have : 2 * (m : ℝ) = 2 * (roundShift m sh * 2 ^ sh) + 2 ^ sh := by linarith
        exact_mod_cast this
    · have h1 : 2 ^ (Nat.log2 m + 1) ≤ 2 ^ (24 + sh) := Nat.pow_le_pow_right (by norm_num) (by omega)
      rw [pow_add 2 24 sh] at h1
      exact hL2.trans_le h1

/-- The same for a number strictly between `m - 1` and `m + 1` units, where `m` is odd and long enough:
an odd `m` is a sticky bit. -/
theorem f32Significand_near_sticky {m : Nat} {e : Int} {x : ℝ} (hm : 2 ^ 25 ≤ m) (ho : m % 2 = 1)
    (h1 : ((m : ℝ) - 1) * 2 ^ e < x) (h2 : x < ((m : ℝ) + 1) * 2 ^ e) :
    F32Near (x * 2 ^ 149) (f32Quantum m e + 149).toNat (f32Significand m e) := by
  obtain ⟨k, hq, hk⟩ := f32Quantum_nat m e
  rw [hk]
  have hm0 : m ≠ 0 := by omega
  have hL1 := Nat.log2_self_le hm0
  have hL2 := Nat.lt_log2_self (n := m)
  have hL3 : 25 ≤ Nat.log2 m := (Nat.le_log2 hm0).mpr hm
  have hqle : (Nat.log2 m : Int) + e - 23 ≤ f32Quantum m e := le_max_left _ _
  have hqeq : 0 < k → f32Quantum m e = (Nat.log2 m : Int) + e - 23 := by
    intro h
    unfold f32Quantum at hq ⊢
    omega
  have heven : 2 ^ Nat.log2 m % 2 = 0 := by
    obtain ⟨j, hj⟩ : ∃ j, Nat.log2 m = j + 1 := ⟨Nat.log2 m - 1, by omega⟩
    rw [hj, pow_succ]; omega
  have hbig : 0 < k → (2 : ℝ) ^ 23 * 2 ^ k ≤ x * 2 ^ 149 := by
    intro h
    have h3 : ((2 ^ Nat.log2 m : ℕ) : ℝ) + 1 ≤ m := by exact_mod_cast (show 2 ^ Nat.log2 m + 1 ≤ m by omega)
    have h4 : (2 : ℝ) ^ 23 * 2 ^ k = ((2 ^ Nat.log2 m : ℕ) : ℝ) * 2 ^ e * 2 ^ 149 := by
      push_cast
      rw [← zpow_natCast (2 : ℝ) 23, ← zpow_natCast (2 : ℝ) k, ← zpow_natCast (2 : ℝ) (Nat.log2 m),
        ← zpow_natCast (2 : ℝ) 149, ← zpow_add₀ (by norm_num), ← zpow_add₀ (by norm_num),
        ← zpow_add₀ (by norm_num)]
      congr 1
      have := hqeq h
      push_cast
      omega
    rw [h4]
    have he : (0 : ℝ) < 2 ^ e := by positivity
    refine mul_le_mul_of_nonneg_right (le_trans ?_ h1.le) (by positivity)
    refine mul_le_mul_of_nonneg_right ?_ he.le
    linarith
  unfold f32Significand
  simp only
  rw [if_neg (by omega)]
  obtain ⟨sh, hsh⟩ : ∃ sh : Nat, f32Quantum m e = e + sh := ⟨(f32Quantum m e - e).toNat, by omega⟩
  have hshn : (f32Quantum m e - e).toNat = sh := by omega
  rw [hshn]
  obtain ⟨r1, r2, -⟩ := roundShift_near m sh
  have hB : (0 : ℝ) < 2 ^ sh := by positivity
  have hK : (0 : ℝ) < 2 ^ k := by positivity
  -- the half-way points are even, so `m` is not one
  obtain ⟨j, hj⟩ : ∃ j, sh = j + 2 := ⟨sh - 2, by omega⟩
  have hp : 2 ^ sh = 4 * 2 ^ j := by rw [hj, pow_add]; ring
  have hs4 : roundShift m sh * 2 ^ sh = 4 * (roundShift m sh * 2 ^ j) := by rw [hp]; ring
  have r1' : 2 * ((m : ℝ) + 1) ≤ 2 * (roundShift m sh * 2 ^ sh) + 2 ^ sh := by
    have : 2 * (m + 1) ≤ 2 * (roundShift m sh * 2 ^ sh) + 2 ^ sh := by
      rw [hs4, hp] at r1 ⊢; omega
    exact_mod_cast this
  have r2' : 2 * ((roundShift m sh : ℝ) * 2 ^ sh) ≤ 2 * (m - 1) + 2 ^ sh := by
    have : 2 * (roundShift m sh * 2 ^ sh) + 2 ≤ 2 * m + 2 ^ sh := by
      rw [hs4, hp] at r2 ⊢; omega
    have : 2 * ((roundShift m sh : ℝ) * 2 ^ sh) + 2 ≤ 2 * m + 2 ^ sh := by exact_mod_cast this
    linarith
  have hu : (2 : ℝ) ^ e * 2 ^ 149 = 2 ^ k / 2 ^ sh := by
    have := zpow_shift 1 e k sh (by omega)
    simpa using this
  have h149 : (0 : ℝ) < 2 ^ 149 := by positivity
  have hU : (0 : ℝ) < 2 ^ k / 2 ^ sh := by positivity
  have hx1 : ((m : ℝ) - 1) * (2 ^ k / 2 ^ sh) < x * 2 ^ 149 := by
    rw [← hu, ← mul_assoc]; exact mul_lt_mul_of_pos_right h1 h149
  have hx2 : x * 2 ^ 149 < ((m : ℝ) + 1) * (2 ^ k / 2 ^ sh) := by
    rw [← hu, ← mul_assoc]; exact mul_lt_mul_of_pos_right h2 h149
  have hS : (roundShift m sh : ℝ) * 2 ^ k = (roundShift m sh : ℝ) * 2 ^ sh * (2 ^ k / 2 ^ sh) := by
    field_simp
  have hhalf : (2 : ℝ) ^ k / 2 = 2 ^ sh / 2 * (2 ^ k / 2 ^ sh) := by field_simp
  have hlt : |(roundShift m sh : ℝ) * 2 ^ k - x * 2 ^ 149| < 2 ^ k / 2 := by
    rw [hS, hhalf]
    refine abs_lt.mpr ⟨?_, ?_⟩
    · have := mul_le_mul_of_nonneg_right r1' hU.le
      nlinarith
    · have := mul_le_mul_of_nonneg_right r2' hU.le
      nlinarith
  refine ⟨hlt.le, fun h => absurd h hlt.ne, hbig, roundShift_small ?_⟩
  have h3 : 2 ^ (Nat.log2 m + 1) ≤ 2 ^ (24 + sh) := Nat.pow_le_pow_right (by norm_num) (by omega)
  rw [pow_add 2 24 sh] at h3
  exact hL2.trans_le h3

/-- The sign of the argument is the sign of the result. -/
theorem f32Round_true (m : Nat) (e : Int) : f32Round true m e = f32Neg (f32Round false m e) := by
  unfold f32Round
  split
  · decide
  · simp only
    split
    · decide
    · rename_i h
      generalize (f32Quantum m e + 149).toNat * 2 ^ 23 + f32Significand m e = p at *
      have hm := (f32_ofNat (p := p) (by omega)).2.2
      simp only [f32SignBit, f32Neg, if_true, Bool.false_eq_true, if_false]
      rw [show ((0 : Word) ||| BitVec.ofNat 32 p) = BitVec.ofNat 32 p from BitVec.zero_or]
      refine BitVec.eq_of_getLsbD_eq fun i hi => ?_
      rw [BitVec.getLsbD_or, BitVec.getLsbD_xor]
      by_cases h31 : i = 31
      · subst h31
        rw [BitVec.msb_eq_getLsbD_last] at hm
        rw [hm]; decide
      · have : (0x80000000 : Word).getLsbD i = false := by
          have : ∀ j : Fin 32, j.val ≠ 31 → (0x80000000 : Word).getLsbD j.val = false := by decide
          exact this ⟨i, hi⟩ h31
        rw [this]; simp

theorem f32Round_eq {m : Nat} (e : Int) (hm : m ≠ 0) : f32Round false m e =
    if 255 * 2 ^ 23 ≤ (f32Quantum m e + 149).toNat * 2 ^ 23 + f32Significand m e then f32Inf false
    else BitVec.ofNat 32 ((f32Quantum m e + 149).toNat * 2 ^ 23 + f32Significand m e) := by
  simp only [f32Round, if_neg hm, f32SignBit, Bool.false_eq_true, if_false]
  congr 1
  exact BitVec.zero_or

/-- `f32Round` rounds the exact number once (R131). -/
theorem f32Round_roundsTo (neg : Bool) (m : Nat) (e : Int) :
    roundsTo ((if neg then -1 else 1) * ((m : ℝ) * 2 ^ e)) (f32Round neg m e) := by
  have key : roundsTo ((m : ℝ) * 2 ^ e) (f32Round false m e) := by
    rcases Nat.eq_zero_or_pos m with rfl | hm
    · have := roundsTo_of_near (x := 0) (k := 0) (s := 0) le_rfl ⟨by simp, by simp, by simp, by simp⟩
      simpa [f32Round, f32SignBit] using this
    · have := roundsTo_of_near (by positivity) (f32Significand_near e hm.ne')
      rwa [← f32Round_eq e hm.ne'] at this
  cases neg
  · simpa using key
  · rw [f32Round_true]
    have := roundsTo_neg key
    simpa using this

/-- `f32Round` of a sticky significand rounds the number it stands for (R131). -/
theorem f32Round_sticky {neg : Bool} {m : Nat} {e : Int} {x : ℝ} (hm : 2 ^ 25 ≤ m) (ho : m % 2 = 1)
    (h1 : ((m : ℝ) - 1) * 2 ^ e < x) (h2 : x < ((m : ℝ) + 1) * 2 ^ e) :
    roundsTo ((if neg then -1 else 1) * x) (f32Round neg m e) := by
  have hx : 0 ≤ x := by
    have : (1 : ℝ) ≤ m := by exact_mod_cast (show 1 ≤ m by omega)
    have he : (0 : ℝ) < 2 ^ e := by positivity
    nlinarith
  have key : roundsTo x (f32Round false m e) := by
    have := roundsTo_of_near hx (f32Significand_near_sticky hm ho h1 h2)
    rwa [← f32Round_eq e (by omega)] at this
  cases neg
  · simpa using key
  · rw [f32Round_true]
    have := roundsTo_neg key
    simpa using this

end Sys2Proof.Machine
end

