-- ==== Sys2Proof/Laws/State.lean ====
section
/-! SUPPORT. Each field of the state after each named update. -/

namespace Sys2Proof.Machine

/-! ## clearHidden -/

@[simp] theorem clearHidden_cfg (s : State) : (clearHidden s).cfg = s.cfg := rfl
@[simp] theorem clearHidden_op (s : State) : (clearHidden s).op = s.op := rfl
@[simp] theorem clearHidden_inBase (s : State) : (clearHidden s).inBase = s.inBase := rfl
@[simp] theorem clearHidden_outBase (s : State) : (clearHidden s).outBase = s.outBase := rfl
@[simp] theorem clearHidden_count (s : State) : (clearHidden s).count = s.count := rfl
@[simp] theorem clearHidden_status (s : State) : (clearHidden s).status = s.status := rfl
@[simp] theorem clearHidden_busy (s : State) : (clearHidden s).busy = s.busy := rfl
@[simp] theorem clearHidden_smp (s : State) : (clearHidden s).smp = noOperands := rfl
@[simp] theorem clearHidden_n (s : State) : (clearHidden s).n = none := rfl
@[simp] theorem clearHidden_tag (s : State) : (clearHidden s).tag = none := rfl
@[simp] theorem clearHidden_index (s : State) : (clearHidden s).index = none := rfl
@[simp] theorem clearHidden_rs (s : State) : (clearHidden s).rs = none := rfl
@[simp] theorem clearHidden_half (s : State) : (clearHidden s).half = none := rfl
@[simp] theorem clearHidden_packed (s : State) : (clearHidden s).packed = none := rfl
@[simp] theorem clearHidden_mem (s : State) : (clearHidden s).mem = s.mem := rfl
@[simp] theorem clearHidden_draws (s : State) : (clearHidden s).draws = s.draws := rfl
@[simp] theorem clearHidden_hostQueue (s : State) : (clearHidden s).hostQueue = s.hostQueue := rfl
@[simp] theorem clearHidden_held (s : State) : (clearHidden s).held = s.held := rfl

/-! ## complete -/

@[simp] theorem complete_cfg (st : Word) (s : State) : (complete st s).cfg = s.cfg := rfl
@[simp] theorem complete_op (st : Word) (s : State) : (complete st s).op = s.op := rfl
@[simp] theorem complete_inBase (st : Word) (s : State) : (complete st s).inBase = s.inBase := rfl
@[simp] theorem complete_outBase (st : Word) (s : State) : (complete st s).outBase = s.outBase := rfl
@[simp] theorem complete_count (st : Word) (s : State) : (complete st s).count = s.count := rfl
@[simp] theorem complete_status (st : Word) (s : State) : (complete st s).status = st := rfl
@[simp] theorem complete_busy (st : Word) (s : State) : (complete st s).busy = false := rfl
@[simp] theorem complete_smp (st : Word) (s : State) : (complete st s).smp = noOperands := rfl
@[simp] theorem complete_n (st : Word) (s : State) : (complete st s).n = none := rfl
@[simp] theorem complete_tag (st : Word) (s : State) : (complete st s).tag = none := rfl
@[simp] theorem complete_index (st : Word) (s : State) : (complete st s).index = none := rfl
@[simp] theorem complete_rs (st : Word) (s : State) : (complete st s).rs = none := rfl
@[simp] theorem complete_half (st : Word) (s : State) : (complete st s).half = none := rfl
@[simp] theorem complete_packed (st : Word) (s : State) : (complete st s).packed = none := rfl
@[simp] theorem complete_mem (st : Word) (s : State) : (complete st s).mem = s.mem := rfl
@[simp] theorem complete_draws (st : Word) (s : State) : (complete st s).draws = s.draws := rfl
@[simp] theorem complete_hostQueue (st : Word) (s : State) : (complete st s).hostQueue = s.hostQueue := rfl
@[simp] theorem complete_held (st : Word) (s : State) : (complete st s).held = s.held := rfl

/-! ## sample -/

@[simp] theorem sample_cfg (s : State) : (sample s).cfg = s.cfg := rfl
@[simp] theorem sample_op (s : State) : (sample s).op = s.op := rfl
@[simp] theorem sample_inBase (s : State) : (sample s).inBase = s.inBase := rfl
@[simp] theorem sample_outBase (s : State) : (sample s).outBase = s.outBase := rfl
@[simp] theorem sample_count (s : State) : (sample s).count = s.count := rfl
@[simp] theorem sample_status (s : State) : (sample s).status = s.status := rfl
@[simp] theorem sample_busy (s : State) : (sample s).busy = s.busy := rfl
@[simp] theorem sample_smp (s : State) : (sample s).smp = 
    { op := s.op.getD 0, inBase := s.inBase.getD 0, outBase := s.outBase.getD 0, count := s.count.getD 0 } := rfl
@[simp] theorem sample_n (s : State) : (sample s).n = s.n := rfl
@[simp] theorem sample_tag (s : State) : (sample s).tag = s.tag := rfl
@[simp] theorem sample_index (s : State) : (sample s).index = s.index := rfl
@[simp] theorem sample_rs (s : State) : (sample s).rs = s.rs := rfl
@[simp] theorem sample_half (s : State) : (sample s).half = s.half := rfl
@[simp] theorem sample_packed (s : State) : (sample s).packed = s.packed := rfl
@[simp] theorem sample_mem (s : State) : (sample s).mem = s.mem := rfl
@[simp] theorem sample_draws (s : State) : (sample s).draws = s.draws := rfl
@[simp] theorem sample_hostQueue (s : State) : (sample s).hostQueue = s.hostQueue := rfl
@[simp] theorem sample_held (s : State) : (sample s).held = s.held := rfl

/-! ## latchPrefix -/

@[simp] theorem latchPrefix_cfg (s : State) : (latchPrefix s).cfg = s.cfg := rfl
@[simp] theorem latchPrefix_op (s : State) : (latchPrefix s).op = s.op := rfl
@[simp] theorem latchPrefix_inBase (s : State) : (latchPrefix s).inBase = s.inBase := rfl
@[simp] theorem latchPrefix_outBase (s : State) : (latchPrefix s).outBase = s.outBase := rfl
@[simp] theorem latchPrefix_count (s : State) : (latchPrefix s).count = s.count := rfl
@[simp] theorem latchPrefix_status (s : State) : (latchPrefix s).status = s.status := rfl
@[simp] theorem latchPrefix_busy (s : State) : (latchPrefix s).busy = s.busy := rfl
@[simp] theorem latchPrefix_smp (s : State) : (latchPrefix s).smp = s.smp := rfl
@[simp] theorem latchPrefix_n (s : State) : (latchPrefix s).n = some (s.mem.read32 s.smp.inBase) := rfl
@[simp] theorem latchPrefix_tag (s : State) : (latchPrefix s).tag = some (s.mem.read32 (s.smp.inBase + 4)) := rfl
@[simp] theorem latchPrefix_index (s : State) : (latchPrefix s).index = s.index := rfl
@[simp] theorem latchPrefix_rs (s : State) : (latchPrefix s).rs = s.rs := rfl
@[simp] theorem latchPrefix_half (s : State) : (latchPrefix s).half = s.half := rfl
@[simp] theorem latchPrefix_packed (s : State) : (latchPrefix s).packed = s.packed := rfl
@[simp] theorem latchPrefix_mem (s : State) : (latchPrefix s).mem = s.mem := rfl
@[simp] theorem latchPrefix_draws (s : State) : (latchPrefix s).draws = s.draws := rfl
@[simp] theorem latchPrefix_hostQueue (s : State) : (latchPrefix s).hostQueue = s.hostQueue := rfl
@[simp] theorem latchPrefix_held (s : State) : (latchPrefix s).held = s.held := rfl

/-! ## beginIndex -/

@[simp] theorem beginIndex_cfg (s : State) : (beginIndex s).cfg = s.cfg := rfl
@[simp] theorem beginIndex_op (s : State) : (beginIndex s).op = s.op := rfl
@[simp] theorem beginIndex_inBase (s : State) : (beginIndex s).inBase = s.inBase := rfl
@[simp] theorem beginIndex_outBase (s : State) : (beginIndex s).outBase = s.outBase := rfl
@[simp] theorem beginIndex_count (s : State) : (beginIndex s).count = s.count := rfl
@[simp] theorem beginIndex_status (s : State) : (beginIndex s).status = s.status := rfl
@[simp] theorem beginIndex_busy (s : State) : (beginIndex s).busy = s.busy := rfl
@[simp] theorem beginIndex_smp (s : State) : (beginIndex s).smp = s.smp := rfl
@[simp] theorem beginIndex_n (s : State) : (beginIndex s).n = s.n := rfl
@[simp] theorem beginIndex_tag (s : State) : (beginIndex s).tag = s.tag := rfl
@[simp] theorem beginIndex_index (s : State) : (beginIndex s).index = some 0 := rfl
@[simp] theorem beginIndex_rs (s : State) : (beginIndex s).rs = s.rs := rfl
@[simp] theorem beginIndex_half (s : State) : (beginIndex s).half = s.half := rfl
@[simp] theorem beginIndex_packed (s : State) : (beginIndex s).packed = s.packed := rfl
@[simp] theorem beginIndex_mem (s : State) : (beginIndex s).mem = s.mem := rfl
@[simp] theorem beginIndex_draws (s : State) : (beginIndex s).draws = s.draws := rfl
@[simp] theorem beginIndex_hostQueue (s : State) : (beginIndex s).hostQueue = s.hostQueue := rfl
@[simp] theorem beginIndex_held (s : State) : (beginIndex s).held = s.held := rfl

/-! ## bumpIndex -/

@[simp] theorem bumpIndex_cfg (s : State) : (bumpIndex s).cfg = s.cfg := rfl
@[simp] theorem bumpIndex_op (s : State) : (bumpIndex s).op = s.op := rfl
@[simp] theorem bumpIndex_inBase (s : State) : (bumpIndex s).inBase = s.inBase := rfl
@[simp] theorem bumpIndex_outBase (s : State) : (bumpIndex s).outBase = s.outBase := rfl
@[simp] theorem bumpIndex_count (s : State) : (bumpIndex s).count = s.count := rfl
@[simp] theorem bumpIndex_status (s : State) : (bumpIndex s).status = s.status := rfl
@[simp] theorem bumpIndex_busy (s : State) : (bumpIndex s).busy = s.busy := rfl
@[simp] theorem bumpIndex_smp (s : State) : (bumpIndex s).smp = s.smp := rfl
@[simp] theorem bumpIndex_n (s : State) : (bumpIndex s).n = s.n := rfl
@[simp] theorem bumpIndex_tag (s : State) : (bumpIndex s).tag = s.tag := rfl
@[simp] theorem bumpIndex_index (s : State) : (bumpIndex s).index = s.index.map (· + 1) := rfl
@[simp] theorem bumpIndex_rs (s : State) : (bumpIndex s).rs = s.rs := rfl
@[simp] theorem bumpIndex_half (s : State) : (bumpIndex s).half = s.half := rfl
@[simp] theorem bumpIndex_packed (s : State) : (bumpIndex s).packed = s.packed := rfl
@[simp] theorem bumpIndex_mem (s : State) : (bumpIndex s).mem = s.mem := rfl
@[simp] theorem bumpIndex_draws (s : State) : (bumpIndex s).draws = s.draws := rfl
@[simp] theorem bumpIndex_hostQueue (s : State) : (bumpIndex s).hostQueue = s.hostQueue := rfl
@[simp] theorem bumpIndex_held (s : State) : (bumpIndex s).held = s.held := rfl

/-! ## putWords -/

@[simp] theorem putWords_cfg (a : Nat) (ws : List Word) (k : Nat) (s : State) : (putWords a ws k s).cfg = s.cfg := rfl
@[simp] theorem putWords_op (a : Nat) (ws : List Word) (k : Nat) (s : State) : (putWords a ws k s).op = s.op := rfl
@[simp] theorem putWords_inBase (a : Nat) (ws : List Word) (k : Nat) (s : State) : (putWords a ws k s).inBase = s.inBase := rfl
@[simp] theorem putWords_outBase (a : Nat) (ws : List Word) (k : Nat) (s : State) : (putWords a ws k s).outBase = s.outBase := rfl
@[simp] theorem putWords_count (a : Nat) (ws : List Word) (k : Nat) (s : State) : (putWords a ws k s).count = s.count := rfl
@[simp] theorem putWords_status (a : Nat) (ws : List Word) (k : Nat) (s : State) : (putWords a ws k s).status = s.status := rfl
@[simp] theorem putWords_busy (a : Nat) (ws : List Word) (k : Nat) (s : State) : (putWords a ws k s).busy = s.busy := rfl
@[simp] theorem putWords_smp (a : Nat) (ws : List Word) (k : Nat) (s : State) : (putWords a ws k s).smp = s.smp := rfl
@[simp] theorem putWords_n (a : Nat) (ws : List Word) (k : Nat) (s : State) : (putWords a ws k s).n = s.n := rfl
@[simp] theorem putWords_tag (a : Nat) (ws : List Word) (k : Nat) (s : State) : (putWords a ws k s).tag = s.tag := rfl
@[simp] theorem putWords_index (a : Nat) (ws : List Word) (k : Nat) (s : State) : (putWords a ws k s).index = s.index := rfl
@[simp] theorem putWords_rs (a : Nat) (ws : List Word) (k : Nat) (s : State) : (putWords a ws k s).rs = s.rs := rfl
@[simp] theorem putWords_half (a : Nat) (ws : List Word) (k : Nat) (s : State) : (putWords a ws k s).half = s.half := rfl
@[simp] theorem putWords_packed (a : Nat) (ws : List Word) (k : Nat) (s : State) : (putWords a ws k s).packed = s.packed := rfl
@[simp] theorem putWords_mem (a : Nat) (ws : List Word) (k : Nat) (s : State) : (putWords a ws k s).mem = s.mem.writeWords a ws := rfl
@[simp] theorem putWords_draws (a : Nat) (ws : List Word) (k : Nat) (s : State) : (putWords a ws k s).draws = s.draws + k := rfl
@[simp] theorem putWords_hostQueue (a : Nat) (ws : List Word) (k : Nat) (s : State) : (putWords a ws k s).hostQueue = s.hostQueue := rfl
@[simp] theorem putWords_held (a : Nat) (ws : List Word) (k : Nat) (s : State) : (putWords a ws k s).held = s.held := rfl

/-! ## writeTexel -/

@[simp] theorem writeTexel_cfg (o : Nat) (i : Word) (r : SplatRecord) (s : State) : (writeTexel o i r s).cfg = s.cfg := putWords_cfg _ _ _ s
@[simp] theorem writeTexel_op (o : Nat) (i : Word) (r : SplatRecord) (s : State) : (writeTexel o i r s).op = s.op := putWords_op _ _ _ s
@[simp] theorem writeTexel_inBase (o : Nat) (i : Word) (r : SplatRecord) (s : State) : (writeTexel o i r s).inBase = s.inBase := putWords_inBase _ _ _ s
@[simp] theorem writeTexel_outBase (o : Nat) (i : Word) (r : SplatRecord) (s : State) : (writeTexel o i r s).outBase = s.outBase := putWords_outBase _ _ _ s
@[simp] theorem writeTexel_count (o : Nat) (i : Word) (r : SplatRecord) (s : State) : (writeTexel o i r s).count = s.count := putWords_count _ _ _ s
@[simp] theorem writeTexel_status (o : Nat) (i : Word) (r : SplatRecord) (s : State) : (writeTexel o i r s).status = s.status := putWords_status _ _ _ s
@[simp] theorem writeTexel_busy (o : Nat) (i : Word) (r : SplatRecord) (s : State) : (writeTexel o i r s).busy = s.busy := putWords_busy _ _ _ s
@[simp] theorem writeTexel_smp (o : Nat) (i : Word) (r : SplatRecord) (s : State) : (writeTexel o i r s).smp = s.smp := putWords_smp _ _ _ s
@[simp] theorem writeTexel_n (o : Nat) (i : Word) (r : SplatRecord) (s : State) : (writeTexel o i r s).n = s.n := putWords_n _ _ _ s
@[simp] theorem writeTexel_tag (o : Nat) (i : Word) (r : SplatRecord) (s : State) : (writeTexel o i r s).tag = s.tag := putWords_tag _ _ _ s
@[simp] theorem writeTexel_index (o : Nat) (i : Word) (r : SplatRecord) (s : State) : (writeTexel o i r s).index = s.index := putWords_index _ _ _ s
@[simp] theorem writeTexel_rs (o : Nat) (i : Word) (r : SplatRecord) (s : State) : (writeTexel o i r s).rs = s.rs := putWords_rs _ _ _ s
@[simp] theorem writeTexel_half (o : Nat) (i : Word) (r : SplatRecord) (s : State) : (writeTexel o i r s).half = s.half := putWords_half _ _ _ s
@[simp] theorem writeTexel_packed (o : Nat) (i : Word) (r : SplatRecord) (s : State) : (writeTexel o i r s).packed = s.packed := putWords_packed _ _ _ s
@[simp] theorem writeTexel_mem (o : Nat) (i : Word) (r : SplatRecord) (s : State) : (writeTexel o i r s).mem = 
    s.mem.writeWords (geoTexelAddr o i.toNat) (texelWords s.cfg s.draws r) := putWords_mem _ _ _ s
@[simp] theorem writeTexel_draws (o : Nat) (i : Word) (r : SplatRecord) (s : State) : (writeTexel o i r s).draws = s.draws + texelDraws := putWords_draws _ _ _ s
@[simp] theorem writeTexel_hostQueue (o : Nat) (i : Word) (r : SplatRecord) (s : State) : (writeTexel o i r s).hostQueue = s.hostQueue := putWords_hostQueue _ _ _ s
@[simp] theorem writeTexel_held (o : Nat) (i : Word) (r : SplatRecord) (s : State) : (writeTexel o i r s).held = s.held := putWords_held _ _ _ s

/-! ## headerBegin -/

@[simp] theorem headerBegin_cfg (s : State) : (headerBegin s).cfg = s.cfg := rfl
@[simp] theorem headerBegin_op (s : State) : (headerBegin s).op = s.op := rfl
@[simp] theorem headerBegin_inBase (s : State) : (headerBegin s).inBase = s.inBase := rfl
@[simp] theorem headerBegin_outBase (s : State) : (headerBegin s).outBase = s.outBase := rfl
@[simp] theorem headerBegin_count (s : State) : (headerBegin s).count = s.count := rfl
@[simp] theorem headerBegin_status (s : State) : (headerBegin s).status = s.status := rfl
@[simp] theorem headerBegin_busy (s : State) : (headerBegin s).busy = s.busy := rfl
@[simp] theorem headerBegin_smp (s : State) : (headerBegin s).smp = s.smp := rfl
@[simp] theorem headerBegin_n (s : State) : (headerBegin s).n = s.n := rfl
@[simp] theorem headerBegin_tag (s : State) : (headerBegin s).tag = s.tag := rfl
@[simp] theorem headerBegin_index (s : State) : (headerBegin s).index = some 0 := rfl
@[simp] theorem headerBegin_rs (s : State) : (headerBegin s).rs = some constants.hashSeed := rfl
@[simp] theorem headerBegin_half (s : State) : (headerBegin s).half = s.half := rfl
@[simp] theorem headerBegin_packed (s : State) : (headerBegin s).packed = s.packed := rfl
@[simp] theorem headerBegin_mem (s : State) : (headerBegin s).mem = s.mem := rfl
@[simp] theorem headerBegin_draws (s : State) : (headerBegin s).draws = s.draws := rfl
@[simp] theorem headerBegin_hostQueue (s : State) : (headerBegin s).hostQueue = s.hostQueue := rfl
@[simp] theorem headerBegin_held (s : State) : (headerBegin s).held = s.held := rfl

/-! ## pointsBegin -/

@[simp] theorem pointsBegin_cfg (s : State) : (pointsBegin s).cfg = s.cfg := rfl
@[simp] theorem pointsBegin_op (s : State) : (pointsBegin s).op = s.op := rfl
@[simp] theorem pointsBegin_inBase (s : State) : (pointsBegin s).inBase = s.inBase := rfl
@[simp] theorem pointsBegin_outBase (s : State) : (pointsBegin s).outBase = s.outBase := rfl
@[simp] theorem pointsBegin_count (s : State) : (pointsBegin s).count = s.count := rfl
@[simp] theorem pointsBegin_status (s : State) : (pointsBegin s).status = s.status := rfl
@[simp] theorem pointsBegin_busy (s : State) : (pointsBegin s).busy = s.busy := rfl
@[simp] theorem pointsBegin_smp (s : State) : (pointsBegin s).smp = s.smp := rfl
@[simp] theorem pointsBegin_n (s : State) : (pointsBegin s).n = some s.smp.count := rfl
@[simp] theorem pointsBegin_tag (s : State) : (pointsBegin s).tag = s.tag := rfl
@[simp] theorem pointsBegin_index (s : State) : (pointsBegin s).index = some 0 := rfl
@[simp] theorem pointsBegin_rs (s : State) : (pointsBegin s).rs = s.rs := rfl
@[simp] theorem pointsBegin_half (s : State) : (pointsBegin s).half = s.half := rfl
@[simp] theorem pointsBegin_packed (s : State) : (pointsBegin s).packed = s.packed := rfl
@[simp] theorem pointsBegin_mem (s : State) : (pointsBegin s).mem = s.mem := rfl
@[simp] theorem pointsBegin_draws (s : State) : (pointsBegin s).draws = s.draws := rfl
@[simp] theorem pointsBegin_hostQueue (s : State) : (pointsBegin s).hostQueue = s.hostQueue := rfl
@[simp] theorem pointsBegin_held (s : State) : (pointsBegin s).held = s.held := rfl

/-! ## resetRegisters -/

@[simp] theorem resetRegisters_cfg (s : State) : (resetRegisters s).cfg = s.cfg := rfl
@[simp] theorem resetRegisters_op (s : State) : (resetRegisters s).op = none := rfl
@[simp] theorem resetRegisters_inBase (s : State) : (resetRegisters s).inBase = none := rfl
@[simp] theorem resetRegisters_outBase (s : State) : (resetRegisters s).outBase = none := rfl
@[simp] theorem resetRegisters_count (s : State) : (resetRegisters s).count = none := rfl
@[simp] theorem resetRegisters_status (s : State) : (resetRegisters s).status = constants.statusOk := rfl
@[simp] theorem resetRegisters_busy (s : State) : (resetRegisters s).busy = false := rfl
@[simp] theorem resetRegisters_smp (s : State) : (resetRegisters s).smp = noOperands := rfl
@[simp] theorem resetRegisters_n (s : State) : (resetRegisters s).n = none := rfl
@[simp] theorem resetRegisters_tag (s : State) : (resetRegisters s).tag = none := rfl
@[simp] theorem resetRegisters_index (s : State) : (resetRegisters s).index = none := rfl
@[simp] theorem resetRegisters_rs (s : State) : (resetRegisters s).rs = none := rfl
@[simp] theorem resetRegisters_half (s : State) : (resetRegisters s).half = none := rfl
@[simp] theorem resetRegisters_packed (s : State) : (resetRegisters s).packed = none := rfl
@[simp] theorem resetRegisters_mem (s : State) : (resetRegisters s).mem = s.mem := rfl
@[simp] theorem resetRegisters_draws (s : State) : (resetRegisters s).draws = s.draws := rfl
@[simp] theorem resetRegisters_hostQueue (s : State) : (resetRegisters s).hostQueue = s.hostQueue := rfl
@[simp] theorem resetRegisters_held (s : State) : (resetRegisters s).held = [] := rfl

/-! ## abandon -/

@[simp] theorem abandon_cfg (f : Footprint) (s : State) : (abandon f s).cfg = s.cfg := rfl
@[simp] theorem abandon_op (f : Footprint) (s : State) : (abandon f s).op = s.op := rfl
@[simp] theorem abandon_inBase (f : Footprint) (s : State) : (abandon f s).inBase = s.inBase := rfl
@[simp] theorem abandon_outBase (f : Footprint) (s : State) : (abandon f s).outBase = s.outBase := rfl
@[simp] theorem abandon_count (f : Footprint) (s : State) : (abandon f s).count = s.count := rfl
@[simp] theorem abandon_status (f : Footprint) (s : State) : (abandon f s).status = s.status := rfl
@[simp] theorem abandon_busy (f : Footprint) (s : State) : (abandon f s).busy = s.busy := rfl
@[simp] theorem abandon_smp (f : Footprint) (s : State) : (abandon f s).smp = s.smp := rfl
@[simp] theorem abandon_n (f : Footprint) (s : State) : (abandon f s).n = s.n := rfl
@[simp] theorem abandon_tag (f : Footprint) (s : State) : (abandon f s).tag = s.tag := rfl
@[simp] theorem abandon_index (f : Footprint) (s : State) : (abandon f s).index = s.index := rfl
@[simp] theorem abandon_rs (f : Footprint) (s : State) : (abandon f s).rs = s.rs := rfl
@[simp] theorem abandon_half (f : Footprint) (s : State) : (abandon f s).half = s.half := rfl
@[simp] theorem abandon_packed (f : Footprint) (s : State) : (abandon f s).packed = s.packed := rfl
@[simp] theorem abandon_mem (f : Footprint) (s : State) : (abandon f s).mem = s.mem.scramble f.writes.base s.draws f.writes.len := rfl
@[simp] theorem abandon_draws (f : Footprint) (s : State) : (abandon f s).draws = s.draws + f.writes.len := rfl
@[simp] theorem abandon_hostQueue (f : Footprint) (s : State) : (abandon f s).hostQueue = s.hostQueue := rfl
@[simp] theorem abandon_held (f : Footprint) (s : State) : (abandon f s).held = s.held := rfl

/-! ## requeue -/

@[simp] theorem requeue_cfg (m : HostMove) (s : State) : (requeue m s).cfg = s.cfg := rfl
@[simp] theorem requeue_op (m : HostMove) (s : State) : (requeue m s).op = s.op := rfl
@[simp] theorem requeue_inBase (m : HostMove) (s : State) : (requeue m s).inBase = s.inBase := rfl
@[simp] theorem requeue_outBase (m : HostMove) (s : State) : (requeue m s).outBase = s.outBase := rfl
@[simp] theorem requeue_count (m : HostMove) (s : State) : (requeue m s).count = s.count := rfl
@[simp] theorem requeue_status (m : HostMove) (s : State) : (requeue m s).status = s.status := rfl
@[simp] theorem requeue_busy (m : HostMove) (s : State) : (requeue m s).busy = s.busy := rfl
@[simp] theorem requeue_smp (m : HostMove) (s : State) : (requeue m s).smp = s.smp := rfl
@[simp] theorem requeue_n (m : HostMove) (s : State) : (requeue m s).n = s.n := rfl
@[simp] theorem requeue_tag (m : HostMove) (s : State) : (requeue m s).tag = s.tag := rfl
@[simp] theorem requeue_index (m : HostMove) (s : State) : (requeue m s).index = s.index := rfl
@[simp] theorem requeue_rs (m : HostMove) (s : State) : (requeue m s).rs = s.rs := rfl
@[simp] theorem requeue_half (m : HostMove) (s : State) : (requeue m s).half = s.half := rfl
@[simp] theorem requeue_packed (m : HostMove) (s : State) : (requeue m s).packed = s.packed := rfl
@[simp] theorem requeue_mem (m : HostMove) (s : State) : (requeue m s).mem = s.mem := rfl
@[simp] theorem requeue_draws (m : HostMove) (s : State) : (requeue m s).draws = s.draws := rfl
@[simp] theorem requeue_hostQueue (m : HostMove) (s : State) : (requeue m s).hostQueue = m :: s.hostQueue := rfl
@[simp] theorem requeue_held (m : HostMove) (s : State) : (requeue m s).held = s.held := rfl

/-! ## beginCommand -/

@[simp] theorem beginCommand_cfg (s : State) : (beginCommand s).cfg = s.cfg := rfl
@[simp] theorem beginCommand_op (s : State) : (beginCommand s).op = s.op := rfl
@[simp] theorem beginCommand_inBase (s : State) : (beginCommand s).inBase = s.inBase := rfl
@[simp] theorem beginCommand_outBase (s : State) : (beginCommand s).outBase = s.outBase := rfl
@[simp] theorem beginCommand_count (s : State) : (beginCommand s).count = s.count := rfl
@[simp] theorem beginCommand_status (s : State) : (beginCommand s).status = s.status := rfl
@[simp] theorem beginCommand_n (s : State) : (beginCommand s).n = s.n := rfl
@[simp] theorem beginCommand_tag (s : State) : (beginCommand s).tag = s.tag := rfl
@[simp] theorem beginCommand_index (s : State) : (beginCommand s).index = s.index := rfl
@[simp] theorem beginCommand_rs (s : State) : (beginCommand s).rs = s.rs := rfl
@[simp] theorem beginCommand_half (s : State) : (beginCommand s).half = s.half := rfl
@[simp] theorem beginCommand_packed (s : State) : (beginCommand s).packed = s.packed := rfl
@[simp] theorem beginCommand_mem (s : State) : (beginCommand s).mem = s.mem := rfl
@[simp] theorem beginCommand_draws (s : State) : (beginCommand s).draws = s.draws := rfl
@[simp] theorem beginCommand_hostQueue (s : State) : (beginCommand s).hostQueue = s.hostQueue := rfl
@[simp] theorem beginCommand_smp (s : State) : (beginCommand s).smp = (sample s).smp := rfl
@[simp] theorem beginCommand_busy (s : State) : (beginCommand s).busy = true := rfl
@[simp] theorem beginCommand_held (s : State) :
    (beginCommand s).held = runningFootprint (sample s) :: s.held := rfl

/-! ## observeBusy -/

theorem observeBusy_busy_true {s : State} (h : s.busy = true) : observeBusy s = s := by
  simp [observeBusy, h]

theorem observeBusy_busy_false {s : State} (h : s.busy = false) :
    observeBusy s = { s with held := [] } := by
  simp [observeBusy, h]

end Sys2Proof.Machine
end

