-- ==== Sys2Proof/Laws/Memory.lean ====
section
/-! SUPPORT. The memory: every operation keeps the canonical form, and what a read gives after a write. -/

namespace Sys2Proof.Machine

/-! ## Cell lists -/

theorem cellsFrom_mono {lo lo' : Nat} (h : lo' ≤ lo) :
    ∀ {l : List Host.Cell}, cellsFrom lo l = true → cellsFrom lo' l = true
  | [], _ => rfl
  | (a, b) :: t, hl => by
    simp only [cellsFrom, Bool.and_eq_true, decide_eq_true_eq] at hl ⊢
    exact ⟨⟨by omega, hl.1.2⟩, hl.2⟩

/-- Below its bound a cell list holds nothing. -/
theorem lookupCell_below {lo a : Nat} (h : a < lo) :
    ∀ {l : List Host.Cell}, cellsFrom lo l = true → lookupCell l a = unlistedByte
  | [], _ => rfl
  | (x, c) :: t, hl => by
    simp only [cellsFrom, Bool.and_eq_true, decide_eq_true_eq] at hl
    rw [lookupCell, if_neg (by omega)]
    exact lookupCell_below (by omega) hl.2

theorem cellsFrom_setCell {lo a : Nat} {b : Byte} (ha : lo ≤ a) :
    ∀ {l : List Host.Cell}, cellsFrom lo l = true → cellsFrom lo (setCell l a b) = true
  | [], _ => by
    rw [setCell]
    split
    · rfl
    · simp_all [cellsFrom]
  | (x, c) :: t, hl => by
    have hl' := hl
    simp only [cellsFrom, Bool.and_eq_true, decide_eq_true_eq, bne_iff_ne, ne_eq] at hl
    rw [setCell]
    split
    · split
      · exact hl'
      · simp_all [cellsFrom]
    · split
      · subst x
        split
        · exact cellsFrom_mono (by omega) hl.2
        · simp_all [cellsFrom]
      · simp only [cellsFrom, Bool.and_eq_true, decide_eq_true_eq, bne_iff_ne, ne_eq]
        exact ⟨hl.1, cellsFrom_setCell (by omega) hl.2⟩

/-- A cell list read after a store: the stored byte at its address, every other address as before. -/
theorem lookupCell_setCell {lo a x : Nat} {b : Byte} :
    ∀ {l : List Host.Cell}, cellsFrom lo l = true →
      lookupCell (setCell l a b) x = if x = a then b else lookupCell l x
  | [], _ => by
    rw [setCell]
    by_cases hb : b = unlistedByte <;> by_cases hx : x = a
    · simp [hb, lookupCell]
    · simp [hb, lookupCell]
    · simp [hb, hx, lookupCell]
    · simp [hb, hx, Ne.symm hx, lookupCell]
  | (y, c) :: t, hl => by
    simp only [cellsFrom, Bool.and_eq_true, decide_eq_true_eq, bne_iff_ne, ne_eq] at hl
    have ih := lookupCell_setCell (a := a) (x := x) (b := b) hl.2
    have below : x < y + 1 → lookupCell t x = unlistedByte := fun h => lookupCell_below h hl.2
    rw [setCell]
    split
    · split
      · by_cases hxa : x = a
        · subst hxa
          rw [lookupCell, if_neg (by omega), below (by omega)]; simp_all
        · simp [hxa]
      · rw [lookupCell]
        by_cases hxa : x = a
        · simp [hxa]
        · simp [hxa, Ne.symm hxa]
    · split
      · subst y
        split
        · by_cases hxa : x = a
          · subst hxa; rw [below (by omega)]; simp_all
          · simp [hxa, lookupCell, Ne.symm hxa]
        · rw [lookupCell, lookupCell]
          by_cases hxa : x = a
          · simp [hxa]
          · simp [hxa, Ne.symm hxa]
      · rw [lookupCell, ih, lookupCell]
        by_cases hxy : y = x
        · subst hxy; simp [show ¬ y = a by omega]
        · simp [hxy]

theorem mem_setCell {a : Nat} {b : Byte} {c : Host.Cell} :
    ∀ {l : List Host.Cell}, c ∈ setCell l a b → c.1 = a ∨ c ∈ l
  | [], h => by
    rw [setCell] at h
    split at h <;> simp_all
  | (y, d) :: t, h => by
    rw [setCell] at h
    split at h
    · split at h
      · exact .inr h
      · rcases List.mem_cons.mp h with rfl | h
        · exact .inl rfl
        · exact .inr h
    · split at h
      · split at h
        · exact .inr (List.mem_cons_of_mem _ h)
        · rcases List.mem_cons.mp h with rfl | h
          · exact .inl rfl
          · exact .inr (List.mem_cons_of_mem _ h)
      · rcases List.mem_cons.mp h with rfl | h
        · exact .inr List.mem_cons_self
        · rcases mem_setCell h with h | h
          · exact .inl h
          · exact .inr (List.mem_cons_of_mem _ h)

/-! ## One byte -/

theorem Memory_wf_iff {m : Memory} :
    m.wf = true ↔ regionsFrom 0 m.map = true ∧ cellsFrom 0 m.cells = true ∧
      ∀ c ∈ m.cells, m.has c.1 = true := by
  simp [Memory.wf, and_assoc]

@[simp] theorem setByte_map (m : Memory) (a : Nat) (b : Byte) : (m.setByte a b).map = m.map := by
  rw [Memory.setByte]; split <;> rfl

@[simp] theorem setByte_has (m : Memory) (a : Nat) (b : Byte) (x : Nat) :
    (m.setByte a b).has x = m.has x := by
  simp [Memory.has]

theorem setByte_wf {m : Memory} (h : m.wf = true) (a : Nat) (b : Byte) :
    (m.setByte a b).wf = true := by
  rw [Memory.setByte]
  split
  · rename_i ha
    rw [Memory_wf_iff] at h ⊢
    refine ⟨h.1, cellsFrom_setCell (Nat.zero_le a) h.2.1, fun c hc => ?_⟩
    rcases mem_setCell hc with hc | hc
    · rw [hc]; exact ha
    · exact h.2.2 c hc
  · exact h

/-- A byte read after a byte store to an existing address. -/
theorem byte_setByte {m : Memory} (h : m.wf = true) {a : Nat} (ha : m.has a = true) (b : Byte) (x : Nat) :
    (m.setByte a b).byte x = if x = a then b else m.byte x := by
  rw [Memory.setByte, if_pos ha]
  exact lookupCell_setCell (Memory_wf_iff.mp h).2.1

/-- A byte store leaves every other address as before, whether its own address exists or not. -/
theorem byte_setByte_ne {m : Memory} (h : m.wf = true) {a x : Nat} (b : Byte) (hx : x ≠ a) :
    (m.setByte a b).byte x = m.byte x := by
  by_cases ha : m.has a = true
  · rw [byte_setByte h ha, if_neg hx]
  · rw [Memory.setByte, if_neg ha]

/-! ## Runs of bytes -/

@[simp] theorem setBytes_map (m : Memory) (a : Nat) (l : List Byte) : (m.setBytes a l).map = m.map := by
  induction l generalizing m a with
  | nil => rfl
  | cons b t ih => rw [Memory.setBytes, ih, setByte_map]

@[simp] theorem setBytes_has (m : Memory) (a : Nat) (l : List Byte) (x : Nat) :
    (m.setBytes a l).has x = m.has x := by
  simp [Memory.has]

theorem setBytes_wf {m : Memory} (h : m.wf = true) (a : Nat) (l : List Byte) :
    (m.setBytes a l).wf = true := by
  induction l generalizing m a with
  | nil => exact h
  | cons b t ih => exact ih (setByte_wf h a b) (a + 1)

/-- A run of stores leaves every address outside it as before. -/
theorem byte_setBytes_outside {m : Memory} (h : m.wf = true) {a x : Nat} {l : List Byte}
    (hx : x < a ∨ a + l.length ≤ x) : (m.setBytes a l).byte x = m.byte x := by
  induction l generalizing m a with
  | nil => rfl
  | cons b t ih =>
    simp only [List.length_cons] at hx
    rw [Memory.setBytes, ih (setByte_wf h a b) (by omega), byte_setByte_ne h b (by omega)]

/-- A run of stores to existing addresses gives each address its byte. -/
theorem byte_setBytes_inside {m : Memory} (h : m.wf = true) {a k : Nat} {l : List Byte}
    (hm : ∀ j < l.length, m.has (a + j) = true) (hk : k < l.length) :
    (m.setBytes a l).byte (a + k) = l[k] := by
  induction l generalizing m a k with
  | nil => simp at hk
  | cons b t ih =>
    simp only [List.length_cons] at hk hm
    cases k with
    | zero =>
      rw [Memory.setBytes, byte_setBytes_outside (setByte_wf h a b) (by omega), Nat.add_zero,
        byte_setByte h (by simpa using hm 0 (by omega)), if_pos rfl]
      rfl
    | succ k =>
      have := ih (m := m.setByte a b) (setByte_wf h a b) (a := a + 1) (k := k)
        (fun j hj => by simpa [Nat.add_assoc, Nat.add_comm 1] using hm (j + 1) (by omega)) (by omega)
      rw [Memory.setBytes, show a + (k + 1) = a + 1 + k by omega, this]
      rfl

@[simp] theorem bytes_length (m : Memory) (a n : Nat) : (m.bytes a n).length = n := by
  induction n generalizing a with
  | zero => rfl
  | succ n ih => simp [Memory.bytes, ih]

theorem bytes_getElem (m : Memory) (a n k : Nat) (hk : k < (m.bytes a n).length) :
    (m.bytes a n)[k] = m.byte (a + k) := by
  induction n generalizing a k with
  | zero => simp [Memory.bytes] at hk
  | succ n ih =>
    cases k with
    | zero => rfl
    | succ k =>
      simp only [Memory.bytes, List.getElem_cons_succ, ih]
      congr 1; omega

/-- A read depends on the bytes it covers and on nothing else. -/
theorem bytes_congr {m m' : Memory} {a n : Nat} (h : ∀ k < n, m.byte (a + k) = m'.byte (a + k)) :
    m.bytes a n = m'.bytes a n := by
  refine List.ext_getElem (by simp) fun k h1 h2 => ?_
  rw [bytes_getElem, bytes_getElem]
  exact h k (by simpa using h1)

theorem read32_congr {m m' : Memory} {a : Nat} (h : ∀ k < 4, m.byte (a + k) = m'.byte (a + k)) :
    m.read32 a = m'.read32 a := by
  rw [Memory.read32, Memory.read, bytes_congr h]; rfl

theorem read24_congr {m m' : Memory} {a : Nat} (h : ∀ k < 3, m.byte (a + k) = m'.byte (a + k)) :
    m.read24 a = m'.read24 a := by
  rw [Memory.read24, Memory.read, bytes_congr h]; rfl

/-! ## Little-endian numbers -/

@[simp] theorem leBytes_length (k w : Nat) : (leBytes k w).length = k := by
  induction k generalizing w with
  | zero => rfl
  | succ k ih => simp [leBytes, ih]

theorem leNat_lt (l : List Byte) : leNat l < 256 ^ l.length := by
  induction l with
  | nil => simp [leNat]
  | cons b t ih =>
    have := b.isLt
    simp only [leNat, List.length_cons, pow_succ]
    omega

theorem leNat_leBytes (k w : Nat) : leNat (leBytes k w) = w % 256 ^ k := by
  induction k generalizing w with
  | zero => simp [leBytes, leNat, Nat.mod_one]
  | succ k ih =>
    have h : w % 256 ^ (k + 1) = w % 256 + 256 * (w / 256 % 256 ^ k) := by
      rw [Nat.pow_succ', Nat.mod_mul]
    rw [leBytes, leNat, ih, BitVec.toNat_ofNat, h]

/-! ## Words -/

@[simp] theorem write32_map (m : Memory) (a : Nat) (v : Word) : (m.write32 a v).map = m.map := by
  simp [Memory.write32]

@[simp] theorem write32_has (m : Memory) (a : Nat) (v : Word) (x : Nat) :
    (m.write32 a v).has x = m.has x := by
  simp [Memory.has]

theorem write32_wf {m : Memory} (h : m.wf = true) (a : Nat) (v : Word) : (m.write32 a v).wf = true :=
  setBytes_wf h a _

theorem byte_write32_outside {m : Memory} (h : m.wf = true) {a x : Nat} (v : Word)
    (hx : x < a ∨ a + 4 ≤ x) : (m.write32 a v).byte x = m.byte x :=
  byte_setBytes_outside h (by simpa using hx)

/-- A word read back where it was written. -/
theorem read32_write32 {m : Memory} (h : m.wf = true) {a : Nat} (v : Word)
    (hm : ∀ k < 4, m.has (a + k) = true) : (m.write32 a v).read32 a = v := by
  have hb : (m.write32 a v).bytes a 4 = leBytes 4 v.toNat := by
    refine List.ext_getElem (by simp) fun k h1 h2 => ?_
    rw [bytes_getElem]
    exact byte_setBytes_inside h (by simpa using hm) (by simpa using h2)
  rw [Memory.read32, Memory.read, hb, leNat_leBytes]
  exact BitVec.eq_of_toNat_eq (by simpa using v.isLt)

/-- A byte of a word (R42, R43). -/
theorem byte_of_read32 (m : Memory) (a : Nat) {k : Nat} (hk : k < 4) :
    m.byte (a + k) = (m.read32 a).extractLsb' (8 * k) 8 := by
  have e : m.read a 4 = (m.byte a).toNat + 256 * ((m.byte (a + 1)).toNat +
      256 * ((m.byte (a + 2)).toNat + 256 * (m.byte (a + 3)).toNat)) := by
    simp [Memory.read, Memory.bytes, leNat]
  have b0 := (m.byte a).isLt
  have b1 := (m.byte (a + 1)).isLt
  have b2 := (m.byte (a + 2)).isLt
  have b3 := (m.byte (a + 3)).isLt
  apply BitVec.eq_of_toNat_eq
  rw [BitVec.extractLsb'_toNat, Memory.read32, BitVec.toNat_ofNat, e, Nat.shiftRight_eq_div_pow]
  interval_cases k <;> simp <;> omega


theorem read32_write32_outside {m : Memory} (h : m.wf = true) {a x : Nat} (v : Word)
    (hx : x + 4 ≤ a ∨ a + 4 ≤ x) : (m.write32 a v).read32 x = m.read32 x :=
  read32_congr fun k hk => byte_write32_outside h v (by omega)

@[simp] theorem writeWords_map (m : Memory) (a : Nat) (l : List Word) :
    (m.writeWords a l).map = m.map := by
  induction l generalizing m a with
  | nil => rfl
  | cons v t ih => rw [Memory.writeWords, ih, write32_map]

@[simp] theorem writeWords_has (m : Memory) (a : Nat) (l : List Word) (x : Nat) :
    (m.writeWords a l).has x = m.has x := by
  simp [Memory.has]

theorem writeWords_wf {m : Memory} (h : m.wf = true) (a : Nat) (l : List Word) :
    (m.writeWords a l).wf = true := by
  induction l generalizing m a with
  | nil => exact h
  | cons v t ih => exact ih (write32_wf h a v) (a + 4)

/-- A run of word stores leaves every address outside it as before. -/
theorem byte_writeWords_outside {m : Memory} (h : m.wf = true) {a x : Nat} {l : List Word}
    (hx : x < a ∨ a + 4 * l.length ≤ x) : (m.writeWords a l).byte x = m.byte x := by
  induction l generalizing m a with
  | nil => rfl
  | cons v t ih =>
    simp only [List.length_cons] at hx
    rw [Memory.writeWords, ih (write32_wf h a v) (by omega), byte_write32_outside h v (by omega)]

/-- A run of word stores to existing addresses, read back. -/
theorem read32_writeWords {m : Memory} (h : m.wf = true) {a k : Nat} {l : List Word}
    (hm : ∀ j < 4 * l.length, m.has (a + j) = true) (hk : k < l.length) :
    (m.writeWords a l).read32 (a + 4 * k) = l[k] := by
  induction l generalizing m a k with
  | nil => simp at hk
  | cons v t ih =>
    simp only [List.length_cons] at hk hm
    cases k with
    | zero =>
      rw [Memory.writeWords, Nat.mul_zero, Nat.add_zero]
      refine (read32_congr fun j hj => ?_).trans (read32_write32 h v fun j hj => hm j (by omega))
      exact byte_writeWords_outside (write32_wf h a v) (by omega)
    | succ k =>
      have := ih (m := m.write32 a v) (write32_wf h a v) (a := a + 4) (k := k)
        (fun j hj => by
          have := hm (4 + j) (by omega)
          rw [write32_has, Nat.add_assoc]; exact this) (by omega)
      rw [Memory.writeWords, show a + 4 * (k + 1) = a + 4 + 4 * k by omega, this]
      rfl

/-! ## Existing and writable addresses -/

theorem has_iff_region {m : Memory} {a : Nat} : m.has a = true ↔ ∃ r ∈ m.map, r.has a = true := by
  simp [Memory.has]

theorem canWrite_iff_region {m : Memory} {a : Nat} :
    m.canWrite a = true ↔ ∃ r ∈ m.map.filter (fun g => g.writable), r.has a = true := by
  simp only [Memory.canWrite, List.any_eq_true, Bool.and_eq_true, List.mem_filter]
  constructor
  · rintro ⟨r, hr, h1, h2⟩; exact ⟨r, ⟨hr, h2⟩, h1⟩
  · rintro ⟨r, ⟨hr, h2⟩, h1⟩; exact ⟨r, hr, h1, h2⟩

/-- A writable address exists. -/
theorem has_of_canWrite {m : Memory} {a : Nat} (h : m.canWrite a = true) : m.has a = true := by
  obtain ⟨r, hr, hh⟩ := canWrite_iff_region.mp h
  exact has_iff_region.mpr ⟨r, (List.mem_filter.mp hr).1, hh⟩

/-! ## Free values -/

@[simp] theorem scramble_map (m : Memory) (a k n : Nat) : (m.scramble a k n).map = m.map := by
  induction n generalizing m a k with
  | zero => rfl
  | succ n ih => rw [Memory.scramble, ih, setByte_map]

theorem scramble_wf {m : Memory} (h : m.wf = true) (a k n : Nat) : (m.scramble a k n).wf = true := by
  induction n generalizing m a k with
  | zero => exact h
  | succ n ih => exact ih (setByte_wf h a _) (a + 1) (k + 1)

/-- What `scramble` leaves: byte `j` of the span holds free value `k + j` where there is a byte, and every
other byte is as before. -/
theorem byte_scramble {m : Memory} (h : m.wf = true) (a k n x : Nat) :
    (m.scramble a k n).byte x =
      if (a ≤ x ∧ x < a + n) ∧ m.has x = true then Config.resetByte (k + (x - a)) else m.byte x := by
  induction n generalizing m a k with
  | zero => rw [Memory.scramble, if_neg (by omega)]
  | succ n ih =>
    rw [Memory.scramble, ih (setByte_wf h a _), setByte_has]
    by_cases hx : x = a
    · subst hx
      rw [if_neg (by omega)]
      by_cases hm : m.has x = true
      · rw [byte_setByte h hm, if_pos rfl, if_pos ⟨by omega, hm⟩, Nat.sub_self, Nat.add_zero]
      · rw [Memory.setByte, if_neg hm, if_neg (by tauto)]
    · rw [byte_setByte_ne h _ hx]
      by_cases hr : a + 1 ≤ x ∧ x < a + 1 + n
      · have hr' : a ≤ x ∧ x < a + (n + 1) := by omega
        simp only [hr, hr', and_self, true_and]
        rw [show k + 1 + (x - (a + 1)) = k + (x - a) by omega]
      · rw [if_neg (by tauto), if_neg (by omega)]

theorem resetMemory_wf : resetMemory.wf = true := by decide

/-! ## Coverage -/

theorem covers_of_le {l : List Region} {lo hi : Nat} (h : hi ≤ lo) : covers l lo hi = true := by
  induction l generalizing lo with
  | nil => simp [covers, h]
  | cons r t ih =>
    rw [covers]
    split
    · rename_i hr; exact ih (by omega)
    · exact ih h

/-- Coverage is sound: every address of the span lies in a region. -/
theorem covers_sound {l : List Region} {lo hi a : Nat} (h : covers l lo hi = true) (h1 : lo ≤ a)
    (h2 : a < hi) : ∃ r ∈ l, r.has a = true := by
  induction l generalizing lo with
  | nil => simp [covers] at h; omega
  | cons r t ih =>
    rw [covers] at h
    split at h
    · rename_i hr
      by_cases ha : a < r.top
      · exact ⟨r, List.mem_cons_self, by simp [Region.has]; omega⟩
      · obtain ⟨g, hg, hh⟩ := ih h (by omega)
        exact ⟨g, List.mem_cons_of_mem _ hg, hh⟩
    · obtain ⟨g, hg, hh⟩ := ih h h1
      exact ⟨g, List.mem_cons_of_mem _ hg, hh⟩

theorem regionsFrom_mono {lo lo' : Nat} (h : lo' ≤ lo) :
    ∀ {l : List Region}, regionsFrom lo l = true → regionsFrom lo' l = true
  | [], _ => rfl
  | r :: t, hl => by
    simp only [regionsFrom, Bool.and_eq_true, decide_eq_true_eq] at hl ⊢
    exact ⟨⟨by omega, hl.1.2⟩, hl.2⟩

theorem regionsFrom_filter (p : Region → Bool) {lo : Nat} :
    ∀ {l : List Region}, regionsFrom lo l = true → regionsFrom lo (l.filter p) = true
  | [], _ => rfl
  | r :: t, hl => by
    simp only [regionsFrom, Bool.and_eq_true, decide_eq_true_eq] at hl
    have ih := regionsFrom_filter p (lo := r.top) (l := t) hl.2
    rw [List.filter_cons]
    split
    · simp only [regionsFrom, Bool.and_eq_true, decide_eq_true_eq]
      exact ⟨hl.1, ih⟩
    · exact regionsFrom_mono (by have := hl.1; rw [Region.top]; omega) ih

theorem regionsFrom_base_le {lo : Nat} {r : Region} :
    ∀ {l : List Region}, regionsFrom lo l = true → r ∈ l → lo ≤ r.base
  | g :: t, hl, hr => by
    simp only [regionsFrom, Bool.and_eq_true, decide_eq_true_eq] at hl
    rcases List.mem_cons.mp hr with rfl | hr
    · exact hl.1.1
    · have := regionsFrom_base_le hl.2 hr
      rw [Region.top] at this; omega

/-- Coverage is complete on regions in rising order. -/
theorem covers_complete {l : List Region} {b lo hi : Nat} (hl : regionsFrom b l = true)
    (h : ∀ a, lo ≤ a → a < hi → ∃ r ∈ l, r.has a = true) : covers l lo hi = true := by
  induction l generalizing b lo with
  | nil =>
    by_cases hh : hi ≤ lo
    · exact covers_of_le hh
    · obtain ⟨r, hr, -⟩ := h lo le_rfl (by omega)
      simp at hr
  | cons r t ih =>
    simp only [regionsFrom, Bool.and_eq_true, decide_eq_true_eq] at hl
    by_cases hh : hi ≤ lo
    · exact covers_of_le hh
    rw [covers]
    split
    · refine ih hl.2 fun a h1 h2 => ?_
      obtain ⟨g, hg, hga⟩ := h a (by omega) h2
      rcases List.mem_cons.mp hg with rfl | hg
      · simp [Region.has] at hga; omega
      · exact ⟨g, hg, hga⟩
    · rename_i hr
      refine ih hl.2 fun a h1 h2 => ?_
      obtain ⟨g, hg, hga⟩ := h a h1 h2
      rcases List.mem_cons.mp hg with rfl | hg
      · exfalso
        simp [Region.has] at hga
        obtain ⟨g', hg', hga'⟩ := h lo le_rfl (by omega)
        rcases List.mem_cons.mp hg' with rfl | hg'
        · simp [Region.has] at hga'; omega
        · have := regionsFrom_base_le hl.2 hg'
          simp [Region.has] at hga'; omega
      · exact ⟨g, hg, hga⟩

end Sys2Proof.Machine
end

