-- ==== Sys2Proof/Laws/Ops.lean ====
section
/-! SUPPORT. What each shared operation can do, said once: the checks, the outcomes, and the updates of the
state. -/

namespace Sys2Proof.Machine

/-! ## Outcomes -/

@[simp] theorem refuseOr_none (k : Out) : refuseOr none k = k := rfl

@[simp] theorem refuseOr_some (r : Refusal) (k : Out) : refuseOr (some r) k = .refused r := rfl

/-- If a checked move answers a next state, the check passed. -/
theorem refuseOr_next {c : Option Refusal} {k : Out} {t : State} :
    refuseOr c k = .next t ↔ c = none ∧ k = .next t := by
  cases c <;> simp [refuseOr]

theorem refuseOr_refused {c : Option Refusal} {k : Out} {r : Refusal} :
    refuseOr c k = .refused r ↔ c = some r ∨ c = none ∧ k = .refused r := by
  cases c <;> simp [refuseOr]

@[simp] theorem mapNext_next (f : State → State) (s : State) : mapNext f (.next s) = .next (f s) := rfl

@[simp] theorem mapNext_refused (f : State → State) (r : Refusal) :
    mapNext f (.refused r) = .refused r := rfl

theorem mapNext_eq_next {f : State → State} {o : Out} {t : State} :
    mapNext f o = .next t ↔ ∃ s, o = .next s ∧ f s = t := by
  cases o <;> simp [mapNext]

/-! ## Spans and footprints -/

theorem Span_has_iff {r : Span} {a : Nat} : r.has a = true ↔ r.base ≤ a ∧ a < r.base + r.len := by
  simp only [Span.has, Bool.and_eq_true, decide_eq_true_eq]
  rfl

theorem Span_has_false_iff {r : Span} {a : Nat} :
    r.has a = false ↔ a < r.base ∨ r.base + r.len ≤ a := by
  rw [← Bool.not_eq_true, Span_has_iff]; omega

@[simp] theorem noSpan_has (a : Nat) : noSpan.has a = false := by
  simp [Span_has_false_iff, noSpan]

theorem wraps_false_iff {w : Nat} {r : Span} :
    r.wraps w = false ↔ (0 < r.len → r.top ≤ 2 ^ w) := by
  simp [Span.wraps]

theorem disjoint_iff {r t : Span} :
    r.disjoint t = true ↔ ∀ a, ¬ (r.has a = true ∧ t.has a = true) := by
  simp only [Span.disjoint, Bool.or_eq_true, decide_eq_true_eq, Span_has_iff]
  unfold Span.top
  constructor
  · intro h a; omega
  · intro h
    have h1 := h r.base
    have h2 := h t.base
    omega

/-- The read check is exact. -/
theorem readable_iff {m : Memory} (h : m.wf = true) {r : Span} :
    m.readable r = true ↔ ∀ a, r.has a = true → m.has a = true := by
  simp only [Memory.readable, Span.top, Span_has_iff, has_iff_region]
  exact ⟨fun hc a ha => covers_sound hc ha.1 ha.2,
    fun ha => covers_complete (Memory_wf_iff.mp h).1 fun a h1 h2 => ha a ⟨h1, h2⟩⟩

/-- The write check is exact. -/
theorem writable_iff {m : Memory} (h : m.wf = true) {r : Span} :
    m.writable r = true ↔ ∀ a, r.has a = true → m.canWrite a = true := by
  simp only [Memory.writable, Span.top, Span_has_iff, canWrite_iff_region]
  exact ⟨fun hc a ha => covers_sound hc ha.1 ha.2,
    fun ha => covers_complete (regionsFrom_filter _ (Memory_wf_iff.mp h).1)
      fun a h1 h2 => ha a ⟨h1, h2⟩⟩

/-- A footprint passes its check exactly when the command may rely on it. -/
theorem footprintCheck_none {s : State} (h : s.mem.wf = true) {f : Footprint} :
    footprintCheck s f = none ↔ footprintOk s f := by
  rw [footprintOk, footprintFits, footprintInside, footprintApart, ← readable_iff h, ← writable_iff h,
    ← disjoint_iff, ← wraps_false_iff, ← wraps_false_iff, footprintCheck]
  cases f.reads.wraps s.cfg.addrW <;> cases f.writes.wraps s.cfg.addrW <;>
    cases s.mem.readable f.reads <;> cases s.mem.writable f.writes <;>
    cases f.reads.disjoint f.writes <;> simp

/-- The check reads the parameters and the memory map, nothing else. -/
theorem footprintCheck_congr {s t : State} (hc : t.cfg = s.cfg) (hm : t.mem.map = s.mem.map)
    (f : Footprint) : footprintCheck t f = footprintCheck s f := by
  simp [footprintCheck, Memory.readable, Memory.writable, hc, hm]

theorem aligned_iff {a : Nat} : aligned a = true ↔ a % 4 = 0 := by simp [aligned]

theorem headerCheck_none {s : State} (h : s.mem.wf = true) :
    headerCheck s = none ↔ s.smp.inBase % 4 = 0 ∧ footprintOk s (headerFootprint s) := by
  rw [headerCheck, ← footprintCheck_none h, ← aligned_iff]
  cases aligned s.smp.inBase <;> simp

theorem pointsCheck_none {s : State} (h : s.mem.wf = true) :
    pointsCheck s = none ↔
      s.smp.inBase % 4 = 0 ∧ s.smp.outBase % 4 = 0 ∧ footprintOk s (pointsFootprint s) := by
  rw [pointsCheck, ← footprintCheck_none h, ← aligned_iff, ← aligned_iff]
  cases aligned s.smp.inBase <;> cases aligned s.smp.outBase <;> simp

theorem prefixCheck_none {s : State} (h : s.mem.wf = true) :
    prefixCheck s = none ↔
      s.smp.inBase % 4 = 0 ∧ s.smp.outBase % 4 = 0 ∧ footprintOk s (prefixFootprint s) := by
  rw [prefixCheck, ← footprintCheck_none h, ← aligned_iff, ← aligned_iff]
  cases aligned s.smp.inBase <;> cases aligned s.smp.outBase <;> simp

theorem texelCheck_none {s : State} (h : s.mem.wf = true) {o : Nat} {i : Word} :
    texelCheck o i s = none ↔ o % 4 = 0 ∧ footprintOk s (texelFootprint o i) := by
  rw [texelCheck, ← footprintCheck_none h, ← aligned_iff]
  cases aligned o <;> simp

theorem splat20Check_none {s : State} (h : s.mem.wf = true) {n : Word} :
    splat20Check n s = none ↔ footprintOk s (blockFootprint s 20 32 n) := footprintCheck_none h

theorem shCheck_none {s : State} (h : s.mem.wf = true) {k : Nat} {n : Word} :
    shCheck k n s = none ↔ footprintOk s (blockFootprint s k 16 n) := footprintCheck_none h

/-! ## The life of a command -/

/-- Completion forgets the hidden state, so it does not matter what the hidden state was. -/
theorem complete_congr {s t : State} (st : Word)
    (h : t = { s with smp := t.smp, n := t.n, tag := t.tag, index := t.index, rs := t.rs,
                      half := t.half, packed := t.packed, status := t.status, busy := t.busy }) :
    complete st t = complete st s := by
  rw [h]; rfl

@[simp] theorem complete_latchPrefix (st : Word) (s : State) :
    complete st (latchPrefix s) = complete st s := rfl

@[simp] theorem complete_beginIndex (st : Word) (s : State) :
    complete st (beginIndex s) = complete st s := rfl

@[simp] theorem complete_pointsBegin (st : Word) (s : State) :
    complete st (pointsBegin s) = complete st s := rfl

/-- The prefix of a block lies in its footprint. -/
theorem prefix_of_block {s : State} {stride texel : Nat} {n : Word}
    (h : footprintOk s (blockFootprint s stride texel n)) : footprintOk s (prefixFootprint s) := by
  obtain ⟨⟨h1, -⟩, ⟨h3, -⟩, -⟩ := h
  simp only [blockFootprint, constants, Span.top] at h1
  refine ⟨⟨fun _ => ?_, fun h => ?_⟩, ⟨fun a ha => h3 a ?_, fun a ha => ?_⟩, fun a ha => ?_⟩
  · simp only [prefixFootprint, constants, Span.top]
    have := h1 (by omega)
    omega
  · simp [prefixFootprint, noSpan] at h
  · rw [Span_has_iff] at ha ⊢
    simp only [prefixFootprint, blockFootprint, constants] at ha ⊢
    omega
  · simp [prefixFootprint] at ha
  · simp [prefixFootprint] at ha

/-- The prefix of a running block lies in its read footprint. -/
theorem prefix_reads {s : State} (h : decodeCommand s.smp.op = .ok .decodeBlock) :
    (runningFootprint s).reads.base = s.smp.inBase ∧ 8 ≤ (runningFootprint s).reads.len := by
  simp only [runningFootprint, h]
  split <;> simp [blockFootprint, prefixFootprint, constants]

/-- The footprint of a running command depends on its operands, its latched prefix and the bytes it reads,
nothing else. -/
theorem runningFootprint_congr {s t : State} (hs : t.smp = s.smp) (hn : t.n = s.n) (ht : t.tag = s.tag)
    (h : ∀ a, (runningFootprint s).reads.has a = true → t.mem.byte a = s.mem.byte a) :
    runningFootprint t = runningFootprint s := by
  cases hd : decodeCommand s.smp.op with
  | error e => simp [runningFootprint, hs, hd]
  | ok i =>
    by_cases hi : i = .decodeBlock
    · subst hi
      obtain ⟨h1, h2⟩ := prefix_reads hd
      have hw : ∀ a, s.smp.inBase ≤ a → a + 4 ≤ s.smp.inBase + 8 →
          t.mem.read32 a = s.mem.read32 a := fun a ha ha' =>
        read32_congr fun k hk => h _ (Span_has_iff.mpr (by omega))
      simp only [runningFootprint, hs, hn, ht, hd, hw _ (Nat.le_refl _) (by omega),
        hw (s.smp.inBase + 4) (by omega) (by omega), blockFootprint, prefixFootprint]
    · simp only [runningFootprint, hs, hd, headerFootprint, pointsFootprint]
      cases i <;> simp_all

end Sys2Proof.Machine
end

