-- ==== Sys2Proof/Laws/Loops.lean ====
section
/-! SUPPORT. The loop of an unpacker, packaged once: if its body writes texel `i` at point `i`, then after
`n` points the first `n` texels stand in memory and nothing else has changed. -/

namespace Sys2Proof.Machine

/-- The bytes of texel `i` of `n` exist. -/
def texelsExist (s : State) (texel n : Nat) : Prop :=
  ∀ i < n, ∀ j < texel, s.mem.has (s.smp.outBase + texel * i + j) = true

/-- `s` is `s0` with the first `i` texels written. -/
structure LoopAt (s0 : State) (texel draws : Nat) (ws : Nat → List Word) (i : Nat) (s : State) : Prop where
  eq : s = { s0 with mem := s.mem, draws := s0.draws + draws * i,
                     index := some (BitVec.ofNat 32 i) }
  map : s.mem.map = s0.mem.map
  wf : s.mem.wf = true
  words : ∀ j < i, wordsAt s.mem (s0.smp.outBase + texel * j) (ws j)
  outside : sameOutside { base := s0.smp.outBase, len := texel * i } s0.mem s.mem

theorem LoopAt_start {s0 : State} (h : s0.mem.wf = true) (texel draws : Nat) (ws : Nat → List Word) :
    LoopAt s0 texel draws ws 0 (beginIndex s0) where
  eq := by simp [beginIndex]
  map := rfl
  wf := h
  words := by simp
  outside := fun a _ => rfl

theorem has_congr {m m' : Memory} (h : m'.map = m.map) (a : Nat) : m'.has a = m.has a := by
  simp [Memory.has, h]

/-- One more texel. -/
theorem LoopAt_succ {s0 s : State} {texel draws i n : Nat} {ws : Nat → List Word}
    (hl : LoopAt s0 texel draws ws i s) (he : texelsExist s0 texel n) (hi : i < n)
    (hw : 4 * (ws i).length = texel) (hj : ∀ j < i, (ws j).length = (ws i).length) :
    LoopAt s0 texel draws ws (i + 1)
      (bumpIndex (putWords (s0.smp.outBase + texel * i) (ws i) draws s)) where
  eq := by
    have h1 : BitVec.ofNat 32 i + 1 = BitVec.ofNat 32 (i + 1) := by
      rw [BitVec.ofNat_add]; rfl
    rw [hl.eq]
    simp only [bumpIndex, putWords, Option.map_some, h1, Nat.mul_succ, Nat.add_assoc]
  map := by simp [hl.map]
  wf := by simpa using writeWords_wf hl.wf _ _
  words := by
    intro j hji k hk
    simp only [bumpIndex_mem, putWords_mem]
    by_cases hjeq : j = i
    · subst hjeq
      exact read32_writeWords hl.wf (fun q hq => by
        rw [has_congr hl.map]; exact he j hi q (by omega)) hk
    · rw [← hl.words j (by omega) k hk]
      refine read32_congr fun q hq => byte_writeWords_outside hl.wf (.inl ?_)
      have := hj j (by omega)
      have h2 : texel * (j + 1) ≤ texel * i := Nat.mul_le_mul_left _ (by omega)
      rw [Nat.mul_succ] at h2
      omega
  outside := by
    intro a ha
    rw [Span_has_false_iff] at ha
    simp only [Nat.mul_succ] at ha
    simp only [bumpIndex_mem, putWords_mem]
    rw [byte_writeWords_outside hl.wf (by omega)]
    exact hl.outside a (Span_has_false_iff.mpr (by simp only; omega))

/-- The whole loop. -/
theorem LoopAt_run {s0 : State} {texel draws n : Nat} {ws : Nat → List Word} {body : State → State}
    (h : s0.mem.wf = true) (he : texelsExist s0 texel n) (hw : ∀ i, 4 * (ws i).length = texel)
    (hb : ∀ i < n, ∀ s, LoopAt s0 texel draws ws i s →
      body s = bumpIndex (putWords (s0.smp.outBase + texel * i) (ws i) draws s)) :
    ∀ i ≤ n, LoopAt s0 texel draws ws i (body^[i] (beginIndex s0))
  | 0, _ => LoopAt_start h texel draws ws
  | i + 1, hi => by
    have ih := LoopAt_run h he hw hb i (by omega)
    rw [Function.iterate_succ_apply', hb i (by omega) _ ih]
    exact LoopAt_succ ih he (by omega) (hw i) fun j _ => by have := hw i; have := hw j; omega

/-- A completed loop is an unpacked state. -/
theorem LoopAt_complete {s0 s : State} {texel draws n : Nat} {ws : Nat → List Word}
    (hl : LoopAt s0 texel draws ws n s) :
    unpacked s0 (complete constants.statusOk s) texel n ws (draws * n) := by
  refine ⟨?_, hl.map, hl.words, hl.outside⟩
  conv_lhs => rw [hl.eq]
  rfl

/-- The read bytes of a loop are the bytes of its start, where they lie outside the output. -/
theorem LoopAt_byte {s0 s : State} {texel draws i n : Nat} {ws : Nat → List Word}
    (hl : LoopAt s0 texel draws ws i s) (hi : i ≤ n) {a : Nat}
    (ha : a < s0.smp.outBase ∨ s0.smp.outBase + texel * n ≤ a) : s.mem.byte a = s0.mem.byte a := by
  refine hl.outside a (Span_has_false_iff.mpr ?_)
  have : texel * i ≤ texel * n := Nat.mul_le_mul_left _ hi
  simp only; omega

/-- What a loop leaves as it was, and where its index and its free values stand. -/
theorem LoopAt_fields {s0 s : State} {texel draws i : Nat} {ws : Nat → List Word}
    (hl : LoopAt s0 texel draws ws i s) :
    s.index = some (BitVec.ofNat 32 i) ∧ s.smp = s0.smp ∧ s.cfg = s0.cfg ∧
      s.draws = s0.draws + draws * i := by
  have := hl.eq
  generalize s.mem = m at this
  subst this
  exact ⟨rfl, rfl, rfl, rfl⟩

/-- A byte that is read is not written (R64). -/
theorem not_written_of_read {s : State} {f : Footprint} (h : footprintOk s f) {a : Nat}
    (ha : f.reads.has a = true) : f.writes.has a = false := by
  have := h.2.2 a
  simp_all

/-- A Generic-Splat record depends on its 32 bytes (R78). -/
theorem genericRecord_congr {m m' : Memory} {a : Nat}
    (h : ∀ k < 32, m.byte (a + k) = m'.byte (a + k)) : genericRecord m a = genericRecord m' a := by
  have r : ∀ d, d + 4 ≤ 32 → m.read32 (a + d) = m'.read32 (a + d) := fun d hd =>
    read32_congr fun k hk => by rw [Nat.add_assoc]; exact h _ (by omega)
  have r0 := r 0 (by omega)
  rw [Nat.add_zero] at r0
  simp only [genericRecord, r0, r 4 (by omega), r 8 (by omega), r 12 (by omega), r 16 (by omega),
    r 20 (by omega), r 24 (by omega), h 28 (by omega), h 29 (by omega), h 30 (by omega),
    h 31 (by omega)]

/-- A Splat20 point depends on the bytes of the payload (R79). -/
theorem splat20Record_congr {cfg : Config} {m m' : Memory} {a n i : Nat} (hi : i < n)
    (h : ∀ k < 20 * n, m.byte (a + 8 + k) = m'.byte (a + 8 + k)) :
    splat20Record cfg m a n i = splat20Record cfg m' a n i := by
  have p : ∀ q ≤ 13, m.byte (splatPlaneAddr a n q i) = m'.byte (splatPlaneAddr a n q i) := by
    intro q hq
    have : (6 + q) * n ≤ 19 * n := Nat.mul_le_mul_right _ (by omega)
    rw [splatPlaneAddr, constants, Nat.add_assoc (a + 8)]
    exact h _ (by omega)
  have e : ∀ q ≤ 2, m.read24 (splatPosAddr a n q i) = m'.read24 (splatPosAddr a n q i) := by
    intro q hq
    refine read24_congr fun k hk => ?_
    have : 3 * q * n ≤ 6 * n := Nat.mul_le_mul_right _ (by omega)
    rw [splatPosAddr, constants, Nat.add_assoc (a + 8), Nat.add_assoc (a + 8)]
    exact h _ (by omega)
  simp only [splat20Record, e 0 (by omega), e 1 (by omega), e 2 (by omega), p 3 (by omega),
    p 4 (by omega), p 5 (by omega), p 6 (by omega), p 7 (by omega), p 8 (by omega), p 9 (by omega),
    p 10 (by omega), p 11 (by omega), p 12 (by omega), p 13 (by omega)]

/-- The texels of a footprint in order exist. -/
theorem texelsExist_of_footprint {s : State} {f : Footprint} {texel n : Nat}
    (h : footprintOk s f) (hw : f.writes = { base := s.smp.outBase, len := texel * n }) :
    texelsExist s texel n := by
  intro i hi j hj
  refine has_of_canWrite (h.2.1.2 _ ?_)
  rw [hw, Span_has_iff]
  have : texel * (i + 1) ≤ texel * n := Nat.mul_le_mul_left _ hi
  rw [Nat.mul_succ] at this
  simp only; omega

end Sys2Proof.Machine
end

