-- ==== Sys2Proof/Laws/PerInstr.lean ====
section
/-! SUPPORT. Laws stated once for each instruction. -/

/-- What the decoder answers is well formed and has an encoding (30_encoding.md R71, R75). -/
def Sys2Proof.Laws.DecodedWellFormed.Statement (i : Sys2Proof.Instr) : Prop :=
  ∀ e : Sys2Proof.Encoded, Sys2Proof.decode e = .ok i → i.wellFormed = true ∧ i.encodable = true

/-- The seven shapes the decoder can answer. -/
theorem Sys2Proof.decode_ok {e : Sys2Proof.Encoded} {i : Sys2Proof.Instr}
    (h : Sys2Proof.decode e = .ok i) : i.wellFormed = true ∧ i.encodable = true := by
  cases e with
  | cmd w =>
    simp only [Sys2Proof.decode, Sys2Proof.decodeCommand] at h
    split at h
    · cases h; exact ⟨rfl, rfl⟩
    split at h
    · cases h; exact ⟨rfl, rfl⟩
    split at h
    · cases h; exact ⟨rfl, rfl⟩
    cases h
  | block p =>
    simp only [Sys2Proof.decode, Sys2Proof.decodeTag] at h
    split at h
    · cases h; exact ⟨rfl, rfl⟩
    split at h
    · cases h; exact ⟨rfl, rfl⟩
    split at h
    · cases h; exact ⟨rfl, rfl⟩
    split at h
    · cases h; exact ⟨rfl, rfl⟩
    cases h

theorem Sys2Proof.Laws.DecodedWellFormed.validateHeader :
    Sys2Proof.Laws.DecodedWellFormed.Statement .validateHeader := fun _ => Sys2Proof.decode_ok

theorem Sys2Proof.Laws.DecodedWellFormed.decodePoints :
    Sys2Proof.Laws.DecodedWellFormed.Statement .decodePoints := fun _ => Sys2Proof.decode_ok

theorem Sys2Proof.Laws.DecodedWellFormed.decodeBlock :
    Sys2Proof.Laws.DecodedWellFormed.Statement .decodeBlock := fun _ => Sys2Proof.decode_ok

theorem Sys2Proof.Laws.DecodedWellFormed.splat20 (n : Sys2Proof.Word) :
    Sys2Proof.Laws.DecodedWellFormed.Statement (.splat20 n) := fun _ => Sys2Proof.decode_ok

theorem Sys2Proof.Laws.DecodedWellFormed.sh1 (n : Sys2Proof.Word) :
    Sys2Proof.Laws.DecodedWellFormed.Statement (.sh1 n) := fun _ => Sys2Proof.decode_ok

theorem Sys2Proof.Laws.DecodedWellFormed.sh12 (n : Sys2Proof.Word) :
    Sys2Proof.Laws.DecodedWellFormed.Statement (.sh12 n) := fun _ => Sys2Proof.decode_ok

theorem Sys2Proof.Laws.DecodedWellFormed.sh3 (n : Sys2Proof.Word) :
    Sys2Proof.Laws.DecodedWellFormed.Statement (.sh3 n) := fun _ => Sys2Proof.decode_ok

theorem Sys2Proof.Laws.DecodedWellFormed.floatToHalf (u : Sys2Proof.Word) :
    Sys2Proof.Laws.DecodedWellFormed.Statement (.floatToHalf u) := fun _ => Sys2Proof.decode_ok

theorem Sys2Proof.Laws.DecodedWellFormed.packHalf2x16 (ux uy : Sys2Proof.Word) :
    Sys2Proof.Laws.DecodedWellFormed.Statement (.packHalf2x16 ux uy) := fun _ => Sys2Proof.decode_ok

theorem Sys2Proof.Laws.DecodedWellFormed.writeGeometryTexel (o : Nat) (i : Sys2Proof.Word)
    (r : Sys2Proof.SplatRecord) :
    Sys2Proof.Laws.DecodedWellFormed.Statement (.writeGeometryTexel o i r) :=
  fun _ => Sys2Proof.decode_ok
end

