-- ==== Sys2Proof/Laws/Step.lean ====
section
/-! SUPPORT. What each meaning, the core's move and the host's moves can answer, said once, so that no proof
unfolds one of them: when it answers a next state, which; when it refuses, why. -/

namespace Sys2Proof.Machine

/-! ## One point -/

theorem hashByte_some {s : State} {i : Word} (h : s.index = some i) :
    hashByte s = bumpIndex { s with
      rs := s.rs.map (fun r => rollStep r (s.mem.byte (s.smp.inBase + i.toNat))) } := by
  simp only [hashByte, h]

theorem genericSplatPoint_some {s : State} {i : Word} (h : s.index = some i) :
    genericSplatPoint s = bumpIndex (writeTexel s.smp.outBase i
      (genericRecord s.mem (genericAddr s.smp.inBase i.toNat)) s) := by
  simp only [genericSplatPoint, h]

theorem splat20Point_some {s : State} {i n : Word} (h : s.index = some i) :
    splat20Point n s = bumpIndex (writeTexel s.smp.outBase i
      (splat20Record s.cfg s.mem s.smp.inBase n.toNat i.toNat) s) := by
  simp only [splat20Point, h]

theorem shPoint_some {s : State} {i : Word} {k : Nat} (h : s.index = some i) :
    shPoint k s = bumpIndex (putWords (shTexelAddr s.smp.outBase i.toNat)
      (shWords (shPack (shCoefficients s.mem s.smp.inBase k i.toNat))) 0 s) := by
  simp only [shPoint, h]

/-- An index below a 32-bit count is its own number. -/
theorem toNat_index {i : Nat} {n : Word} (h : i < n.toNat) : (BitVec.ofNat 32 i).toNat = i := by
  have := n.isLt
  rw [BitVec.toNat_ofNat]
  exact Nat.mod_eq_of_lt (by omega)

/-- The bytes of one more address. -/
theorem bytes_succ (m : Memory) (a n : Nat) : m.bytes a (n + 1) = m.bytes a n ++ [m.byte (a + n)] := by
  refine List.ext_getElem (by simp) fun j h1 h2 => ?_
  rw [bytes_getElem, List.getElem_append]
  simp only [bytes_length] at h1 ⊢
  split
  · rw [bytes_getElem]
  · have : j = n := by omega
    subst this
    simp

/-- The rolling sum after `k` bytes (R121). -/
theorem hashByte_iterate (s : State) : ∀ k ≤ constants.hashLen, hashByte^[k] (headerBegin s) =
    { s with index := some (BitVec.ofNat 32 k), rs := some (rollingSum (s.mem.bytes s.smp.inBase k)) }
  | 0, _ => rfl
  | k + 1, h => by
    have hk : (BitVec.ofNat 32 k).toNat = k := by
      rw [BitVec.toNat_ofNat]
      refine Nat.mod_eq_of_lt ?_
      simp only [constants] at h
      omega
    rw [Function.iterate_succ_apply', hashByte_iterate s k (by omega), bytes_succ, hashByte]
    simp only [bumpIndex, Option.map_some, hk, rollingSum, List.foldl_append, List.foldl_cons,
      List.foldl_nil]
    rw [BitVec.ofNat_add]
    rfl

/-! ## The meanings -/

theorem execValidateHeader_next {s t : State} : execValidateHeader s = .next t ↔
    headerCheck s = none ∧ headerEnd (hashByte^[constants.hashLen] (headerBegin s)) = t := by
  simp only [execValidateHeader, refuseOr_next, Host.Outcome.next.injEq]

theorem execDecodePoints_next {s t : State} : execDecodePoints s = .next t ↔
    pointsCheck s = none ∧
      complete constants.statusOk (genericSplatPoint^[s.smp.count.toNat] (pointsBegin s)) = t := by
  simp only [execDecodePoints, refuseOr_next, Host.Outcome.next.injEq]

theorem execSplat20_next {s t : State} {n : Word} : execSplat20 n s = .next t ↔
    splat20Check n s = none ∧ complete constants.statusOk ((splat20Point n)^[n.toNat] (beginIndex s)) = t := by
  simp only [execSplat20, refuseOr_next, Host.Outcome.next.injEq]

theorem shDecode_next {s t : State} {k : Nat} {n : Word} : shDecode k n s = .next t ↔
    shCheck k n s = none ∧ complete constants.statusOk ((shPoint k)^[n.toNat] (beginIndex s)) = t := by
  simp only [shDecode, refuseOr_next, Host.Outcome.next.injEq]

theorem execWriteGeometryTexel_next {s t : State} {o : Nat} {i : Word} {r : SplatRecord} :
    execWriteGeometryTexel o i r s = .next t ↔ texelCheck o i s = none ∧ writeTexel o i r s = t := by
  simp only [execWriteGeometryTexel, refuseOr_next, Host.Outcome.next.injEq]

theorem execDecodeBlock_next {s t : State} : execDecodeBlock s = .next t ↔
    prefixCheck s = none ∧ dispatchTag (s.mem.read32 (s.smp.inBase + 4))
      (s.mem.read32 s.smp.inBase) (latchPrefix s) = .next t := by
  simp only [execDecodeBlock, refuseOr_next]

/-- A command that passes its prefix check dispatches on the two words of the prefix (R161). -/
theorem execDecodeBlock_of_check {s : State} (h : prefixCheck s = none) :
    execDecodeBlock s = dispatchTag (s.mem.read32 (s.smp.inBase + 4)) (s.mem.read32 s.smp.inBase)
      (latchPrefix s) := by
  rw [execDecodeBlock, h, refuseOr_none]

/-- A checked meaning with a next state behind its check never faults, and refuses only what the check
names. -/
theorem refuseOr_next_cases {c : Option Refusal} {t : State} {o : Out} (h : refuseOr c (.next t) = o) :
    (c = none ∧ o = .next t) ∨ ∃ r, c = some r ∧ o = .refused r := by
  cases c with
  | none => exact .inl ⟨rfl, h.symm⟩
  | some r => exact .inr ⟨r, rfl, h.symm⟩

/-! ## The tag -/

/-- The five arms of the dispatch (R75, R161). -/
theorem dispatchTag_cases (tag n : Word) (s : State) :
    (tag = 20 ∧ layoutOf tag = some (20, 32) ∧ decodeTag tag n = .ok (.splat20 n) ∧
        dispatchTag tag n s = execSplat20 n s) ∨
      (tag = 1 ∧ layoutOf tag = some (9, 16) ∧ decodeTag tag n = .ok (.sh1 n) ∧
        dispatchTag tag n s = shDecode 9 n s) ∨
      (tag = 2 ∧ layoutOf tag = some (24, 16) ∧ decodeTag tag n = .ok (.sh12 n) ∧
        dispatchTag tag n s = shDecode 24 n s) ∨
      (tag = 3 ∧ layoutOf tag = some (21, 16) ∧ decodeTag tag n = .ok (.sh3 n) ∧
        dispatchTag tag n s = shDecode 21 n s) ∨
      (tag ≠ 20 ∧ tag ≠ 1 ∧ tag ≠ 2 ∧ tag ≠ 3 ∧ layoutOf tag = none ∧
        decodeTag tag n = .error .unsupportedTag ∧
        dispatchTag tag n s = .next (complete constants.statusFail s)) := by
  by_cases h20 : tag = 20
  · subst h20; exact .inl ⟨rfl, rfl, rfl, rfl⟩
  by_cases h1 : tag = 1
  · subst h1; exact .inr (.inl ⟨rfl, rfl, rfl, rfl⟩)
  by_cases h2 : tag = 2
  · subst h2; exact .inr (.inr (.inl ⟨rfl, rfl, rfl, rfl⟩))
  by_cases h3 : tag = 3
  · subst h3; exact .inr (.inr (.inr (.inl ⟨rfl, rfl, rfl, rfl⟩)))
  refine .inr (.inr (.inr (.inr ⟨h20, h1, h2, h3, ?_, ?_, ?_⟩)))
  · simp only [layoutOf, constants, h20, h1, h2, h3, if_false]
  · simp only [decodeTag, constants, h20, h1, h2, h3, if_false]
  · simp only [dispatchTag, constants, h20, h1, h2, h3, if_false]

@[simp] theorem prefixTag_prefixWord (tag n : Word) : prefixTag (prefixWord tag n) = tag := by
  rw [prefixTag, prefixWord, BitVec.extractLsb'_append_eq_left]

@[simp] theorem prefixCount_prefixWord (tag n : Word) : prefixCount (prefixWord tag n) = n := by
  rw [prefixCount, prefixWord, BitVec.extractLsb'_append_eq_right]

/-- The decoding of a latched prefix. -/
theorem decode_prefixWord (tag n : Word) : decode (.block (prefixWord tag n)) = decodeTag tag n := by
  simp [decode]

/-- The command words that decode (R71). -/
theorem decodeCommand_ok {w : Word} {i : Instr} (h : decodeCommand w = .ok i) :
    (w = 0 ∧ i = .validateHeader) ∨ (w = 1 ∧ i = .decodePoints) ∨ (w = 2 ∧ i = .decodeBlock) := by
  unfold decodeCommand at h
  split at h
  · cases h; simp_all
  split at h
  · cases h; simp_all
  split at h
  · cases h; simp_all
  cases h

/-! ## The core's move -/

theorem coreStep_idle {s : State} (h : s.busy = false) : coreStep s = .next s := by
  simp [coreStep, fetch, h]

/-- A running command whose prefix is not latched. -/
theorem coreStep_command {s : State} {i : Instr} (hb : s.busy = true) (ht : s.tag = none)
    (hd : decodeCommand s.smp.op = .ok i) : coreStep s = exec i s := by
  have hf : fetch s = some (.cmd s.smp.op) := by
    simp only [fetch, hb, ht, if_true]
    cases s.n <;> rfl
  simp only [coreStep, hf, decode, hd]

/-- A running command whose prefix is latched. -/
theorem coreStep_block {s : State} {i : Instr} {n tag : Word} (hb : s.busy = true) (hn : s.n = some n)
    (ht : s.tag = some tag) (hd : decodeTag tag n = .ok i) : coreStep s = exec i s := by
  have hf : fetch s = some (.block (prefixWord tag n)) := by simp only [fetch, hb, hn, ht, if_true]
  simp only [coreStep, hf, decode_prefixWord, hd]

/-- In a state the invariant allows, a running core runs one of the three commands, and that command has
passed its checks. -/
theorem coreStep_running {s : State} (h : StateInv s) (hb : s.busy = true) :
    ∃ i, decodeCommand s.smp.op = .ok i ∧ startCheck i s = none ∧ coreStep s = exec i s := by
  obtain ⟨-, -, -, -, -, hc⟩ := h
  obtain ⟨-, -, -, ht, -, i, hd, hs⟩ := hc hb
  exact ⟨i, hd, hs, coreStep_command hb ht hd⟩

/-! ## The host's moves -/

theorem hostStart_next {s t : State} : hostStart s = .next t ↔ ∃ w i, s.op = some w ∧
    decodeCommand w = .ok i ∧ s.busy = false ∧ operandsWritten i s = true ∧
      startCheck i (sample s) = none ∧ beginCommand s = t := by
  unfold hostStart
  cases hop : s.op with
  | none => cases hb : s.busy <;> simp
  | some w =>
    cases hd : decodeCommand w with
    | error e => simp [hd]
    | ok i => cases hb : s.busy <;> cases ho : operandsWritten i s <;> simp [hd, refuseOr_next, ho]

theorem hostReset_next {s t : State} : hostReset s = .next t ↔
    (s.busy = false ∧ resetRegisters s = t) ∨
      (s.busy = true ∧ resetRegisters (abandon (runningFootprint s) s) = t) := by
  unfold hostReset
  cases hb : s.busy <;> simp

theorem hostAwait_next {s t : State} : hostAwait s = .next t ↔
    (s.busy = false ∧ { s with held := [] } = t) ∨
      (s.busy = true ∧ ∃ u, coreStep s = .next u ∧ requeue .await u = t) := by
  unfold hostAwait
  cases hb : s.busy <;> simp [mapNext_eq_next, observeBusy, hb]

theorem hostLoad_next {s t : State} {a : Nat} : hostLoad a s = .next t ↔
    heldOutput s a = false ∧ s.mem.has a = true ∧ s = t := by
  unfold hostLoad
  cases heldOutput s a <;> cases s.mem.has a <;> simp

theorem hostStore_next {s t : State} {a : Nat} {b : Byte} : hostStore a b s = .next t ↔
    heldBuffer s a = false ∧ s.mem.has a = true ∧ { s with mem := s.mem.setByte a b } = t := by
  unfold hostStore
  cases heldBuffer s a <;> cases s.mem.has a <;> simp

/-- Which addresses the host may not load. -/
theorem heldOutput_iff {s : State} {a : Nat} :
    heldOutput s a = true ↔ ∃ f ∈ s.held, f.writes.has a = true := by
  simp [heldOutput]

/-- Which addresses the host may not store to. -/
theorem heldBuffer_iff {s : State} {a : Nat} :
    heldBuffer s a = true ↔ ∃ f ∈ s.held, f.reads.has a = true ∨ f.writes.has a = true := by
  simp [heldBuffer]

/-- The checks at `start` read the sampled operands, the parameters and the memory map, nothing else. -/
theorem startCheck_congr {s t : State} (i : Instr) (h1 : t.smp = s.smp) (h2 : t.cfg = s.cfg)
    (h3 : t.mem.map = s.mem.map) : startCheck i t = startCheck i s := by
  cases i <;> simp only [startCheck, headerCheck, pointsCheck, prefixCheck, h1, headerFootprint,
    pointsFootprint, prefixFootprint, footprintCheck_congr h2 h3]

/-! ## The per-point form -/

@[simp] theorem pointBody_validateHeader : pointBody .validateHeader = hashByte := rfl

@[simp] theorem pointBody_decodePoints : pointBody .decodePoints = genericSplatPoint := rfl

@[simp] theorem pointBody_splat20 (n : Word) : pointBody (.splat20 n) = splat20Point n := rfl

@[simp] theorem pointBody_sh1 (n : Word) : pointBody (.sh1 n) = shPoint 9 := rfl

@[simp] theorem pointBody_sh12 (n : Word) : pointBody (.sh12 n) = shPoint 24 := rfl

@[simp] theorem pointBody_sh3 (n : Word) : pointBody (.sh3 n) = shPoint 21 := rfl

/-- A run of per-point steps is one run after another. -/
theorem perPointRun_add (a b : Nat) {s t : State} (h : perPointRun a s = .next t) :
    perPointRun (a + b) s = perPointRun b t := by
  induction a generalizing s with
  | zero => cases h; simp
  | succ a ih =>
    rw [Nat.succ_add]
    simp only [perPointRun] at h ⊢
    split at h
    · exact ih h
    · cases h
    · cases h

theorem perPointRun_one (s : State) : perPointRun 1 s = perPointStep s := by
  simp only [perPointRun]
  split <;> simp_all

end Sys2Proof.Machine
end

