-- ==== Sys2Proof/Tests/Slice0.lean ====
section
/-! SUPPORT. Tests with values of spec/ (95_test_vectors.md unless another file is named), the smoke test of
WellFormed, words written out from the encodings, and for each statement a state and operands that meet
its hypotheses. -/

open Sys2Proof Sys2Proof.Machine

set_option maxRecDepth 100000

namespace Sys2Proof.Tests

/-! ## Helpers -/

/-- The reset memory with some bytes stored. -/
def memWith (a : Nat) (bs : List Byte) : Memory := resetMemory.setBytes a bs

/-- An idle core with these registers. -/
def idle (op : Word) (i o : Nat) (c : Word) (m : Memory) : State :=
  { State.reset with op := some op, inBase := some i, outBase := some o, count := some c, mem := m }

/-- A core that runs a command, as `start` leaves it. -/
def running (op : Word) (i o : Nat) (c : Word) (m : Memory) : State :=
  let s := { State.reset with busy := true, mem := m,
                              smp := { op := op, inBase := i, outBase := o, count := c } }
  { s with held := [runningFootprint s] }

/-- The host's coming moves. -/
def withMoves (q : List HostMove) (s : State) : State := { s with hostQueue := q }

/-- The `n` words at `a` after a move; none if it does not go on. -/
def wordsAfter (o : Out) (a n : Nat) : List Word :=
  match o with
  | .next s => (List.range n).map fun k => s.mem.read32 (a + 4 * k)
  | _ => []

/-- STATUS and BUSY after a move. -/
def endOf (o : Out) : Option (Word × Bool) := (nextState o).map fun s => (s.status, s.busy)

/-- A running state the invariant allows. -/
theorem running_inv {op c : Word} {i o : Nat} {m : Memory} {ins : Instr} (hm : m.wf = true)
    (hmap : m.map = resetMemory.map) (hi : i < 2 ^ 32) (ho : o < 2 ^ 32)
    (hd : decodeCommand op = .ok ins) (hs : startCheck ins (running op i o c m) = none) :
    StateInv (running op i o c m) := by
  refine ⟨hm, ⟨le_refl 32, ?_⟩, ⟨?_, ?_, hi, ho⟩, .inl rfl, ?_, ?_⟩
  · intro r hr
    simp only [running, hmap, resetMemory, List.mem_singleton] at hr
    subst hr
    exact le_refl (2 ^ 32)
  · intro a h; cases h
  · intro a h; cases h
  · intro h; cases h
  · intro _; exact ⟨rfl, rfl, rfl, rfl, List.mem_singleton_self _, ins, hd, hs⟩

/-- A footprint in order, by evaluation. -/
theorem ok_of_check {s : State} {f : Footprint} (hm : s.mem.wf = true) (h : footprintCheck s f = none) :
    footprintOk s f := (footprintCheck_none hm).mp h

/-- A footprint not in order, by evaluation. -/
theorem not_ok_of_check {s : State} {f : Footprint} {r : Refusal} (hm : s.mem.wf = true)
    (h : footprintCheck s f = some r) : ¬ footprintOk s f := fun hf => by
  rw [(footprintCheck_none hm).mpr hf] at h
  cases h

/-! ## WellFormed -/

/-- 20_memory.md R46. -/
theorem test_wellFormed_refuses_misaligned_base :
    (Instr.writeGeometryTexel 2 0 (genericRecord resetMemory 0)).wellFormed = false ∧
      (Instr.writeGeometryTexel 4 0 (genericRecord resetMemory 0)).wellFormed = true := by decide

/-! ## Decoding: words written out from 30_encoding.md R70, R71, R74, R75 -/

theorem test_decode_commands :
    decode (.cmd 0b00000000000000000000000000000000) = .ok .validateHeader ∧
    decode (.cmd 0b00000000000000000000000000000001) = .ok .decodePoints ∧
    decode (.cmd 0b00000000000000000000000000000010) = .ok .decodeBlock := by decide

/-- Section 5: bytes `02 00 00 00 14 00 00 00`, and 30_encoding.md R75 for the other tags. -/
theorem test_decode_blocks :
    decodeBytes [0x02, 0, 0, 0, 0x14, 0, 0, 0] = some (.splat20 2) ∧
    decodeBytes [0x02, 0, 0, 0, 0x01, 0, 0, 0] = some (.sh1 2) ∧
    decodeBytes [0x14, 0, 0, 0, 0x02, 0, 0, 0] = some (.sh12 20) ∧
    decodeBytes [0x00, 0, 0, 0, 0x03, 0, 0, 0] = some (.sh3 0) := by decide

/-- Program 4 and section 5: reserved words, and a tag whose low byte alone agrees. -/
theorem test_decode_rejects :
    decode (.cmd 3) = .error .reservedOpcode ∧ decode (.cmd 0x00000100) = .error .reservedOpcode ∧
    decode (.block 0x0100001400000002) = .error .unsupportedTag ∧
    decodeBytes [0x02, 0, 0, 0, 0x63, 0, 0, 0] = none ∧ decodeBytes [0, 0, 0] = none := by decide

/-- The fetch interface: the very next step after `withFetchWord` runs the word (R71, R75; a header of
zeros does not validate, R124; a block of no points completes with 0, R164). -/
theorem test_fetch_runs_word :
    endOf (step (State.reset.withFetchWord 32 0)) = some (1, false) ∧
    endOf (step (State.reset.withFetchWord 32 1)) = some (0, false) ∧
    endOf (step (State.reset.withFetchWord 32 2)) = some (1, false) ∧
    endOf (step (State.reset.withFetchWord 64 0x0000001400000000)) = some (0, false) ∧
    endOf (step (State.reset.withFetchWord 64 0x0000000200000003)) = some (0, false) := by decide

/-! ## VALIDATE_HEADER: section 3 -/

/-- The header `73 70 78`, 121 zeros, checksum `0E 78 A1 73`, at 0x1000. -/
def spxHeader : Memory := (memWith 0x1000 [0x73, 0x70, 0x78]).setBytes 0x107C [0x0E, 0x78, 0xA1, 0x73]

theorem test_validateHeader_accepts :
    endOf (exec .validateHeader (running 0 0x1000 0 0 spxHeader)) = some (0, false) := by decide

theorem test_validateHeader_byte_123 :
    endOf (exec .validateHeader (running 0 0x1000 0 0 (spxHeader.setByte 0x107B 1))) =
      some (1, false) := by decide

/-! ## FLOAT_TO_HALF and PACK_HALF2X16: sections 1 and 2 -/

theorem test_floatToHalf_bands :
    [0x80000001, 0x337FFFFF, 0x33800000, 0x387FFFFF, 0x38800000, 0x46FFFFFF, 0x47000000, 0xFFC00001,
      0x3F801FFF].map (floatToHalf defaultConfig) =
      [0x8000, 0x0000, 0x0001, 0x03FF, 0x0400, 0x77FF, 0x7C00, 0xFC00, 0x3C00] := by decide

/-- R107 (section 2 gives the value) and R102. -/
theorem test_floatToHalf_alternatives :
    floatToHalf { defaultConfig with halfRound := .nearestEven } 0x3F801FFF = 0x3C01 ∧
    floatToHalf { defaultConfig with subnormal := .passTop10 } 0x007FFFFF = 0x03FF := by decide

theorem test_packHalf2x16 :
    (nextState (exec (.packHalf2x16 0xBF800000 0x3F000000) State.reset)).map (fun s => s.packed) =
      some (some 0x3800BC00) := by decide

/-! ## WRITE_GEOMETRY_TEXEL: vectors C-3 and C-6 -/

/-- A texel write at base 0x40. -/
def texelOf (r : SplatRecord) : List Word :=
  wordsAfter (exec (.writeGeometryTexel 0x40 1 r) State.reset) 0x60 8

theorem test_writeGeometryTexel_c3 :
    texelOf { px := 0x3F000000, py := 0xBE800000, pz := 0x41000000, sx := 0x3F800000, sy := 0x40000000,
              sz := 0x40400000, qx := 0, qy := 0, qz := 0x3F340000, qw := 0x3F340000,
              rgba := 0x80FF8040 } =
      [0x3F000000, 0xBE800000, 0x41000000, 0, 0x800B4BFF, 0x43FF0000, 0x50800000, 0x80FF8040] := by
  decide

theorem test_writeGeometryTexel_c6 :
    texelOf { px := 0, py := 0, pz := 0, sx := 0x42C80000, sy := 0x3F800000, sz := 0x60AD78EC,
              qx := 0, qy := 0, qz := 0, qw := 0x3F800000, rgba := 0 } =
      [0, 0, 0, 0, 0x00007C00, 0x44000000, 0x7C000000, 0] := by
  decide

/-! ## DECODE_POINTS: vector P4, program 4 -/

/-- Record P4 at 0x3000. -/
def recordP4 : Memory :=
  memWith 0x3000 [0x00, 0x00, 0x80, 0x3F, 0x00, 0x00, 0x00, 0x40, 0x00, 0x00, 0x40, 0x40, 0x00, 0x00,
    0x00, 0x3F, 0x00, 0x00, 0xC0, 0x3F, 0x00, 0x00, 0x80, 0x3E, 0x04, 0x03, 0x02, 0x01, 0xA0, 0x60,
    0xC8, 0xE6]

theorem test_decodePoints_p4 :
    wordsAfter (exec .decodePoints (running 1 0x3000 0x4000 1 recordP4)) 0x4000 8 =
      [0x3F800000, 0x40000000, 0x40400000, 0, 0xC0984819, 0x3D9BBA1C, 0x393838F8, 0x01020304] := by
  decide

theorem test_decodePoints_refusals :
    refusalOf (exec .decodePoints (running 1 0x3000 0x4002 1 recordP4)) = some .misalignedBase ∧
    refusalOf (exec .decodePoints (running 1 0x3000 0x3020 2 recordP4)) = some .inputOutputOverlap := by
  decide

/-! ## SPLAT20 and DECODE_BLOCK: block B20, section 5 -/

/-- Block B20 at 0x1080. -/
def blockB20 : Memory :=
  memWith 0x1080 [0x02, 0x00, 0x00, 0x00, 0x14, 0x00, 0x00, 0x00, 0x00, 0x10, 0x00, 0xFF, 0xFF, 0xFF,
    0x00, 0xF0, 0xFF, 0xFF, 0xFF, 0x7F, 0x00, 0x08, 0x00, 0x00, 0x00, 0x80, 0xA0, 0xB0, 0xA0, 0x90,
    0xA0, 0x00, 0x10, 0x01, 0x20, 0x02, 0x30, 0x03, 0xFF, 0x04, 0x80, 0xDA, 0x80, 0x80, 0x80, 0x80,
    0xFF, 0xDA]

theorem test_splat20_b20 :
    wordsAfter (exec (.splat20 2) (running 2 0x1080 0x2000 0 blockB20)) 0x2020 8 =
      [0xB9800000, 0x44FFFFFE, 0xC5000000, 0, 0x00004F63, 0, 0x38540000, 0x04030201] := by
  decide

theorem test_decodeBlock_b20 :
    wordsAfter (exec .decodeBlock (running 2 0x1080 0x2000 0 blockB20)) 0x2000 8 =
      [0x3F800000, 0xBF800000, 0x3F000000, 0, 0x00004400, 0x44000000, 0x44000000, 0xFF302010] := by
  decide

/-- Prefix `FF FF FF FF 63 00 00 00` completes with 1; with tag 20 it is refused (program 4). -/
theorem test_decodeBlock_tag_before_footprint :
    endOf (exec .decodeBlock (running 2 0x5000 0x6000 0
      (memWith 0x5000 [0xFF, 0xFF, 0xFF, 0xFF, 0x63, 0, 0, 0]))) = some (1, false) ∧
    refusalOf (exec .decodeBlock (running 2 0x5000 0x6000 0
      (memWith 0x5000 [0xFF, 0xFF, 0xFF, 0xFF, 0x14, 0, 0, 0]))) = some .footprintWraps := by
  decide

/-! ## SH1, SH12, SH3: vectors S3, S6, S8 -/

/-- Coefficient bytes `08 10 18 ...` at 0x5008. -/
def coefficients (k : Nat) : Memory :=
  memWith 0x5008 ((List.range k).map fun j => BitVec.ofNat 8 (8 * (j + 1)))

theorem test_sh1_s3 :
    wordsAfter (exec (.sh1 1) (running 2 0x5000 0x6000 0 (coefficients 9))) 0x6000 4 =
      [0x08864298, 0xE8480000, 0, 1] := by decide

theorem test_sh12_s6 :
    wordsAfter (exec (.sh12 1) (running 2 0x5000 0x6000 0 (coefficients 24))) 0x6000 4 =
      [0x08864298, 0xE84A96C6, 0xB9F08CA7, 0x4ADAF801] := by decide

theorem test_sh3_s8 :
    wordsAfter (exec (.sh3 1) (running 2 0x5000 0x6000 0 (coefficients 21))) 0x6000 4 =
      [0x08864298, 0xE84A96C6, 0xB9F08CA7, 0x4A800001] := by decide

/-! ## Witnesses: for each statement with hypotheses, a state and operands that meet them -/

theorem test_witness_DecodeInvertsEncode :
    Instr.wellFormed (.sh3 0xFFFFFFFF) = true ∧
    encode (.sh3 0xFFFFFFFF) = some (.block 0x00000003FFFFFFFF) ∧ encode .decodeBlock = some (.cmd 2) ∧
    decode (.block 0x00000003FFFFFFFF) = .ok (.sh3 0xFFFFFFFF) := by decide

theorem test_witness_ReservedEncodingsRejected :
    opReserved 4 ≠ 0 ∧ opReserved 0x80000000 ≠ 0 ∧ opcodeField 3 = 3 ∧ opReserved 3 = 0 ∧
    decodeCommand 4 = .error .reservedOpcode ∧ decodeTag 4 0 = .error .unsupportedTag := by decide

theorem test_witness_StepRunsDecodedOperation :
    (State.reset.hostQueue = [] ∧ State.reset.busy = false) ∧
    (∃ s : State, s.hostQueue = [] ∧ s.busy = true ∧ s.tag = none ∧
      decode (.cmd s.smp.op) = .ok .decodeBlock) ∧
    (∃ s : State, s.hostQueue = [] ∧ s.busy = true ∧ s.n = some 0xFFFFFFFF ∧ s.tag = some 3 ∧
      decode (.block ((3 : Word) ++ (0xFFFFFFFF : Word))) = .ok (.sh3 0xFFFFFFFF)) :=
  ⟨⟨rfl, rfl⟩, ⟨running 2 0 0 0 resetMemory, by decide⟩,
    ⟨State.reset.withFetchWord 64 0x00000003FFFFFFFF, by decide⟩⟩

theorem test_witness_HostWriteChangesOneRegister :
    (withMoves [.write .op 0xFFFFFFFF] State.reset).hostQueue = .write .op 0xFFFFFFFF :: [] ∧
    (withMoves [.write .inBase 0xFFFFFFFF] State.reset).hostQueue = .write .inBase 0xFFFFFFFF :: [] ∧
    (withMoves [.write .outBase 0xFFFFFFFF] State.reset).hostQueue = .write .outBase 0xFFFFFFFF :: [] ∧
    (withMoves [.write .count 0xFFFFFFFF] State.reset).hostQueue = .write .count 0xFFFFFFFF :: [] ∧
    (withMoves [.write .status 1] State.reset).hostQueue = .write .status 1 :: [] ∧
    0xFFFFFFFF < 2 ^ State.reset.cfg.addrW ∧ State.reset.op = none ∧ State.reset.inBase = none ∧
    State.reset.outBase = none ∧ State.reset.count = none := by decide

/-- A header that ends at the top of the address space, no points, and a prefix that ends there. -/
theorem test_witness_StartSamplesOperands :
    (∃ s : State, s.hostQueue = .start :: [] ∧ s.mem.wf = true ∧ s.busy = false ∧
      s.inBase = some 0xFFFFFF80 ∧ s.op = some 0 ∧
      footprintOk s { reads := { base := 0xFFFFFF80, len := 128 }, writes := noSpan }) ∧
    (∃ s : State, s.hostQueue = .start :: [] ∧ s.mem.wf = true ∧ s.busy = false ∧
      s.inBase = some 0xFFFFFFE0 ∧ s.op = some 1 ∧ s.outBase = some 0xFFFFFFC0 ∧ s.count = some 1 ∧
      footprintOk s { reads := { base := 0xFFFFFFE0, len := 32 * (1 : Word).toNat },
                      writes := { base := 0xFFFFFFC0, len := 32 * (1 : Word).toNat } }) ∧
    (∃ s : State, s.hostQueue = .start :: [] ∧ s.mem.wf = true ∧ s.busy = false ∧
      s.inBase = some 0xFFFFFFF8 ∧ s.op = some 2 ∧ s.outBase = some 0 ∧
      footprintOk s { reads := { base := 0xFFFFFFF8, len := 8 }, writes := noSpan }) :=
  ⟨⟨withMoves [.start] (idle 0 0xFFFFFF80 0 0 resetMemory), rfl, by decide, rfl, rfl, rfl,
      ok_of_check (by decide) (by decide)⟩,
    ⟨withMoves [.start] (idle 1 0xFFFFFFE0 0xFFFFFFC0 1 resetMemory), rfl, by decide, rfl, rfl, rfl, rfl,
      rfl, ok_of_check (by decide) (by decide)⟩,
    ⟨withMoves [.start] (idle 2 0xFFFFFFF8 0 0 resetMemory), rfl, by decide, rfl, rfl, rfl, rfl,
      ok_of_check (by decide) (by decide)⟩⟩

/-- Program 4 and R223: each start that is refused; of the footprints, each verdict of each command. -/
theorem test_witness_StartRefusals :
    [withMoves [.start] State.reset,
      withMoves [.start] (idle 3 0 0 0 resetMemory),
      withMoves [.start] (idle 0x00000100 0 0 0 resetMemory),
      withMoves [.start] { running 2 0 0 0 resetMemory with op := some 2 },
      withMoves [.start] { State.reset with op := some 0 },
      withMoves [.start] { idle 1 0x3000 0x4000 0 resetMemory with count := none },
      withMoves [.start] { idle 2 0x3000 0x4000 0 resetMemory with outBase := none },
      withMoves [.start] (idle 0 2 0 0 resetMemory),
      withMoves [.start] (idle 1 0x3000 0x4002 1 resetMemory),
      withMoves [.start] (idle 2 1 0 0 resetMemory),
      withMoves [.start] { State.reset with busy := true },
      withMoves [.start] (idle 0 0xFFFFFF84 0 0 resetMemory),
      withMoves [.start] (idle 0 0 0 0 { map := [{ base := 0, size := 127, writable := true }], cells := [] }),
      withMoves [.start] (idle 1 0x3000 0xFFFFFFE4 1 resetMemory),
      withMoves [.start] (idle 1 0x3000 0x301C 1 resetMemory),
      withMoves [.start] (idle 2 0xFFFFFFFC 0 0 resetMemory)].map (fun s => refusalOf (step s)) =
    [some .operandNotWritten, some .reservedOpcode, some .reservedOpcode, some .startWhileBusy,
      some .operandNotWritten, some .operandNotWritten, some .operandNotWritten, some .misalignedBase,
      some .misalignedBase, some .misalignedBase, some .startWhileBusy, some .footprintWraps,
      some .footprintOutsideMemory, some .footprintWraps, some .inputOutputOverlap,
      some .footprintWraps] := by decide

/-- A memory of 127 bytes. -/
def shortMemory : Memory := { map := [{ base := 0, size := 127, writable := true }], cells := [] }

/-- Each verdict at its boundary: one byte past the top; one byte past a region; one shared byte; none. -/
theorem test_witness_FootprintRefusals :
    State.reset.mem.wf = true ∧
    footprintCheck State.reset { reads := { base := 0xFFFFFF81, len := 128 }, writes := noSpan } =
      some .footprintWraps ∧
    footprintCheck { State.reset with mem := shortMemory } { reads := { base := 0, len := 128 }, writes := noSpan } =
      some .footprintOutsideMemory ∧
    footprintCheck State.reset { reads := { base := 0, len := 32 }, writes := { base := 31, len := 32 } } =
      some .inputOutputOverlap ∧
    footprintCheck State.reset { reads := { base := 0, len := 32 }, writes := { base := 32, len := 32 } } =
      none := by decide

theorem test_witness_BrokenPreconditionsRefused :
    (running 0 2 0 0 resetMemory).smp.inBase % 4 ≠ 0 ∧ (running 1 0 2 0 resetMemory).smp.outBase % 4 ≠ 0 ∧
    (running 2 0 1 0 resetMemory).smp.outBase % 4 ≠ 0 ∧ 0xFFFFFFDF % 4 ≠ 0 ∧
    refusalOf (exec (.writeGeometryTexel 0xFFFFFFDF 0 (genericRecord resetMemory 0)) State.reset) =
      some .misalignedBase ∧
    (let s := running 0 0xFFFFFFC0 0 0 resetMemory
     footprintCheck s (headerFootprint s) = some .footprintWraps) ∧
    (let s := running 1 0x3000 0x3000 1 resetMemory
     footprintCheck s (pointsFootprint s) = some .inputOutputOverlap) ∧
    (let s := running 2 0xFFFFFFFC 0 0 resetMemory
     footprintCheck s (prefixFootprint s) = some .footprintWraps) ∧
    (let s := running 2 0x5000 0x6000 0 resetMemory
     footprintCheck s (blockFootprint s 20 32 0xFFFFFFFF) = some .footprintWraps ∧
     footprintCheck s (blockFootprint s 9 16 0xFFFFFFFF) = some .footprintWraps ∧
     footprintCheck s (blockFootprint s 24 16 0xFFFFFFFF) = some .footprintWraps ∧
     footprintCheck s (blockFootprint s 21 16 0xFFFFFFFF) = some .footprintWraps) ∧
    footprintCheck State.reset (texelFootprint 0xFFFFFFE4 0) = some .footprintWraps := by decide

theorem test_witness_ResetClearsRegisters :
    (nextState (step (withMoves [.reset] (running 0 0x1000 0 0 resetMemory)))).isSome = true ∧
    (withMoves [.reset] (idle 0 0 0 0 resetMemory)).busy = false := by decide

/-- An SH1 block of one point on a core whose output stands on its input: its payload footprint is broken. -/
def overlappingBlock : State := running 2 0x5000 0x5000 0 (memWith 0x5000 [1, 0, 0, 0, 1])

/-- An SH1 block of one point whose output lies in memory the core may not write. -/
def readOnlyOutput : State :=
  running 2 0 0x40 0 (Memory.setBytes
    { map := [{ base := 0, size := 0x40, writable := true }, { base := 0x40, size := 0x40, writable := false }],
      cells := [] } 0 [1, 0, 0, 0, 1])

/-- Program 5 with one point, and a footprint that is not in order. -/
theorem test_witness_ResetAbandonsCommand :
    (let s := withMoves [.reset] (running 1 0x3000 0x4000 1 resetMemory)
     s.hostQueue = .reset :: [] ∧ s.mem.wf = true ∧ s.busy = true ∧
      (runningFootprint s).writes = { base := 0x4000, len := 32 } ∧ s.mem.has 0x401F = true ∧
      (runningFootprint s).reads.has 0x301F = true ∧ footprintApart (runningFootprint s)) ∧
    readOnlyOutput.mem.wf = true ∧ readOnlyOutput.busy = true ∧
    refusalOf (coreStep readOnlyOutput) = some .footprintOutsideMemory := by
  refine ⟨⟨rfl, by decide, rfl, by decide, by decide, by decide, ?_⟩, by decide⟩
  exact (ok_of_check (s := running 1 0x3000 0x4000 1 resetMemory) (by decide) (by decide)).2.2

/-- R251: every byte of the output holds a free value, also where the core may not write. -/
theorem test_reset_frees_every_output_byte :
    readOnlyOutput.mem.canWrite 0x4F = false ∧
    (nextState (hostReset readOnlyOutput)).map (fun s => s.mem.byte 0x4F) =
      some (Config.resetByte 0x0F) := by
  refine ⟨by decide, congrArg some ?_⟩
  exact byte_scramble (m := readOnlyOutput.mem) (by decide) 0x40 0 16 0x4F

/-- R250, R251: reset is made at any time, also of a block that its payload check would refuse. -/
theorem test_reset_of_a_broken_block :
    refusalOf (coreStep overlappingBlock) = some .inputOutputOverlap ∧
    endOf (step (withMoves [.reset] overlappingBlock)) = some (0, false) := by decide

/-- The last byte of each footprint, and the first past it. -/
theorem test_witness_HostAccessAndRunningFootprint :
    let s := running 1 0x3000 0x4000 1 resetMemory
    (runningFootprint s).reads.has 0x301F = true ∧ (runningFootprint s).writes.has 0x401F = true ∧
      (runningFootprint s).reads.has 0x3020 = false ∧ (runningFootprint s).writes.has 0x4020 = false ∧
      s.mem.wf = true ∧ s.mem.has 0x3020 = true ∧ s.mem.has 0x4020 = true ∧
      runningFootprint s ∈ s.held ∧
      (∀ f ∈ s.held, f.reads.has 0x3020 = false ∧ f.writes.has 0x3020 = false ∧
        f.writes.has 0x4020 = false) := by decide

/-- A host that starts a command, lets it run, and reads its last output byte with and without a read of
BUSY between (R63, D39); FootprintHeldUntilBusyIsRead. -/
theorem test_busy_is_read_first :
    let s := idle 1 0x3000 0x4000 1 recordP4
    let three := fun (t : State) => (nextState (step t)).bind fun u =>
      (nextState (step u)).bind fun v => nextState (step v)
    let two := fun (t : State) => (nextState (step t)).bind fun u => nextState (step u)
    ((two (withMoves [.start, .pause, .load 0x401F] s)).bind fun u => refusalOf (step u)) =
        some .footprintTouched ∧
      ((three (withMoves [.start, .pause, .readBusy, .load 0x401F] s)).map fun u =>
        (u.held, (nextState (step u)).isSome)) = some ([], true) := by decide

/-- An SH1 block of no points: a running command that completes. -/
def quietBlock : State := running 2 0x5000 0x6000 0 (memWith 0x5004 [0x01])

/-- A Splat20 block whose payload passes the top of memory: a running command that is refused. -/
def brokenBlock : State := running 2 0x5000 0x6000 0 (memWith 0x5000 [0xFF, 0xFF, 0xFF, 0xFF, 0x14])

theorem quietBlock_inv : StateInv quietBlock :=
  running_inv (ins := .decodeBlock) (by decide) (by decide) (by decide) (by decide) (by decide)
    (by decide)

theorem brokenBlock_inv : StateInv brokenBlock :=
  running_inv (ins := .decodeBlock) (by decide) (by decide) (by decide) (by decide) (by decide)
    (by decide)

theorem quietBlock_next : coreStep quietBlock = .next (complete 0 quietBlock) := by
  rw [coreStep_command (i := .decodeBlock) rfl rfl (by decide)]
  rfl

/-- AwaitRunsCommand, CoreNeverWritesOperandRegisters, CoreWritesOnlyItsFootprint, PerPointAgreesWithAtomic and
RunningCommandTerminates: a command that completes and one that is refused. -/
theorem test_witness_running :
    (StateInv quietBlock ∧ quietBlock.busy = true ∧ ∃ t, coreStep quietBlock = .next t) ∧
    footprintOk quietBlock (runningFootprint quietBlock) ∧
    (StateInv brokenBlock ∧ brokenBlock.busy = true ∧
      refusalOf (coreStep brokenBlock) = some .footprintWraps) ∧
    ¬ footprintOk brokenBlock (runningFootprint brokenBlock) ∧
    (withMoves [.await] quietBlock).hostQueue = .await :: [] ∧
    (withMoves [.await] State.reset).busy = false :=
  ⟨⟨quietBlock_inv, rfl, _, quietBlock_next⟩, ok_of_check (by decide) (by decide),
    ⟨brokenBlock_inv, rfl, by decide⟩,
    not_ok_of_check (r := .footprintWraps) (by decide) (by decide), rfl, rfl⟩

/-- The quiet block after a command that failed. -/
def quietFailed : State := { quietBlock with status := 1 }

/-- The quiet block on a core whose NaNs are negative. -/
def quietSigned : State := { quietBlock with cfg := { defaultConfig with nanSign := .negative } }

/-- StepKeepsInvariant and StatusAndBusyChangeOnlyAtTheirMoves: a command completes with the other status. -/
theorem test_witness_steps :
    StateInv quietFailed ∧ step quietFailed = .next (complete 0 quietFailed) ∧
    (complete 0 quietFailed).status ≠ quietFailed.status := by
  refine ⟨?_, ?_, by decide⟩
  · obtain ⟨h1, h2, h3, -, h5, h6⟩ := quietBlock_inv
    exact ⟨h1, h2, h3, .inr rfl, h5, h6⟩
  · show coreStep quietFailed = _
    rw [coreStep_command (i := .decodeBlock) rfl rfl (by decide)]
    rfl

/-- The other clause of StatusAndBusyChangeOnlyAtTheirMoves: `start` sets BUSY. -/
theorem test_witness_start_sets_busy :
    let s := withMoves [.start] (idle 2 0x5000 0x6000 0 resetMemory)
    s.busy = false ∧ (nextState (step s)).map (fun t => t.busy) = some true := by decide

/-- Two states with the same operands and input bytes, and different output bytes and registers. -/
theorem test_witness_ResultDependsOnlyOnInputs :
    let s' := { quietBlock with op := some 7, mem := quietBlock.mem.setByte 0x7000 1 }
    StateInv quietBlock ∧ StateInv s' ∧ quietBlock.busy = true ∧ s'.busy = true ∧
    s'.smp = quietBlock.smp ∧ s'.cfg = quietBlock.cfg ∧ s'.draws = quietBlock.draws ∧
    (∀ a, (runningFootprint quietBlock).reads.has a = true →
      s'.mem.byte a = quietBlock.mem.byte a) ∧
    footprintOk s' (runningFootprint quietBlock) ∧ s' ≠ quietBlock ∧
    ∃ t, coreStep quietBlock = .next t := by
  intro s'
  have hm : quietBlock.mem.wf = true := by decide
  have hs : StateInv s' := by
    obtain ⟨-, h2, h3, h4, h5, h6⟩ := quietBlock_inv
    exact ⟨setByte_wf hm _ _, ⟨h2.1, by rw [setByte_map]; exact h2.2⟩, h3, h4, h5, h6⟩
  refine ⟨quietBlock_inv, hs, rfl, rfl, rfl, rfl, rfl, fun a ha => ?_,
    ok_of_check (by decide) (by decide), by decide, _, quietBlock_next⟩
  refine byte_setByte_ne hm _ ?_
  rw [Span_has_iff] at ha
  have hr : (runningFootprint quietBlock).reads = { base := 0x5000, len := 8 } := by decide
  rw [hr] at ha
  simp only at ha
  omega

/-- A DECODE_POINTS of one record that runs. -/
def onePoint : State := running 1 0x3000 0x4000 1 resetMemory

/-- A Splat20 block of one point that runs. -/
def oneSplat : State := running 2 0x5000 0x6000 0 (memWith 0x5000 [1, 0, 0, 0, 0x14])

theorem onePoint_next : ∃ t, coreStep onePoint = .next t :=
  ⟨_, (coreStep_command (i := .decodePoints) rfl rfl (by decide)).trans
    (execDecodePoints_next.mpr ⟨by decide, rfl⟩)⟩

theorem oneSplat_next : ∃ t, coreStep oneSplat = .next t := by
  have h : execSplat20 1 (latchPrefix oneSplat) = .next _ := execSplat20_next.mpr ⟨by decide, rfl⟩
  exact ⟨_, (coreStep_command (i := .decodeBlock) rfl rfl (by decide)).trans h⟩

/-- With signs drawn, one point of each geometry command; the entries of a zero record are NaN, and those of a
record with the identity rotation are not. -/
theorem test_witness_geometry_again :
    (StateInv onePoint ∧ onePoint.busy = true ∧ onePoint.smp.op = 1 ∧ 0 < onePoint.smp.count.toNat ∧
      ∃ t, coreStep onePoint = .next t) ∧
    (StateInv oneSplat ∧ oneSplat.busy = true ∧ oneSplat.smp.op = 2 ∧
      oneSplat.mem.read32 (oneSplat.smp.inBase + 4) = 20 ∧
      0 < (oneSplat.mem.read32 oneSplat.smp.inBase).toNat ∧ ∃ t, coreStep oneSplat = .next t) ∧
    onePoint.cfg.nanSign = .draw ∧ oneSplat.cfg.nanSign = .draw ∧
    (let r := { genericRecord (memWith 0 [1]) 0 with qx := 0, qy := 0, qz := 0, qw := 0 }
     (covarianceEntries r).all f32IsNaN = true ∧
      (covarianceEntries { r with qw := 0x3F800000 }).all f32IsNaN = false) := by
  exact ⟨⟨running_inv (ins := .decodePoints) (by decide) (by decide) (by decide) (by decide) (by decide)
      (by decide), rfl, rfl, by decide, onePoint_next⟩,
    ⟨running_inv (ins := .decodeBlock) (by decide) (by decide) (by decide) (by decide) (by decide)
      (by decide), rfl, rfl, by decide, by decide, oneSplat_next⟩, rfl, rfl, by decide⟩

/-- With signs fixed, and, with signs drawn, a block that draws none. -/
theorem test_witness_CommandIsIdempotent :
    (StateInv quietBlock ∧ quietBlock.busy = true ∧ quietBlock.cfg.nanSign = .draw ∧
      quietBlock.smp.op = 2 ∧ quietBlock.mem.read32 (quietBlock.smp.inBase + 4) ≠ 20 ∧
      coreStep quietBlock = .next (complete 0 quietBlock)) ∧
    StateInv quietSigned ∧ quietSigned.busy = true ∧ quietSigned.cfg.nanSign ≠ .draw ∧
    coreStep quietSigned = .next (complete 0 quietSigned) := by
  refine ⟨⟨quietBlock_inv, rfl, rfl, rfl, by decide, quietBlock_next⟩, quietBlock_inv, rfl,
    by decide, ?_⟩
  rw [coreStep_command (i := .decodeBlock) rfl rfl (by decide)]
  rfl

theorem test_witness_memory :
    resetMemory.wf = true ∧ (∀ k < 4, resetMemory.has (0xFFFFFFFC + k) = true) ∧
    (memWith 5 [1]).wf = true ∧ (memWith 5 [1]).map = ((memWith 5 [2]).setByte 5 1).map ∧
    ((memWith 5 [2]).setByte 5 1).wf = true ∧ memWith 5 [1] = (memWith 5 [2]).setByte 5 1 := by decide

/-- ValidateHeaderResult and HeaderBitFlipIsCaught: the header of section 3, and its first and last bit. -/
theorem test_witness_header :
    let s := running 0 0x1000 0 0 spxHeader
    s.mem.wf = true ∧ s.smp.inBase % 4 = 0 ∧ footprintOk s (headerFootprint s) ∧
      (∃ t, exec .validateHeader s = .next t ∧ t.status = 0) ∧ 127 < 128 ∧ 7 < 8 := by
  intro s
  refine ⟨by decide, by decide, ok_of_check (by decide) (by decide), ?_, by decide, by decide⟩
  have h : (nextState (exec .validateHeader s)).map (fun t => t.status) = some 0 := by decide
  revert h
  cases exec .validateHeader s with
  | next t => exact fun h => ⟨t, rfl, by simpa [nextState] using h⟩
  | fault r => exact fun h => by cases h
  | refused r => exact fun h => by cases h

theorem test_witness_RollingSumSeesEveryByte :
    ∃ (bs : List Byte) (k : Nat) (h : k < bs.length) (b : Byte), b ≠ bs[k] ∧ k = 123 ∧
      bs.length = 124 :=
  ⟨List.replicate 124 0, 123, by decide, 1, by decide, rfl, by decide⟩

/-- DecodePointsResult and DecodePointsCopiesPositionAndColour, with input and output side by side. -/
theorem test_witness_points :
    let s := running 1 0x3000 0x3020 1 recordP4
    s.mem.wf = true ∧ s.smp.inBase % 4 = 0 ∧ s.smp.outBase % 4 = 0 ∧
      footprintOk s (pointsFootprint s) ∧ 0 < s.smp.count.toNat := by
  intro s
  exact ⟨by decide, by decide, by decide, ok_of_check (by decide) (by decide), by decide⟩

/-- UnsupportedTagFails and the last clause of DecodeBlockDispatch: the tags next to the supported ones. -/
theorem test_witness_unsupported :
    ∀ tag : Byte, tag ∈ [0, 4, 19, 21] →
      let s := running 2 0xFFFFFFF8 0 0 (memWith 0xFFFFFFFC [tag])
      s.mem.wf = true ∧ s.smp.inBase % 4 = 0 ∧ s.smp.outBase % 4 = 0 ∧
        footprintOk s (prefixFootprint s) ∧ s.mem.read32 (s.smp.inBase + 4) ≠ 20 ∧
        s.mem.read32 (s.smp.inBase + 4) ≠ 1 ∧ s.mem.read32 (s.smp.inBase + 4) ≠ 2 ∧
        s.mem.read32 (s.smp.inBase + 4) ≠ 3 := by
  intro tag ht
  fin_cases ht <;>
    exact ⟨by decide, by decide, by decide, ok_of_check (by decide) (by decide), by decide, by decide,
      by decide, by decide⟩

/-- DecodeBlockDispatch, each supported tag with one point, Splat20Result and SphericalHarmonicsResult. -/
theorem test_witness_blocks :
    (let s := running 2 0x5000 0x6000 0 (memWith 0x5000 [1, 0, 0, 0, 20])
     s.mem.wf = true ∧ s.smp.inBase % 4 = 0 ∧ s.smp.outBase % 4 = 0 ∧ s.mem.read32 0x5004 = 20 ∧
       footprintOk s (prefixFootprint s) ∧ footprintOk s (blockFootprint s 20 32 1)) ∧
    (let s := running 2 0x5000 0x6000 0 (memWith 0x5000 [1, 0, 0, 0, 1])
     s.mem.wf = true ∧ s.mem.read32 0x5004 = 1 ∧ footprintOk s (prefixFootprint s) ∧
       footprintOk s (blockFootprint s 9 16 1)) ∧
    (let s := running 2 0x5000 0x6000 0 (memWith 0x5000 [1, 0, 0, 0, 2])
     s.mem.wf = true ∧ s.mem.read32 0x5004 = 2 ∧ footprintOk s (prefixFootprint s) ∧
       footprintOk s (blockFootprint s 24 16 1)) ∧
    (let s := running 2 0x5000 0x6000 0 (memWith 0x5000 [1, 0, 0, 0, 3])
     s.mem.wf = true ∧ s.mem.read32 0x5004 = 3 ∧ footprintOk s (prefixFootprint s) ∧
       footprintOk s (blockFootprint s 21 16 1)) :=
  ⟨⟨by decide, by decide, by decide, by decide, ok_of_check (by decide) (by decide),
      ok_of_check (by decide) (by decide)⟩,
    ⟨by decide, by decide, ok_of_check (by decide) (by decide), ok_of_check (by decide) (by decide)⟩,
    ⟨by decide, by decide, ok_of_check (by decide) (by decide), ok_of_check (by decide) (by decide)⟩,
    ⟨by decide, by decide, ok_of_check (by decide) (by decide), ok_of_check (by decide) (by decide)⟩⟩

/-- CoefficientPlacement: the longest run, its last coefficient and the zero bits below it.
LowCoefficientBitsAreDropped: 30_encoding.md R84 bytes that differ in their low bits. -/
theorem test_witness_coefficients :
    (List.replicate 24 (0xFF : Byte)).length ≤ 24 ∧ 23 < (List.replicate 24 (0xFF : Byte)).length ∧
    0 < 7 ∧ 7 < 128 - 5 * (List.replicate 24 (0xFF : Byte)).length ∧
    [0x07, 0xF8].map (fun b : Byte => b >>> 3) = [0x00, 0xFF].map (fun b : Byte => b >>> 3) := by decide

/-- FloatToHalfBands, FloatToHalfNearestEven: patterns at both ends of each band. -/
theorem test_witness_bands :
    (0x007FFFFF : Word).extractLsb' 23 8 = 0 ∧ (0x00800000 : Word).extractLsb' 23 8 = 1 ∧
    (0x387FFFFF : Word).extractLsb' 23 8 = 112 ∧ (0x38800000 : Word).extractLsb' 23 8 = 113 ∧
    (0x46FFFFFF : Word).extractLsb' 23 8 = 141 ∧ (0x47000000 : Word).extractLsb' 23 8 = 142 ∧
    State.reset.cfg.halfRound = .truncate ∧ State.reset.cfg.subnormal = .zero ∧
    ({ defaultConfig with halfRound := .nearestEven } : Config).halfRound = .nearestEven ∧
    ({ defaultConfig with subnormal := .passTop10 } : Config).subnormal = .passTop10 := by decide

/-- FloatToHalfMonotone and HalfIsNeverNaN: two patterns in order, and one that saturates. -/
theorem test_witness_half_order :
    defaultConfig.halfRound = .truncate ∧ defaultConfig.subnormal = .zero ∧
    ((0x46FFFFFF : Word).extractLsb' 0 31).toNat ≤ ((0x47000000 : Word).extractLsb' 0 31).toNat ∧
    ((floatToHalf defaultConfig 0x7FC00000).extractLsb' 10 5).toNat = 31 := by decide

/-- The nine rotation entries of R142, for the witness below. -/
def entriesA (q : Quat) : List Word :=
  let a := rotation q
  [a.a0, a.a1, a.a2, a.a3, a.a4, a.a5, a.a6, a.a7, a.a8]

/-- The scaled rows of R143, for the witness below. -/
def entryM (A : Nat → Word) (r : SplatRecord) (k : Nat) : Word :=
  fmul (A k) (if k < 3 then r.sx else if k < 6 then r.sy else r.sz)

/-- WriteGeometryTexelResult: the last texel of the address space. -/
theorem test_witness_WriteGeometryTexelResult :
    ∃ (s : State) (o : Nat) (i : Word) (r : SplatRecord) (nrm X Y Z W : Word) (A M : Nat → Word)
      (dot : Nat → Nat → Word) (c : Nat → Word → Word), s.mem.wf = true ∧ o % 4 = 0 ∧
      footprintOk s (texelFootprint o i) ∧
      nrm = fsqrt (fadd (fadd (fadd (fmul r.qx r.qx) (fmul r.qy r.qy)) (fmul r.qz r.qz))
        (fmul r.qw r.qw)) ∧
      X = fdiv r.qx nrm ∧ Y = fdiv r.qy nrm ∧ Z = fdiv r.qz nrm ∧ W = fdiv r.qw nrm ∧
      A 0 = fsub 0x3F800000 (fmul 0x40000000 (fadd (fmul Y Y) (fmul Z Z))) ∧
      A 1 = fmul 0x40000000 (fadd (fmul X Y) (fmul W Z)) ∧
      A 2 = fmul 0x40000000 (fsub (fmul X Z) (fmul W Y)) ∧
      A 3 = fmul 0x40000000 (fsub (fmul X Y) (fmul W Z)) ∧
      A 4 = fsub 0x3F800000 (fmul 0x40000000 (fadd (fmul X X) (fmul Z Z))) ∧
      A 5 = fmul 0x40000000 (fadd (fmul Y Z) (fmul W X)) ∧
      A 6 = fmul 0x40000000 (fadd (fmul X Z) (fmul W Y)) ∧
      A 7 = fmul 0x40000000 (fsub (fmul Y Z) (fmul W X)) ∧
      A 8 = fsub 0x3F800000 (fmul 0x40000000 (fadd (fmul X X) (fmul Y Y))) ∧
      (∀ k < 3, M k = fmul (A k) r.sx ∧ M (k + 3) = fmul (A (k + 3)) r.sy ∧
        M (k + 6) = fmul (A (k + 6)) r.sz) ∧
      (∀ a b, dot a b = fadd (fadd (fmul (M a) (M b)) (fmul (M (a + 3)) (M (b + 3))))
        (fmul (M (a + 6)) (M (b + 6)))) ∧
      (∀ k e, c k e = f32Bits s.cfg.nanSign (s.draws + k) (fmul 0x40800000 e)) ∧
      o + 32 * i.toNat + 32 = 2 ^ 32 := by
  let r := genericRecord recordP4 0x3000
  let A := fun k => (entriesA (normalise r)).getD k 0
  refine ⟨State.reset, 0xFFFFFFC0, 1, r, fsqrt (quatNorm2 r), (normalise r).x, (normalise r).y,
    (normalise r).z, (normalise r).w, A, entryM A r, _, _, by decide, by decide,
    ok_of_check (by decide) (by decide), rfl, rfl, rfl, rfl, rfl, rfl, rfl, rfl, rfl, rfl, rfl, rfl,
    rfl, rfl, ?_, fun _ _ => rfl, fun _ _ => rfl, by decide⟩
  intro k hk
  have h1 : ¬ k + 3 < 3 := by omega
  have h2 : k + 3 < 6 := by omega
  have h3 : ¬ k + 6 < 3 := by omega
  have h4 : ¬ k + 6 < 6 := by omega
  simp only [entryM, hk, h1, h2, h3, h4, if_true, if_false, and_self]

theorem test_witness_ZeroQuaternionTexel :
    let r := genericRecord ((memWith 0 [1]).setBytes 28 [128, 128, 128, 128]) 0
    r.px = 1 ∧ r.qx = 0 ∧ r.qy = 0 ∧ r.qz = 0 ∧ r.qw = 0 ∧
    { r with qx := 0x80000000 }.qx = (0x80000000 : Word) ∧ defaultConfig.nanSign = .draw ∧
    ({ defaultConfig with nanSign := .positive } : Config).nanSign = .positive ∧
    ({ defaultConfig with nanSign := .negative } : Config).nanSign = .negative := by decide

/-- The rounding statements and GainIsExact: the largest finite value, a subnormal, and the largest value the
gain keeps finite. -/
theorem test_witness_rounding :
    f32Finite 0x7F7FFFFF = true ∧ f32Finite 0x80000001 = true ∧ f32Rat 0x80000001 ≠ 0 ∧
    0 ≤ f32Rat 0x7F7FFFFF ∧ f32Finite 0x7E7FFFFF = true ∧ |4 * f32Rat 0x7E7FFFFF| < 2 ^ 128 ∧
    f32Finite 0x80000000 = true ∧ f32Rat 0x80000000 = 0 := by
  have h1 : f32Unpack 0x80000001 = .fin true 1 (-149) := by decide
  have h2 : f32Unpack 0x7F7FFFFF = .fin false (2 ^ 24 - 1) 104 := by decide
  have h3 : f32Unpack 0x7E7FFFFF = .fin false (2 ^ 24 - 1) 102 := by decide
  have h4 : f32Unpack 0x80000000 = .fin true 0 (-149) := by decide
  refine ⟨by decide, by decide, ?_, ?_, by decide, ?_, by decide, ?_⟩
  · rw [f32Rat, h1]; norm_num
  · rw [f32Rat, h2]; norm_num
  · rw [f32Rat, h3]; norm_num
  · rw [f32Rat, h4]; norm_num

theorem test_witness_SpecialOperands :
    f32IsNaN 0x7FC12345 = true ∧ f32IsNaN 0x3F800000 = false ∧ (0x3F800000 : Word) ≠ 0 ∧
    (0x3F800000 : Word) ≠ 0x80000000 ∧ f32IsNaN 0xFF800000 = false ∧ (0xFF800000 : Word).msb = true ∧
    (0xFF800000 : Word) ≠ 0x80000000 := by decide

end Sys2Proof.Tests
end

