-- ==== Sys2Proof/Proofs/CoreFrame.lean ====
section
/-! The memory frame of the core's move (10_state.md R36): what each meaning leaves as it was, and from it
that the core writes nothing outside the write footprint of the running command. -/

namespace Sys2Proof.Machine

/-! ## Unchanged memory -/

theorem sameOutside_of_eq {m m' : Memory} (r : Span) (h : m' = m) : sameOutside r m m' :=
  fun _ _ => by rw [h]

/-! ## Loops that write one texel a point

The frame of a loop needs only where the body writes, not what: no read is tracked, so the footprint need
not be in order. -/

/-- At point `i` the body writes the words of texel `i` and moves on to the next point. -/
def WritesTexel (texel : Nat) (body : State → State) : Prop :=
  ∀ s i, s.index = some i → ∃ ws draws, 4 * ws.length = texel ∧
    body s = bumpIndex (putWords (s.smp.outBase + texel * i.toNat) ws draws s)

theorem genericSplatPoint_writesTexel : WritesTexel 32 genericSplatPoint :=
  fun s _ h => ⟨texelWords s.cfg s.draws _, texelDraws, rfl, genericSplatPoint_some h⟩

theorem splat20Point_writesTexel (n : Word) : WritesTexel 32 (splat20Point n) :=
  fun s _ h => ⟨texelWords s.cfg s.draws _, texelDraws, rfl, splat20Point_some h⟩

theorem shPoint_writesTexel (k : Nat) : WritesTexel 16 (shPoint k) :=
  fun _ _ h => ⟨shWords _, 0, rfl, shPoint_some h⟩

/-- `s` is reached from `s0` after `i` points, and only the first `i` texels may have changed. -/
structure WroteTexels (s0 : State) (texel i : Nat) (s : State) : Prop where
  smp : s.smp = s0.smp
  index : s.index = some (BitVec.ofNat 32 i)
  wf : s.mem.wf = true
  outside : sameOutside { base := s0.smp.outBase, len := texel * i } s0.mem s.mem

theorem WroteTexels_start {s : State} (hm : s.mem.wf = true) (hi : s.index = some 0) (texel : Nat) :
    WroteTexels s texel 0 s where
  smp := rfl
  index := hi
  wf := hm
  outside := sameOutside_of_eq _ rfl

/-- One more point; the index must be one of a 32-bit count, so that it has not wrapped. -/
theorem WroteTexels_succ {s0 s : State} {texel i : Nat} {n : Word} {body : State → State}
    (hb : WritesTexel texel body) (h : WroteTexels s0 texel i s) (hi : i < n.toNat) :
    WroteTexels s0 texel (i + 1) (body s) := by
  obtain ⟨ws, draws, hlen, hbody⟩ := hb s _ h.index
  rw [toNat_index hi, h.smp] at hbody
  rw [hbody]
  refine ⟨by simp [h.smp], by simp [h.index, BitVec.ofNat_add], writeWords_wf h.wf _ _, fun a ha => ?_⟩
  simp only [Span_has_false_iff, Nat.mul_succ] at ha
  calc (s.mem.writeWords (s0.smp.outBase + texel * i) ws).byte a
      = s.mem.byte a := byte_writeWords_outside h.wf (by omega)
    _ = s0.mem.byte a := h.outside a (Span_has_false_iff.mpr (by simp only; omega))

theorem WroteTexels_iterate {s : State} {texel : Nat} {n : Word} {body : State → State}
    (hb : WritesTexel texel body) (hm : s.mem.wf = true) (hi : s.index = some 0) :
    ∀ i ≤ n.toNat, WroteTexels s texel i (body^[i] s)
  | 0, _ => WroteTexels_start hm hi texel
  | i + 1, h => by
    rw [Function.iterate_succ_apply']
    exact WroteTexels_succ (n := n) hb (WroteTexels_iterate (n := n) hb hm hi i (by omega)) h

/-- A loop over `n` points changes only its `n` texels. -/
theorem sameOutside_iterate {s : State} {texel : Nat} {body : State → State} (hb : WritesTexel texel body)
    (hm : s.mem.wf = true) (hi : s.index = some 0) (n : Word) :
    sameOutside { base := s.smp.outBase, len := texel * n.toNat } s.mem (body^[n.toNat] s).mem :=
  (WroteTexels_iterate (n := n) hb hm hi n.toNat le_rfl).outside

/-! ## The frame of each meaning -/

theorem execValidateHeader_mem {s t : State} (h : execValidateHeader s = .next t) : t.mem = s.mem := by
  obtain ⟨-, rfl⟩ := execValidateHeader_next.mp h
  rw [hashByte_iterate s _ le_rfl]
  rfl

theorem execDecodePoints_sameOutside {s t : State} (hm : s.mem.wf = true)
    (h : execDecodePoints s = .next t) : sameOutside (pointsFootprint s).writes s.mem t.mem := by
  obtain ⟨-, rfl⟩ := execDecodePoints_next.mp h
  exact sameOutside_iterate (s := pointsBegin s) genericSplatPoint_writesTexel hm rfl s.smp.count

theorem execSplat20_sameOutside {s t : State} {n : Word} (hm : s.mem.wf = true)
    (h : execSplat20 n s = .next t) : sameOutside (blockFootprint s 20 32 n).writes s.mem t.mem := by
  obtain ⟨-, rfl⟩ := execSplat20_next.mp h
  exact sameOutside_iterate (s := beginIndex s) (splat20Point_writesTexel n) hm rfl n

theorem shDecode_sameOutside {s t : State} {k : Nat} {n : Word} (hm : s.mem.wf = true)
    (h : shDecode k n s = .next t) : sameOutside (blockFootprint s k 16 n).writes s.mem t.mem := by
  obtain ⟨-, rfl⟩ := shDecode_next.mp h
  exact sameOutside_iterate (s := beginIndex s) (shPoint_writesTexel k) hm rfl n

/-- A supported tag writes the texels of its layout; any other tag writes nothing (R161, R162). -/
theorem dispatchTag_sameOutside {s t : State} {tag n : Word} (hm : s.mem.wf = true)
    (h : dispatchTag tag n s = .next t) :
    (∃ stride texel, layoutOf tag = some (stride, texel) ∧
        sameOutside (blockFootprint s stride texel n).writes s.mem t.mem) ∨
      (layoutOf tag = none ∧ t.mem = s.mem) := by
  rcases dispatchTag_cases tag n s with ⟨-, hl, -, hx⟩ | ⟨-, hl, -, hx⟩ | ⟨-, hl, -, hx⟩ |
    ⟨-, hl, -, hx⟩ | ⟨-, -, -, -, hl, -, hx⟩ <;> rw [hx] at h
  · exact .inl ⟨_, _, hl, execSplat20_sameOutside hm h⟩
  · exact .inl ⟨_, _, hl, shDecode_sameOutside hm h⟩
  · exact .inl ⟨_, _, hl, shDecode_sameOutside hm h⟩
  · exact .inl ⟨_, _, hl, shDecode_sameOutside hm h⟩
  · cases h
    exact .inr ⟨hl, rfl⟩

/-! ## The footprint of the running command -/

theorem runningFootprint_decodePoints {s : State} (hd : decodeCommand s.smp.op = .ok .decodePoints) :
    runningFootprint s = pointsFootprint s := by
  simp only [runningFootprint, hd]

/-- Before a block has latched its two words, those in memory decide its footprint (R55 to R57). -/
theorem runningFootprint_block {s : State} {stride texel : Nat}
    (hd : decodeCommand s.smp.op = .ok .decodeBlock) (hn : s.n = none) (ht : s.tag = none)
    (hl : layoutOf (s.mem.read32 (s.smp.inBase + 4)) = some (stride, texel)) :
    runningFootprint s = blockFootprint s stride texel (s.mem.read32 s.smp.inBase) := by
  simp only [runningFootprint, hd, hn, ht, Option.getD_none, hl]

theorem execDecodeBlock_sameOutside {s t : State} (hm : s.mem.wf = true)
    (hd : decodeCommand s.smp.op = .ok .decodeBlock) (hn : s.n = none) (ht : s.tag = none)
    (h : execDecodeBlock s = .next t) : sameOutside (runningFootprint s).writes s.mem t.mem := by
  obtain ⟨-, hdisp⟩ := execDecodeBlock_next.mp h
  rcases dispatchTag_sameOutside (s := latchPrefix s) hm hdisp with ⟨stride, texel, hl, hout⟩ | ⟨-, heq⟩
  · rw [runningFootprint_block hd hn ht hl]
    exact hout
  · exact sameOutside_of_eq _ heq

/-- A running command changes no byte outside its write footprint (R36). -/
theorem coreStep_sameOutside {s t : State} (hinv : StateInv s) (hb : s.busy = true)
    (h : coreStep s = .next t) : sameOutside (runningFootprint s).writes s.mem t.mem := by
  obtain ⟨i, hd, -, hstep⟩ := coreStep_running hinv hb
  obtain ⟨hm, -, -, -, -, hacc⟩ := hinv
  obtain ⟨-, -, hn, ht, -⟩ := hacc hb
  rw [hstep] at h
  rcases decodeCommand_ok hd with ⟨-, rfl⟩ | ⟨-, rfl⟩ | ⟨-, rfl⟩
  · exact sameOutside_of_eq _ (execValidateHeader_mem h)
  · rw [runningFootprint_decodePoints hd]
    exact execDecodePoints_sameOutside hm h
  · exact execDecodeBlock_sameOutside hm hd hn ht h

/-- Settles O19: an idle core changes nothing, and the three commands each keep to their write footprint. -/
theorem coreWritesOnlyItsFootprint : Obligations.CoreWritesOnlyItsFootprint := by
  refine fun s t hinv h => ⟨fun hb => ?_, fun hb => coreStep_sameOutside hinv hb h⟩
  rw [coreStep_idle hb] at h
  cases h
  rfl

end Sys2Proof.Machine
end

