-- ==== Sys2Proof/Proofs/HalfFloat.lean ====
section
/-! FLOAT_TO_HALF under HALF_ROUND `nearest_even` (40_half_float.md R103, R104, R107). The two middle bands
differ only in the number they round and the scale: both are `roundShift`, of the significand and of the
significand with the rebiased exponent above it. -/

namespace Sys2Proof.Machine

/-! ## Rounding a number with the exponent above it -/

/-- Rounding on top of the exponent bits is rounding the one number they form: whole multiples of `2^k`
change neither the discarded bits nor where the carry goes. -/
theorem halfNarrow_nearestEven (h a k : Nat) :
    halfNarrow .nearestEven h a k = roundShift (h * 2 ^ k + a) k := by
  have hq : (h * 2 ^ k + a) / 2 ^ k = h + a / 2 ^ k := by
    rw [Nat.add_comm, Nat.add_mul_div_right _ _ (Nat.two_pow_pos k), Nat.add_comm]
  have hr : (h * 2 ^ k + a) % 2 ^ k = a % 2 ^ k := Nat.mul_add_mod_self_right h (2 ^ k) a
  simp only [halfNarrow, halfRoundUp, roundShift, hq, hr]

theorem roundShift_le {a b k : Nat} (h : a < b * 2 ^ k) : roundShift a k ≤ b := by
  have hq : a / 2 ^ k < b := Nat.div_lt_of_lt_mul (by rwa [Nat.mul_comm])
  simp only [roundShift]
  split <;> omega

/-! ## The 15 bits of the half -/

theorem floatToHalf_low15 (cfg : Config) (u : Word) : (floatToHalf cfg u).extractLsb' 0 15 =
    BitVec.ofNat 15 (halfMagnitude cfg (f32Exp u) (f32Frac u)) :=
  BitVec.extractLsb'_append_eq_right

/-- The band below the half's normal range (R103). -/
theorem halfMagnitude_low {cfg : Config} {e : Nat} (f : Nat) (h1 : 1 ≤ e) (h2 : e ≤ 112) :
    halfMagnitude cfg e f = halfNarrow cfg.halfRound 0 (f + 2 ^ 23) (126 - e) := by
  have hk : 113 - e + 13 = 126 - e := by omega
  simp only [halfMagnitude, constants, show e ≠ 0 by omega, show e < 113 by omega, if_true, if_false, hk]

/-- The band of the half's normal range (R104). -/
theorem halfMagnitude_normal {cfg : Config} {e : Nat} (f : Nat) (h1 : 113 ≤ e) (h2 : e ≤ 141) :
    halfMagnitude cfg e f = halfNarrow cfg.halfRound ((e - 112) * 2 ^ 10) f 13 := by
  simp only [halfMagnitude, constants, show e ≠ 0 by omega, show ¬ e < 113 by omega,
    show e < 142 by omega, if_true, if_false]

/-- R107 in the low band: the significand with its hidden bit, rounded. -/
theorem halfMagnitude_low_nearestEven {cfg : Config} {e f : Nat} (hmode : cfg.halfRound = .nearestEven)
    (h1 : 1 ≤ e) (h2 : e ≤ 112) : halfMagnitude cfg e f = roundShift (f + 2 ^ 23) (126 - e) := by
  rw [halfMagnitude_low f h1 h2, hmode, halfNarrow_nearestEven, Nat.zero_mul, Nat.zero_add]

/-- R107 in the normal band: the rebiased exponent and the mantissa as one number, rounded. -/
theorem halfMagnitude_normal_nearestEven {cfg : Config} {e f : Nat} (hmode : cfg.halfRound = .nearestEven)
    (h1 : 113 ≤ e) (h2 : e ≤ 141) :
    halfMagnitude cfg e f = roundShift ((e - 112) * 2 ^ 23 + f) 13 := by
  rw [halfMagnitude_normal f h1 h2, hmode, halfNarrow_nearestEven, Nat.mul_assoc, ← Nat.pow_add]

/-- A magnitude that is `roundShift x k` of a number in the half's range is the multiple nearest to `x`, ties
to even, also once it stands in 15 bits. -/
theorem floatToHalf_nearest {cfg : Config} {u : Word} {k x : Nat} (hx : x < 30 * 2 ^ 10 * 2 ^ k)
    (hm : halfMagnitude cfg (f32Exp u) (f32Frac u) = roundShift x k) {h : Nat}
    (hh : h = ((floatToHalf cfg u).extractLsb' 0 15).toNat) :
    2 * h * 2 ^ k ≤ 2 * x + 2 ^ k ∧ 2 * x ≤ 2 * h * 2 ^ k + 2 ^ k ∧
      ((2 * h * 2 ^ k = 2 * x + 2 ^ k ∨ 2 * x = 2 * h * 2 ^ k + 2 ^ k) → h % 2 = 0) := by
  have hfit : roundShift x k < 2 ^ 15 := (roundShift_le hx).trans_lt (by decide)
  have heq : h = roundShift x k := by
    rw [hh, floatToHalf_low15, hm, BitVec.toNat_ofNat, Nat.mod_eq_of_lt hfit]
  obtain ⟨hbelow, habove, heven⟩ := roundShift_near x k
  rw [heq, Nat.mul_assoc]
  exact ⟨habove, hbelow, fun htie => heven htie.symm⟩

/-- Settles O45: in both bands the 15 bits are `roundShift` of the scaled significand, which is nearest. -/
theorem floatToHalfNearestEven : Obligations.FloatToHalfNearestEven := by
  intro cfg u hmode
  have hf : (u.extractLsb' 0 23).toNat < 2 ^ 23 := f32Frac_lt u
  refine ⟨fun h1 h2 h k x hh hk hx => ?_, fun h1 h2 h x hh hx => ?_⟩
  · have hpow : 2 ^ 14 ≤ 2 ^ k := Nat.pow_le_pow_right (by decide) (by omega)
    have hlt : x < 30 * 2 ^ 10 * 2 ^ k := by omega
    subst hk hx
    exact floatToHalf_nearest hlt (halfMagnitude_low_nearestEven hmode h1 h2) hh
  · have hlt : x < 30 * 2 ^ 10 * 2 ^ 13 := by omega
    subst hx
    exact floatToHalf_nearest hlt (halfMagnitude_normal_nearestEven hmode h1 h2) hh

end Sys2Proof.Machine
end

