-- ==== Sys2Proof/Proofs/HeaderValidator.lean ====
section
/-! VALIDATE_HEADER (41_header_validator.md R121 to R123). The byte loop leaves the rolling sum of the bytes
read so far (`hashByte_iterate`); what is left is its end, which compares that sum and forgets the loop's
hidden state. -/

namespace Sys2Proof.Machine

/-- The seed, the multiplier and the order of R121, with the constants of R10 as numbers. -/
theorem rollingSum_eq_foldl (bs : List Byte) :
    rollingSum bs = bs.foldl (fun r b => r * 33 ^^^ b.setWidth 32) 53653 := rfl

theorem statusOf_beq (u v : Word) : statusOf (u == v) = if u = v then 0 else 1 := by
  by_cases h : u = v
  · rw [if_pos h, beq_iff_eq.mpr h]; rfl
  · rw [if_neg h, beq_false_of_ne h]; rfl

/-- The end of the command after the last byte: the comparison of R123, and no trace of the loop. -/
theorem headerEnd_iterate (s : State) :
    headerEnd (hashByte^[constants.hashLen] (headerBegin s)) =
      complete (statusOf (rollingSum (s.mem.bytes s.smp.inBase constants.hashLen) == storedChecksum s)) s := by
  rw [hashByte_iterate s _ le_rfl]
  rfl

/-- Settles O27: the checks pass, so the command answers, and its end is the comparison of R123. -/
theorem validateHeaderResult : Obligations.ValidateHeaderResult := by
  intro s hm hbase hfit
  have hcheck : headerCheck s = none := (headerCheck_none hm).mpr ⟨hbase, hfit⟩
  refine ⟨rollingSum (s.mem.bytes s.smp.inBase 124), rollingSum_eq_foldl _, ?_⟩
  refine execValidateHeader_next.mpr ⟨hcheck, ?_⟩
  rw [headerEnd_iterate, statusOf_beq]
  rfl

end Sys2Proof.Machine
end

