-- ==== Sys2Proof/Proofs/CovarianceEncoder.lean ====
section
/-! WRITE_GEOMETRY_TEXEL (42_covariance_encoder.md R140 to R148). The obligation gives each step's numbers as
functions of an entry's place. `Mat3.ofEntries` and `Sym3.ofDots` are the records such functions describe,
and each step of the encoder takes one of them to the next. -/

namespace Sys2Proof.Machine

/-! ## The steps of the encoder on numbered entries -/

/-- The matrix with entry `k` at place `k` in row-major order, A0 to A8 (R142). -/
def Mat3.ofEntries (A : Nat → Word) : Mat3 :=
  { a0 := A 0, a1 := A 1, a2 := A 2, a3 := A 3, a4 := A 4, a5 := A 5, a6 := A 6, a7 := A 7, a8 := A 8 }

/-- The upper triangle whose entry in row `a` and column `b` is `dot a b` (R144). -/
def Sym3.ofDots (dot : Nat → Nat → Word) : Sym3 :=
  { e0 := dot 0 0, e1 := dot 0 1, e2 := dot 0 2, e3 := dot 1 1, e4 := dot 1 2, e5 := dot 2 2 }

/-- Entries `k`, `k + 3` and `k + 6` are those of rows 0, 1 and 2 in column `k` (R143). -/
theorem scaleRows_ofEntries {A M : Nat → Word} {sx sy sz : Word}
    (hM : ∀ k < 3, M k = fmul (A k) sx ∧ M (k + 3) = fmul (A (k + 3)) sy ∧
      M (k + 6) = fmul (A (k + 6)) sz) :
    scaleRows (.ofEntries A) sx sy sz = .ofEntries M := by
  obtain ⟨h0, h3, h6⟩ := hM 0 (by decide)
  obtain ⟨h1, h4, h7⟩ := hM 1 (by decide)
  obtain ⟨h2, h5, h8⟩ := hM 2 (by decide)
  simp only [scaleRows, Mat3.ofEntries, h0, h1, h2, h3, h4, h5, h6, h7, h8]

/-- The dot product of columns `a` and `b` goes down the three rows (R144). -/
theorem gram_ofEntries {M : Nat → Word} {dot : Nat → Nat → Word}
    (hdot : ∀ a b, dot a b = fadd (fadd (fmul (M a) (M b)) (fmul (M (a + 3)) (M (b + 3))))
      (fmul (M (a + 6)) (M (b + 6)))) :
    gram (.ofEntries M) = .ofDots dot := by
  simp only [gram, Mat3.ofEntries, dot3, Sym3.ofDots, hdot]

/-- The covariance from the rotation entries (R141 to R144). -/
theorem sigma_eq_ofDots {r : SplatRecord} {A M : Nat → Word} {dot : Nat → Nat → Word}
    (hA : rotation (normalise r) = .ofEntries A)
    (hM : scaleRows (.ofEntries A) r.sx r.sy r.sz = .ofEntries M)
    (hdot : gram (.ofEntries M) = .ofDots dot) : sigma r = .ofDots dot := by
  rw [sigma, hA, hM, hdot]

/-- The words of a texel from its covariance (R146, R147). -/
theorem texelWords_of_sigma {cfg : Config} {draws : Nat} {r : SplatRecord} {dot : Nat → Nat → Word}
    {c : Nat → Word → Word} (hsigma : sigma r = .ofDots dot)
    (hc : ∀ k e, c k e = f32Bits cfg.nanSign (draws + k) (fmul 0x40800000 e)) :
    texelWords cfg draws r =
      [r.px, r.py, r.pz, 0,
        packHalf2x16 cfg (c 0 (dot 0 0)) (c 1 (dot 0 1)),
        packHalf2x16 cfg (c 2 (dot 0 2)) (c 3 (dot 1 1)),
        packHalf2x16 cfg (c 4 (dot 1 2)) (c 5 (dot 2 2)), r.rgba] := by
  simp only [texelWords, hsigma, gain, Sym3.ofDots, constants, hc, Nat.add_zero]

/-! ## The write of one texel -/

theorem wordsAt_writeWords {m : Memory} (h : m.wf = true) {a : Nat} {ws : List Word}
    (hm : ∀ j < 4 * ws.length, m.has (a + j) = true) : wordsAt (m.writeWords a ws) a ws :=
  fun _ hk => read32_writeWords h hm hk

theorem sameOutside_writeWords {m : Memory} (h : m.wf = true) {a len : Nat} {ws : List Word}
    (hlen : 4 * ws.length = len) : sameOutside { base := a, len := len } m (m.writeWords a ws) :=
  fun _ ha => byte_writeWords_outside h (by rw [hlen]; exact Span_has_false_iff.mp ha)

/-- The bytes of a texel whose footprint is in order exist (R59). -/
theorem has_of_texelFootprint {s : State} {o : Nat} {i : Word} (h : footprintOk s (texelFootprint o i)) :
    ∀ j < 32, s.mem.has (geoTexelAddr o i.toNat + j) = true := by
  obtain ⟨-, ⟨-, hwrites⟩, -⟩ := h
  intro j hj
  refine has_of_canWrite (hwrites _ (Span_has_iff.mpr ?_))
  simp only [texelFootprint, constants]
  omega

/-- With its two checks passed, WRITE_GEOMETRY_TEXEL writes its texel (R140). -/
theorem exec_writeGeometryTexel {s : State} {o : Nat} {i : Word} (r : SplatRecord) (hm : s.mem.wf = true)
    (hbase : o % 4 = 0) (hfit : footprintOk s (texelFootprint o i)) :
    exec (.writeGeometryTexel o i r) s = .next (writeTexel o i r s) :=
  execWriteGeometryTexel_next.mpr ⟨(texelCheck_none hm).mpr ⟨hbase, hfit⟩, rfl⟩

theorem putWords_eq (a : Nat) (ws : List Word) (k : Nat) (s : State) :
    putWords a ws k s = { s with mem := (putWords a ws k s).mem, draws := s.draws + k } := rfl

/-- Beside the memory, a texel write moves only the count of free values (R148). -/
theorem writeTexel_eq (o : Nat) (i : Word) (r : SplatRecord) (s : State) :
    writeTexel o i r s = { s with mem := (writeTexel o i r s).mem, draws := s.draws + 6 } :=
  putWords_eq _ _ texelDraws s

theorem writeTexel_map (o : Nat) (i : Word) (r : SplatRecord) (s : State) :
    (writeTexel o i r s).mem.map = s.mem.map := by
  rw [writeTexel_mem, writeWords_map]

/-- The words of the texel stand at its address, and every other byte is as before (R148). -/
theorem writeTexel_result {s : State} {o : Nat} {i : Word} (r : SplatRecord) (hm : s.mem.wf = true)
    (hfit : footprintOk s (texelFootprint o i)) :
    wordsAt (writeTexel o i r s).mem (geoTexelAddr o i.toNat) (texelWords s.cfg s.draws r) ∧
      sameOutside { base := geoTexelAddr o i.toNat, len := 32 } s.mem (writeTexel o i r s).mem := by
  rw [writeTexel_mem]
  exact ⟨wordsAt_writeWords hm (has_of_texelFootprint hfit), sameOutside_writeWords hm rfl⟩

/-- Settles O50: the numbers given are those of `sigma`, step by step, and the words they give are the ones
written. -/
theorem writeGeometryTexelResult : Obligations.WriteGeometryTexelResult := by
  intro s o i r nrm X Y Z W A M dot c hm hbase hfit hnrm hX hY hZ hW
    hA0 hA1 hA2 hA3 hA4 hA5 hA6 hA7 hA8 hM hdot hc
  have hnormalise : normalise r = { x := X, y := Y, z := Z, w := W } := by
    rw [hX, hY, hZ, hW, hnrm]
    rfl
  have hrotation : rotation (normalise r) = .ofEntries A := by
    rw [hnormalise, Mat3.ofEntries, hA0, hA1, hA2, hA3, hA4, hA5, hA6, hA7, hA8]
    rfl
  have hsigma : sigma r = .ofDots dot :=
    sigma_eq_ofDots hrotation (scaleRows_ofEntries hM) (gram_ofEntries hdot)
  obtain ⟨hwords, houtside⟩ := writeTexel_result r hm hfit
  rw [texelWords_of_sigma hsigma hc] at hwords
  exact ⟨writeTexel o i r s, exec_writeGeometryTexel r hm hbase hfit, writeTexel_eq o i r s,
    writeTexel_map o i r s, hwords, houtside⟩

end Sys2Proof.Machine
end

