-- ==== Sys2Proof/Proofs/Dispatcher.lean ====
section
/-! DECODE_BLOCK (43_dispatcher.md R161, R162). With its prefix check passed the command is `dispatchTag` of
the two words of the prefix on the latched state; what is left is what each arm of the dispatch answers. -/

namespace Sys2Proof.Machine

/-! ## The arms of the dispatch -/

/-- With aligned bases and the prefix in memory, only the tag decides (R160, R161). -/
theorem exec_decodeBlock_eq_dispatchTag {s : State} (hm : s.mem.wf = true) (hin : s.smp.inBase % 4 = 0)
    (hout : s.smp.outBase % 4 = 0) (hprefix : footprintOk s (prefixFootprint s)) :
    exec .decodeBlock s = dispatchTag (s.mem.read32 (s.smp.inBase + 4)) (s.mem.read32 s.smp.inBase)
      (latchPrefix s) :=
  execDecodeBlock_of_check ((prefixCheck_none hm).mpr ⟨hin, hout, hprefix⟩)

theorem dispatchTag_splat20 (n : Word) (s : State) : dispatchTag 20 n s = exec (.splat20 n) s := rfl

theorem dispatchTag_sh1 (n : Word) (s : State) : dispatchTag 1 n s = exec (.sh1 n) s := rfl

theorem dispatchTag_sh12 (n : Word) (s : State) : dispatchTag 2 n s = exec (.sh12 n) s := rfl

theorem dispatchTag_sh3 (n : Word) (s : State) : dispatchTag 3 n s = exec (.sh3 n) s := rfl

/-- Any other tag fails whatever the count, and no payload is looked at (R162). -/
theorem dispatchTag_unsupported {tag : Word} (n : Word) (s : State) (h20 : tag ≠ 20) (h1 : tag ≠ 1)
    (h2 : tag ≠ 2) (h3 : tag ≠ 3) : dispatchTag tag n s = .next (complete 1 s) := by
  rcases dispatchTag_cases tag n s with ⟨h, -⟩ | ⟨h, -⟩ | ⟨h, -⟩ | ⟨h, -⟩ | ⟨-, -, -, -, -, -, hfail⟩
  · exact absurd h h20
  · exact absurd h h1
  · exact absurd h h2
  · exact absurd h h3
  · exact hfail

/-! ## The end of a supported block -/

/-- `o` ends the command with STATUS 0 (R28). -/
def CompletesOk (o : Out) : Prop := ∃ t, o = .next t ∧ t.status = 0 ∧ t.busy = false

theorem execSplat20_completesOk {s : State} {n : Word} (hm : s.mem.wf = true)
    (hfit : footprintOk s (blockFootprint s 20 32 n)) : CompletesOk (execSplat20 n s) :=
  ⟨_, execSplat20_next.mpr ⟨(splat20Check_none hm).mpr hfit, rfl⟩, rfl, rfl⟩

theorem shDecode_completesOk {s : State} {k : Nat} {n : Word} (hm : s.mem.wf = true)
    (hfit : footprintOk s (blockFootprint s k 16 n)) : CompletesOk (shDecode k n s) :=
  ⟨_, shDecode_next.mpr ⟨(shCheck_none hm).mpr hfit, rfl⟩, rfl, rfl⟩

/-- A tag with a layout completes once the footprint of that layout is in order (R56, R57). -/
theorem dispatchTag_completesOk {s : State} {tag n : Word} {stride texel : Nat} (hm : s.mem.wf = true)
    (hlayout : layoutOf tag = some (stride, texel))
    (hfit : footprintOk s (blockFootprint s stride texel n)) : CompletesOk (dispatchTag tag n s) := by
  rcases dispatchTag_cases tag n s with ⟨-, hl, -, hx⟩ | ⟨-, hl, -, hx⟩ | ⟨-, hl, -, hx⟩ |
    ⟨-, hl, -, hx⟩ | ⟨-, -, -, -, hl, -, -⟩ <;> cases hlayout.symm.trans hl <;> rw [hx]
  · exact execSplat20_completesOk hm hfit
  · exact shDecode_completesOk hm hfit
  · exact shDecode_completesOk hm hfit
  · exact shDecode_completesOk hm hfit

/-! ## The obligations -/

/-- Settles O32: the dispatch takes its last arm, and completion forgets the latched prefix. -/
theorem unsupportedTagFails : Obligations.UnsupportedTagFails := by
  intro s hm hin hout hprefix h20 h1 h2 h3
  rw [exec_decodeBlock_eq_dispatchTag hm hin hout hprefix, dispatchTag_unsupported _ _ h20 h1 h2 h3,
    complete_latchPrefix]

/-- Settles O33: the command is the dispatch on the latched state, whose memory and parameters are those
before the latch, so the payload footprint is in order on both or on neither. -/
theorem decodeBlockDispatch : Obligations.DecodeBlockDispatch := by
  intro s l tag n hm hin hout hprefix hn htag hl
  have hlatch : l = latchPrefix s := by rw [hl, hn, htag]; rfl
  have hexec : exec .decodeBlock s = dispatchTag tag n l := by
    rw [hlatch, hn, htag]
    exact exec_decodeBlock_eq_dispatchTag hm hin hout hprefix
  have hends : ∀ {stride texel : Nat}, layoutOf tag = some (stride, texel) →
      footprintOk s (blockFootprint s stride texel n) → CompletesOk (dispatchTag tag n l) := by
    rw [hlatch]
    exact fun hlayout hfit => dispatchTag_completesOk (s := latchPrefix s) hm hlayout hfit
  rw [hexec]
  refine ⟨?splat20, ?sh1, ?sh12, ?sh3, ?unsupported⟩
  case splat20 => rintro rfl; exact ⟨dispatchTag_splat20 n l, hends rfl⟩
  case sh1 => rintro rfl; exact ⟨dispatchTag_sh1 n l, hends rfl⟩
  case sh12 => rintro rfl; exact ⟨dispatchTag_sh12 n l, hends rfl⟩
  case sh3 => rintro rfl; exact ⟨dispatchTag_sh3 n l, hends rfl⟩
  case unsupported =>
    intro h20 h1 h2 h3
    rw [dispatchTag_unsupported n l h20 h1 h2 h3, hlatch, complete_latchPrefix]

end Sys2Proof.Machine
end

section
/-! The Splat20 Unpacker (45_splat20.md). SPLAT20 is the loop of an unpacker (`LoopAt_run`): at
point `i` the body writes texel `i`. The default EXP (R186) is the nearest table because both ends of a narrow
enclosure of `e^(c/16 - 10)` round to its entry, and rounding is monotone between them. -/

namespace Sys2Proof.Machine

/-! ## The unpacker -/

/-- The fourteen planes of R79, each at its offset in the payload at `a + 8` (R182 to R187). -/
theorem splat20Record_eq_planes (cfg : Config) (m : Memory) (a n i : Nat) :
    splat20Record cfg m a n i =
      { px := splatPosition (m.read24 (a + 8 + 3 * i))
        py := splatPosition (m.read24 (a + 8 + 3 * n + 3 * i))
        pz := splatPosition (m.read24 (a + 8 + 6 * n + 3 * i))
        sx := splatScale cfg (m.byte (a + 8 + 9 * n + i))
        sy := splatScale cfg (m.byte (a + 8 + 10 * n + i))
        sz := splatScale cfg (m.byte (a + 8 + 11 * n + i))
        rgba := packRgba (m.byte (a + 8 + 12 * n + i)) (m.byte (a + 8 + 13 * n + i))
          (m.byte (a + 8 + 14 * n + i)) (m.byte (a + 8 + 15 * n + i))
        qx := quatComponent (m.byte (a + 8 + 16 * n + i))
        qy := quatComponent (m.byte (a + 8 + 17 * n + i))
        qz := quatComponent (m.byte (a + 8 + 18 * n + i))
        qw := quatComponent (m.byte (a + 8 + 19 * n + i)) } := by
  have hx : splatPosAddr a n 0 i = a + 8 + 3 * i := by simp [splatPosAddr, constants]
  simp only [splat20Record, hx]
  rfl

/-- The words of texel `i` of a block of `n` points that starts in `s`, its six free values those from
`draws + 6 i` on (log 7). -/
def splat20Words (s : State) (n i : Nat) : List Word :=
  texelWords s.cfg (s.draws + 6 * i) (splat20Record s.cfg s.mem s.smp.inBase n i)

/-- The payload is as it was at the start for as long as the loop runs, since no texel overlaps it (R64). -/
theorem payload_unchanged {s₀ s : State} {n : Word} {i : Nat} {ws : Nat → List Word}
    (hfit : footprintOk s₀ (blockFootprint s₀ 20 32 n)) (hi : i ≤ n.toNat)
    (hl : LoopAt s₀ 32 6 ws i s) {k : Nat} (hk : k < 20 * n.toNat) :
    s.mem.byte (s₀.smp.inBase + 8 + k) = s₀.mem.byte (s₀.smp.inBase + 8 + k) := by
  have hread : (blockFootprint s₀ 20 32 n).reads.has (s₀.smp.inBase + 8 + k) = true := by
    simp only [Span_has_iff, blockFootprint, constants]
    omega
  exact LoopAt_byte hl hi (Span_has_false_iff.mp (not_written_of_read hfit hread))

/-- At point `i` of the loop the body writes texel `i`, gathered from the planes as they were at the start. -/
theorem splat20Point_of_loopAt {s₀ s : State} {n : Word} {i : Nat}
    (hfit : footprintOk s₀ (blockFootprint s₀ 20 32 n)) (hi : i < n.toNat)
    (hl : LoopAt s₀ 32 6 (splat20Words s₀ n.toNat) i s) :
    splat20Point n s =
      bumpIndex (putWords (s₀.smp.outBase + 32 * i) (splat20Words s₀ n.toNat i) 6 s) := by
  obtain ⟨hindex, hsmp, hcfg, hdraws⟩ := LoopAt_fields hl
  have hrecord : splat20Record s₀.cfg s.mem s₀.smp.inBase n.toNat i =
      splat20Record s₀.cfg s₀.mem s₀.smp.inBase n.toNat i :=
    splat20Record_congr hi fun _ hk => payload_unchanged hfit hi.le hl hk
  rw [splat20Point_some hindex, toNat_index hi, hsmp, hcfg, hrecord, writeTexel, toNat_index hi, hcfg,
    hdraws]
  rfl

/-- Settles O34: the loop writes one texel a point, and its completion is the unpacked state. -/
theorem splat20Result : Obligations.Splat20Result := by
  intro s n hm hfit
  have hloop : LoopAt s 32 6 (splat20Words s n.toNat) n.toNat
      ((splat20Point n)^[n.toNat] (beginIndex s)) :=
    LoopAt_run hm (texelsExist_of_footprint hfit rfl) (fun _ => rfl)
      (fun _ hi _ hl => splat20Point_of_loopAt hfit hi hl) n.toNat le_rfl
  refine ⟨_, execSplat20_next.mpr ⟨(splat20Check_none hm).mpr hfit, rfl⟩, ?_⟩
  simp only [← splat20Record_eq_planes]
  exact LoopAt_complete hloop

/-! ## Rounding between two numbers -/

/-- Which of two numbers is nearer to `x` is the side of their middle on which `x` lies. -/
theorem abs_sub_le_abs_sub_iff (a b x : ℝ) : |a - x| ≤ |b - x| ↔ 0 ≤ (b - a) * (a + b - 2 * x) := by
  rw [← sq_le_sq, ← sub_nonneg, show (b - x) ^ 2 - (a - x) ^ 2 = (b - a) * (a + b - 2 * x) by ring]

/-- The numbers to which `a` is at least as near as `b` make an interval. -/
theorem nearer_of_between {a b lo x hi : ℝ} (hlo : lo ≤ x) (hhi : x ≤ hi) (h1 : |a - lo| ≤ |b - lo|)
    (h2 : |a - hi| ≤ |b - hi|) : |a - x| ≤ |b - x| := by
  rw [abs_sub_le_abs_sub_iff] at *
  rcases le_total a b with h | h
  · exact h2.trans (mul_le_mul_of_nonneg_left (by linarith) (by linarith))
  · exact h1.trans (mul_le_mul_of_nonpos_left (by linarith) (by linarith))

/-- A tie in that interval is a tie at one of its ends. -/
theorem tie_of_between {a b lo x hi : ℝ} (hlo : lo ≤ x) (hhi : x ≤ hi) (h1 : |a - lo| ≤ |b - lo|)
    (h2 : |a - hi| ≤ |b - hi|) (htie : |b - x| = |a - x|) :
    b = a ∨ |b - lo| = |a - lo| ∨ |b - hi| = |a - hi| := by
  rw [abs_sub_le_abs_sub_iff] at h1 h2
  have hx := (abs_sub_le_abs_sub_iff b a x).mp htie.le
  rcases lt_trichotomy a b with h | h | h
  · have : hi = x := by nlinarith
    exact .inr (.inr (by rw [this, htie]))
  · exact .inl h.symm
  · have : lo = x := by nlinarith
    exact .inr (.inl (by rw [this, htie]))

theorem f32Finite_of_inf {r : Word} {neg : Bool} (h : f32Unpack r = .inf neg) : f32Finite r = false := by
  by_contra hfin
  have hne : f32Exp r ≠ 255 := by simpa [f32Finite] using hfin
  rw [f32Unpack, if_neg hne] at h
  split at h <;> cases h

/-- A pattern to which two numbers round is that of every number between them. -/
theorem roundsTo_of_between {lo x hi : ℝ} {r : Word} (h0 : 0 ≤ lo) (hlo : lo ≤ x) (hhi : x ≤ hi)
    (h1 : roundsTo lo r) (h2 : roundsTo hi r) : roundsTo x r := by
  obtain ⟨-, -, hl⟩ := h1
  obtain ⟨hpos, -, hh⟩ := h2
  rw [abs_of_nonneg h0] at hl
  rw [abs_of_nonneg (h0.trans (hlo.trans hhi))] at hh
  refine ⟨fun hx => hpos (hx.trans_le hhi), fun hx => absurd hx (h0.trans hlo).not_gt, ?_⟩
  rw [abs_of_nonneg (h0.trans hlo)]
  rcases hl with ⟨hbig, hinf⟩ | ⟨-, hfin, hbestLo⟩
  · exact .inl ⟨hbig.trans hlo, hinf⟩
  · rcases hh with ⟨-, hinf⟩ | ⟨hsmall, -, hbestHi⟩
    · exact absurd hfin (by simp [f32Finite_of_inf hinf])
    · refine .inr ⟨hhi.trans_lt hsmall, hfin, fun y hy => ?_⟩
      obtain ⟨hnearLo, htieLo⟩ := hbestLo y hy
      obtain ⟨hnearHi, htieHi⟩ := hbestHi y hy
      refine ⟨nearer_of_between hlo hhi hnearLo hnearHi, fun htie => ?_⟩
      rcases tie_of_between hlo hhi hnearLo hnearHi htie with heq | hends | hends
      · exact .inl (by exact_mod_cast heq)
      · exact htieLo hends
      · exact htieHi hends

/-! ## Enclosures in fixed point -/

/-- `x` lies between `lo` and `hi` in units of 2^-80. -/
structure Encloses (lo hi : Nat) (x : ℝ) : Prop where
  below : (lo : ℝ) * 2 ^ (-80 : ℤ) ≤ x
  above : x ≤ (hi : ℝ) * 2 ^ (-80 : ℤ)

theorem Encloses.roundsTo {lo hi : Nat} {x : ℝ} {w : Word} (h : Encloses lo hi x)
    (h1 : f32Round false lo (-80) = w) (h2 : f32Round false hi (-80) = w) : roundsTo x w := by
  have hl := f32Round_roundsTo false lo (-80)
  have hh := f32Round_roundsTo false hi (-80)
  rw [h1, if_neg Bool.false_ne_true, one_mul] at hl
  rw [h2, if_neg Bool.false_ne_true, one_mul] at hh
  exact roundsTo_of_between (by positivity) h.below h.above hl hh

/-- `e^(1/16)` in units of 2^-64, rounded down. -/
def expStep : Nat := 19636456851539679189

/-- Twelve terms of the series give `e^(1/16)` to 64 bits. -/
theorem expStep_bounds : (expStep : ℝ) ≤ Real.exp (1 / 16) * 2 ^ 64 ∧
    Real.exp (1 / 16) * 2 ^ 64 ≤ ((expStep + 1 : Nat) : ℝ) := by
  have hlow := Real.sum_le_exp_of_nonneg (x := 1 / 16) (by norm_num) 12
  have hhigh := Real.exp_bound' (x := 1 / 16) (by norm_num) (by norm_num) (n := 12) (by norm_num)
  simp only [Finset.sum_range_succ, Finset.sum_range_zero, Nat.factorial] at hlow hhigh
  norm_num at hlow hhigh
  constructor <;> norm_num [expStep] <;> linarith

/-- A quotient rounded up is no smaller. -/
theorem div_le_div_add_one (a d : Nat) : (a : ℝ) / d ≤ ((a / d + 1 : Nat) : ℝ) := by
  rw [Nat.cast_add_one, ← Nat.floor_div_eq_div (K := ℝ)]
  exact (Nat.lt_floor_add_one _).le

/-- One code up: both ends times `e^(1/16)`, rounded outwards. -/
theorem Encloses.step {lo hi : Nat} {x : ℝ} (h : Encloses lo hi x) :
    Encloses (lo * expStep / 2 ^ 64) (hi * (expStep + 1) / 2 ^ 64 + 1) (x * Real.exp (1 / 16)) := by
  obtain ⟨hsl, hsh⟩ := expStep_bounds
  have hx : 0 ≤ x := le_trans (by positivity) h.below
  have hlo : ((lo * expStep / 2 ^ 64 : Nat) : ℝ) ≤ (lo * expStep : ℝ) / 2 ^ 64 := by
    exact_mod_cast Nat.cast_div_le (α := ℝ) (m := lo * expStep) (n := 2 ^ 64)
  have hhi : (hi * (expStep + 1 : Nat) : ℝ) / 2 ^ 64 ≤
      ((hi * (expStep + 1) / 2 ^ 64 + 1 : Nat) : ℝ) := by
    have := div_le_div_add_one (hi * (expStep + 1)) (2 ^ 64)
    rwa [Nat.cast_mul, Nat.cast_pow, Nat.cast_ofNat] at this
  constructor
  · calc ((lo * expStep / 2 ^ 64 : Nat) : ℝ) * 2 ^ (-80 : ℤ)
        ≤ (lo * expStep : ℝ) / 2 ^ 64 * 2 ^ (-80 : ℤ) := by gcongr
      _ = lo * 2 ^ (-80 : ℤ) * expStep / 2 ^ 64 := by ring
      _ ≤ x * (Real.exp (1 / 16) * 2 ^ 64) / 2 ^ 64 := by gcongr; exact h.below
      _ = x * Real.exp (1 / 16) := by ring
  · calc x * Real.exp (1 / 16)
        = x * (Real.exp (1 / 16) * 2 ^ 64) / 2 ^ 64 := by ring
      _ ≤ hi * 2 ^ (-80 : ℤ) * (expStep + 1 : Nat) / 2 ^ 64 := by gcongr; exact h.above
      _ = (hi * (expStep + 1 : Nat) : ℝ) / 2 ^ 64 * 2 ^ (-80 : ℤ) := by ring
      _ ≤ ((hi * (expStep + 1) / 2 ^ 64 + 1 : Nat) : ℝ) * 2 ^ (-80 : ℤ) := by gcongr

/-- `e^-k` from `e` to twenty places. -/
theorem Encloses.exp_neg {lo hi : Nat} (k : Nat)
    (hlo : (lo : ℝ) * 2 ^ (-80 : ℤ) * (363916618873 / 133877442384 + 1 / 10 ^ 20) ^ k ≤ 1)
    (hhi : 1 ≤ (hi : ℝ) * 2 ^ (-80 : ℤ) * (363916618873 / 133877442384 - 1 / 10 ^ 20) ^ k) :
    Encloses lo hi (Real.exp (-k)) := by
  obtain ⟨hlow, hhigh⟩ := abs_le.mp Real.exp_one_near_20
  have hpow : Real.exp (-k) * Real.exp 1 ^ k = 1 := by
    rw [← Real.exp_nat_mul, ← Real.exp_add]; simp
  have hpos : 0 < Real.exp 1 ^ k := by positivity
  constructor
  · refine le_of_mul_le_mul_right ?_ hpos
    calc (lo : ℝ) * 2 ^ (-80 : ℤ) * Real.exp 1 ^ k
        ≤ lo * 2 ^ (-80 : ℤ) * (363916618873 / 133877442384 + 1 / 10 ^ 20) ^ k := by gcongr; linarith
      _ ≤ Real.exp (-k) * Real.exp 1 ^ k := by rwa [hpow]
  · refine le_of_mul_le_mul_right ?_ hpos
    calc Real.exp (-k) * Real.exp 1 ^ k
        ≤ hi * 2 ^ (-80 : ℤ) * (363916618873 / 133877442384 - 1 / 10 ^ 20) ^ k := by rwa [hpow]
      _ ≤ hi * 2 ^ (-80 : ℤ) * Real.exp 1 ^ k := by gcongr; linarith

/-! ## The table -/

/-- Each word is what both ends of its enclosure round to; `lo` and `hi` enclose the first number, and each one
after it is `e^(1/16)` times the one before. -/
def encloseRounds : List Word → Nat → Nat → Bool
  | [], _, _ => true
  | w :: ws, lo, hi =>
    decide (f32Round false lo (-80) = w) && decide (f32Round false hi (-80) = w) &&
      encloseRounds ws (lo * expStep / 2 ^ 64) (hi * (expStep + 1) / 2 ^ 64 + 1)

/-- Word `k` of such a list is the nearest one to the first number times `e^(k/16)`. -/
theorem roundsTo_of_encloseRounds {ws : List Word} {lo hi : Nat} {x : ℝ}
    (hws : encloseRounds ws lo hi = true) (hx : Encloses lo hi x) {k : Nat} {w : Word}
    (hw : ws[k]? = some w) : roundsTo (x * Real.exp (1 / 16) ^ k) w := by
  induction ws generalizing lo hi x k with
  | nil => cases hw
  | cons v ws ih =>
    simp only [encloseRounds, Bool.and_eq_true, decide_eq_true_eq] at hws
    obtain ⟨⟨hlo, hhi⟩, hrest⟩ := hws
    cases k with
    | zero =>
      cases hw
      simpa using hx.roundsTo hlo hhi
    | succ k =>
      rw [pow_succ', ← mul_assoc]
      exact ih hrest hx.step hw

/-- Codes 0 to 127 of the default EXP, from `e^-10` on. -/
def expLower : List Word := expRows0 ++ expRows1 ++ expRows2 ++ expRows3

/-- Codes 128 to 255 of the default EXP, from `e^-2` on. -/
def expUpper : List Word := expRows4 ++ expRows5 ++ expRows6 ++ expRows7

/-- The 256 codes read as one list (R186). -/
theorem splatScale_default (c : Byte) :
    (expLower ++ expUpper)[c.toNat]? = some (splatScale defaultConfig c) := by
  have hrows : defaultExp.toList = expLower ++ expUpper := by
    simp [defaultExp, expLower, expUpper, Vector.toList]
  rw [← hrows, Vector.getElem?_toList]
  exact Vector.getElem?_eq_getElem c.isLt

theorem encloses_exp_neg_ten :
    Encloses 54885147298558595978 54885147298558595983 (Real.exp (-(10 : Nat))) :=
  .exp_neg 10 (by norm_num) (by norm_num)

theorem encloses_exp_neg_two :
    Encloses 163610318209599982777426 163610318209599982779835 (Real.exp (-(2 : Nat))) :=
  .exp_neg 2 (by norm_num) (by norm_num)

theorem encloseRounds_expLower :
    encloseRounds expLower 54885147298558595978 54885147298558595983 = true := by decide

theorem encloseRounds_expUpper :
    encloseRounds expUpper 163610318209599982777426 163610318209599982779835 = true := by decide

/-- `e^(c/16 - 10)` as steps of one code from `e^-j`. -/
theorem exp_scaleExponent {c : Byte} {j k : Nat} (h : c.toNat + 16 * j = 160 + k) :
    Real.exp ((scaleExponent c : ℚ) : ℝ) = Real.exp (-j) * Real.exp (1 / 16) ^ k := by
  have hc : (c.toNat : ℝ) = 160 + k - 16 * j := by
    rw [eq_sub_iff_add_eq]; exact_mod_cast h
  rw [← Real.exp_nat_mul, ← Real.exp_add, scaleExponent]
  congr 1
  push_cast [hc, constants]
  ring

/-- Settles O43: in each half of the table both ends of every enclosure round to the table's word. -/
theorem defaultExpIsNearest : Obligations.DefaultExpIsNearest := by
  intro c
  have hw := splatScale_default c
  rcases Nat.lt_or_ge c.toNat 128 with hc | hc
  · rw [List.getElem?_append_left hc] at hw
    have := roundsTo_of_encloseRounds encloseRounds_expLower encloses_exp_neg_ten hw
    rwa [exp_scaleExponent (j := 10) (k := c.toNat) (by omega)]
  · rw [List.getElem?_append_right hc] at hw
    have := roundsTo_of_encloseRounds encloseRounds_expUpper encloses_exp_neg_two hw
    rwa [exp_scaleExponent (j := 2) (k := c.toNat - 128) (by omega)]

end Sys2Proof.Machine
end

section
/-! The Spherical-Harmonics Unpackers (46_spherical_harmonics.md). The set bits of the stream are listed by one
equivalence (`shPack_getLsbD`), from which each clause on the placement of a coefficient is read off. The three
unpackers are the loop of an unpacker (`LoopAt_run`), each with its own number of coefficients. -/

namespace Sys2Proof.Machine

/-! ## The stream of one point -/

/-- Bit `p` is a set bit of a coefficient: it stands at `V[127-5k : 123-5k]` for coefficient `k = j + i`, where
byte `i` of the list is coefficient `j + i` (R203). -/
def CoefficientBit (j : Nat) (bs : List Byte) (p : Nat) : Prop :=
  ∃ i b r, bs[i]? = some b ∧ r < 5 ∧ p = 128 - 5 * (j + i + 1) + r ∧ b.getLsbD (3 + r) = true

theorem CoefficientBit_nil (j p : Nat) : ¬ CoefficientBit j [] p := by
  rintro ⟨i, b, r, hb, -⟩
  cases hb

/-- A set bit belongs to the first coefficient or to one after it. -/
theorem CoefficientBit_cons (j : Nat) (b : Byte) (bs : List Byte) (p : Nat) :
    CoefficientBit j (b :: bs) p ↔
      (∃ r < 5, p = 128 - 5 * (j + 1) + r ∧ b.getLsbD (3 + r) = true) ∨ CoefficientBit (j + 1) bs p := by
  constructor
  · rintro ⟨i, c, r, hc, hr, hp, hbit⟩
    cases i with
    | zero => cases hc; exact .inl ⟨r, hr, hp, hbit⟩
    | succ i => exact .inr ⟨i, c, r, hc, hr, by omega, hbit⟩
  · rintro (⟨r, hr, hp, hbit⟩ | ⟨i, c, r, hc, hr, hp, hbit⟩)
    · exact ⟨0, b, r, rfl, hr, hp, hbit⟩
    · exact ⟨i + 1, c, r, hc, hr, by omega, hbit⟩

/-- The code of a byte is its bits 7:3 (R201). -/
theorem shCode_getLsbD (b : Byte) (r : Nat) : (shCode b).getLsbD r = b.getLsbD (3 + r) := by
  rw [shCode, BitVec.getLsbD_ushiftRight]
  rfl

/-- A coefficient shifted to `k` has its five bits from `k` on. -/
theorem shiftedCode_getLsbD (b : Byte) {k : Nat} (hk : k + 5 ≤ 128) (p : Nat) :
    ((shCode b).setWidth 128 <<< k).getLsbD p = true ↔
      ∃ r < 5, p = k + r ∧ b.getLsbD (3 + r) = true := by
  simp only [BitVec.getLsbD_shiftLeft, BitVec.getLsbD_setWidth, shCode_getLsbD, Bool.and_eq_true,
    Bool.not_eq_true', decide_eq_true_eq, decide_eq_false_iff_not]
  constructor
  · rintro ⟨⟨-, hkp⟩, -, hbit⟩
    have := BitVec.lt_of_getLsbD hbit
    exact ⟨p - k, by omega, by omega, hbit⟩
  · rintro ⟨r, hr, rfl, hbit⟩
    rw [Nat.add_sub_cancel_left]
    exact ⟨⟨by omega, by omega⟩, by omega, hbit⟩

theorem shAccumulate_getLsbD (j : Nat) (bs : List Byte) (p : Nat) :
    (shAccumulate j bs).getLsbD p = true ↔ CoefficientBit j bs p := by
  induction bs generalizing j with
  | nil => simp [shAccumulate, CoefficientBit_nil]
  | cons b bs ih =>
    rw [shAccumulate, BitVec.getLsbD_or, Bool.or_eq_true, ih, CoefficientBit_cons]
    exact or_congr_left (shiftedCode_getLsbD b (by simp only [constants]; omega) p)

/-- The set bits of a stream are the trailer and those of its coefficients (R203). -/
theorem shPack_getLsbD (bs : List Byte) (p : Nat) :
    (shPack bs).getLsbD p = true ↔ CoefficientBit 0 bs p ∨ p = 0 := by
  have htrailer : constants.shTrailer.getLsbD p = true ↔ p = 0 := by
    simp [constants, BitVec.getLsbD_one]
  rw [shPack, BitVec.getLsbD_or, Bool.or_eq_true, shAccumulate_getLsbD, htrailer]

/-- While the coefficients fit, only coefficient `j` reaches its five places. -/
theorem CoefficientBit_at {bs : List Byte} (hlen : bs.length ≤ 24) {j r : Nat} (hj : j < bs.length)
    (hr : r < 5) : CoefficientBit 0 bs (123 - 5 * j + r) ↔ bs[j].getLsbD (3 + r) = true := by
  constructor
  · rintro ⟨i, b, q, hb, hq, hp, hbit⟩
    obtain ⟨hi, rfl⟩ := List.getElem?_eq_some_iff.mp hb
    obtain rfl : i = j := by omega
    obtain rfl : q = r := by omega
    exact hbit
  · exact fun hbit => ⟨j, bs[j], r, List.getElem?_eq_getElem hj, hr, by omega, hbit⟩

/-- No coefficient reaches below the last one. -/
theorem not_CoefficientBit_below {bs : List Byte} {p : Nat} (hp : p < 128 - 5 * bs.length) :
    ¬ CoefficientBit 0 bs p := by
  rintro ⟨i, b, r, hb, -, rfl, -⟩
  obtain ⟨hi, -⟩ := List.getElem?_eq_some_iff.mp hb
  omega

/-- Settles O36: the list of the set bits, read at the places of a coefficient, at the trailer and below the last
coefficient. -/
theorem coefficientPlacement : Obligations.CoefficientPlacement := by
  intro bs hlen
  refine ⟨fun j hj => ?_, (shPack_getLsbD bs 0).mpr (.inr rfl), fun p hpos hp => ?_⟩
  · refine BitVec.eq_of_getLsbD_eq fun r hr => Bool.eq_iff_iff.mpr ?_
    have hne : 123 - 5 * j + r ≠ 0 := by omega
    simp only [BitVec.getLsbD_extractLsb', hr, decide_true, Bool.true_and]
    rw [shPack_getLsbD, CoefficientBit_at hlen hj hr, or_iff_left hne]
  · rw [← Bool.not_eq_true, shPack_getLsbD]
    rintro (hbit | rfl)
    · exact not_CoefficientBit_below hp hbit
    · exact absurd hpos (lt_irrefl 0)

/-! ## The unpackers -/

/-- The words of texel `i` of a block that starts in `s`, `k` coefficients a point. -/
def shTexelWords (s : State) (k i : Nat) : List Word :=
  shWords (shPack (shCoefficients s.mem s.smp.inBase k i))

/-- The coefficients of a point depend on its `k` bytes (R84). -/
theorem shCoefficients_congr {m m' : Memory} {a k i : Nat}
    (h : ∀ j < k, m.byte (a + 8 + k * i + j) = m'.byte (a + 8 + k * i + j)) :
    shCoefficients m a k i = shCoefficients m' a k i :=
  bytes_congr h

/-- The coefficients are as they were at the start for as long as the loop runs, since no texel overlaps them
(R64). -/
theorem shCoefficients_unchanged {s₀ s : State} {n : Word} {k i : Nat} {ws : Nat → List Word}
    (hfit : footprintOk s₀ (blockFootprint s₀ k 16 n)) (hi : i < n.toNat) (hl : LoopAt s₀ 16 0 ws i s) :
    shCoefficients s.mem s₀.smp.inBase k i = shCoefficients s₀.mem s₀.smp.inBase k i := by
  refine shCoefficients_congr fun j hj => ?_
  have hpoint : k * (i + 1) ≤ k * n.toNat := Nat.mul_le_mul_left k hi
  rw [Nat.mul_succ] at hpoint
  have hread : (blockFootprint s₀ k 16 n).reads.has (s₀.smp.inBase + 8 + k * i + j) = true := by
    simp only [Span_has_iff, blockFootprint, constants]
    omega
  exact LoopAt_byte hl hi.le (Span_has_false_iff.mp (not_written_of_read hfit hread))

/-- At point `i` of the loop the body writes texel `i`, packed from the coefficients as they were at the start. -/
theorem shPoint_of_loopAt {s₀ s : State} {n : Word} {k i : Nat}
    (hfit : footprintOk s₀ (blockFootprint s₀ k 16 n)) (hi : i < n.toNat)
    (hl : LoopAt s₀ 16 0 (shTexelWords s₀ k) i s) :
    shPoint k s = bumpIndex (putWords (s₀.smp.outBase + 16 * i) (shTexelWords s₀ k i) 0 s) := by
  obtain ⟨hindex, hsmp, -, -⟩ := LoopAt_fields hl
  rw [shPoint_some hindex, toNat_index hi, hsmp, shCoefficients_unchanged hfit hi hl]
  rfl

/-- An unpacker whose footprint is in order completes, with the stream of every point at its texel (R202). -/
theorem shDecode_unpacked {s : State} {n : Word} {k : Nat} (hm : s.mem.wf = true)
    (hfit : footprintOk s (blockFootprint s k 16 n)) :
    ∃ t, shDecode k n s = .next t ∧ unpacked s t 16 n.toNat (shTexelWords s k) 0 := by
  have hloop : LoopAt s 16 0 (shTexelWords s k) n.toNat ((shPoint k)^[n.toNat] (beginIndex s)) :=
    LoopAt_run hm (texelsExist_of_footprint hfit rfl) (fun _ => rfl)
      (fun _ hi _ hl => shPoint_of_loopAt hfit hi hl) n.toNat le_rfl
  refine ⟨_, shDecode_next.mpr ⟨(shCheck_none hm).mpr hfit, rfl⟩, ?_⟩
  simpa only [Nat.zero_mul] using LoopAt_complete hloop

/-- Settles O35: SH1, SH12 and SH3 are one unpacker with 9, 24 and 21 coefficients a point. -/
theorem sphericalHarmonicsResult : Obligations.SphericalHarmonicsResult :=
  fun _ _ hm => ⟨shDecode_unpacked hm, shDecode_unpacked hm, shDecode_unpacked hm⟩

end Sys2Proof.Machine
end

section
/-! Commands and block prefixes (30_encoding.md R70 to R76). The decoder's answers are inverted once, with the
instruction and its encoding side by side; both directions of the round trip and the byte layout follow. -/

namespace Sys2Proof

/-! ## The fields of a prefix -/

/-- A prefix is its two fields, the tag above the count (R74). -/
theorem prefixWord_fields (p : PrefixWord) : prefixWord (prefixTag p) (prefixCount p) = p := by
  have h : (prefixTag p ++ prefixCount p : BitVec (32 + 32)) = p.extractLsb' 0 (32 + 32) := by
    exact BitVec.extractLsb'_append_extractLsb'_eq_extractLsb' rfl
  rw [prefixWord, h]
  exact BitVec.extractLsb'_eq_self

/-- The tags that decode, each with its unpacker (R75). -/
theorem decodeTag_ok {tag n : Word} {i : Instr} (h : decodeTag tag n = .ok i) :
    (tag = 20 ∧ i = .splat20 n) ∨ (tag = 1 ∧ i = .sh1 n) ∨ (tag = 2 ∧ i = .sh12 n) ∨
      (tag = 3 ∧ i = .sh3 n) := by
  rcases Machine.dispatchTag_cases tag n Machine.State.reset with ⟨ht, -, hd, -⟩ | ⟨ht, -, hd, -⟩ |
    ⟨ht, -, hd, -⟩ | ⟨ht, -, hd, -⟩ | ⟨-, -, -, -, -, hd, -⟩ <;> rw [hd] at h <;> cases h
  · exact .inl ⟨ht, rfl⟩
  · exact .inr (.inl ⟨ht, rfl⟩)
  · exact .inr (.inr (.inl ⟨ht, rfl⟩))
  · exact .inr (.inr (.inr ⟨ht, rfl⟩))

/-! ## The round trip -/

theorem encode_of_decodeCommand {w : Word} {i : Instr} (h : decodeCommand w = .ok i) :
    encode i = some (.cmd w) := by
  rcases Machine.decodeCommand_ok h with ⟨rfl, rfl⟩ | ⟨rfl, rfl⟩ | ⟨rfl, rfl⟩ <;> rfl

theorem encode_of_decodeTag {tag n : Word} {i : Instr} (h : decodeTag tag n = .ok i) :
    encode i = some (.block (prefixWord tag n)) := by
  rcases decodeTag_ok h with ⟨rfl, rfl⟩ | ⟨rfl, rfl⟩ | ⟨rfl, rfl⟩ | ⟨rfl, rfl⟩ <;> rfl

theorem encode_of_decode {e : Encoded} {i : Instr} (h : decode e = .ok i) : encode i = some e := by
  cases e with
  | cmd w => exact encode_of_decodeCommand h
  | block p => rw [encode_of_decodeTag h, prefixWord_fields]

theorem decode_of_encode {i : Instr} {e : Encoded} (h : encode i = some e) : decode e = .ok i := by
  cases i <;> cases h
  case validateHeader | decodePoints | decodeBlock => rfl
  case splat20 | sh1 | sh12 | sh3 => rw [Machine.decode_prefixWord]; rfl

/-- The bytes of an encoding decode as the encoding does (R42, R77). -/
theorem decodeBytes_bytes (e : Encoded) : decodeBytes e.bytes = (decode e).toOption := by
  cases e with
  | cmd w =>
    have hw : BitVec.ofNat 32 (leNat (leBytes 4 w.toNat)) = w := by
      rw [Machine.leNat_leBytes, Nat.mod_eq_of_lt (by simpa using w.isLt), BitVec.ofNat_toNat, BitVec.setWidth_eq]
    rw [Encoded.bytes, decodeBytes, if_pos (Machine.leBytes_length 4 _), hw]
  | block p =>
    have hp : BitVec.ofNat 64 (leNat (leBytes 8 p.toNat)) = p := by
      rw [Machine.leNat_leBytes, Nat.mod_eq_of_lt (by simpa using p.isLt), BitVec.ofNat_toNat, BitVec.setWidth_eq]
    rw [Encoded.bytes, decodeBytes, Machine.leBytes_length, if_neg (by decide), if_pos rfl, hp]

theorem encodable_eq_isSome_encode (i : Instr) : i.encodable = (encode i).isSome := by
  cases i <;> rfl

/-- Settles O1: each answer of the decoder is inverted by the encoder and back, and the byte layout loses
nothing. -/
theorem decodeInvertsEncode : Obligations.DecodeInvertsEncode := by
  refine ⟨fun i e => ⟨encode_of_decode, decode_of_encode⟩, fun i e _ he => ?_,
    encodable_eq_isSome_encode⟩
  rw [decodeBytes_bytes, decode_of_encode he]
  rfl

/-! ## Words of the tables, and words outside them -/

/-- Settles O2, by evaluation. -/
theorem tableWordsDecode : Obligations.TableWordsDecode := by
  unfold Obligations.TableWordsDecode
  decide

/-- The two fields of OP are its value (R25). -/
theorem toNat_opFields (w : Word) :
    w.toNat = 4 * (Machine.opReserved w).toNat + (Machine.opcodeField w).toNat := by
  simp only [Machine.opReserved, Machine.opcodeField, BitVec.extractLsb'_toNat,
    Nat.shiftRight_eq_div_pow]
  have := w.isLt
  omega

/-- A word is reserved unless it is 0, 1 or 2 (R72). -/
theorem opReserved_iff (w : Word) :
    (Machine.opReserved w ≠ 0 ∨ Machine.opcodeField w = 3) ↔ w ≠ 0 ∧ w ≠ 1 ∧ w ≠ 2 := by
  have hw := toNat_opFields w
  have hfield := (Machine.opcodeField w).isLt
  bv_omega

theorem decodeCommand_error_iff (w : Word) :
    decodeCommand w = .error .reservedOpcode ↔ w ≠ 0 ∧ w ≠ 1 ∧ w ≠ 2 := by
  constructor
  · intro h
    refine ⟨?_, ?_, ?_⟩ <;> rintro rfl <;> cases h
  · rintro ⟨h0, h1, h2⟩
    rw [decodeCommand, if_neg h0, if_neg h1, if_neg h2]

/-- Settles O3: the reserved words are those whose fields are not those of 0, 1 or 2, and the fifth case of the
dispatch is the unsupported tag. -/
theorem reservedEncodingsRejected : Obligations.ReservedEncodingsRejected := by
  refine ⟨fun w => (decodeCommand_error_iff w).trans (opReserved_iff w).symm, fun tag n => ⟨fun h => ?_, ?_⟩⟩
  · rcases Machine.dispatchTag_cases tag n Machine.State.reset with ⟨-, -, hd, -⟩ | ⟨-, -, hd, -⟩ |
      ⟨-, -, hd, -⟩ | ⟨-, -, hd, -⟩ | ⟨h20, h1, h2, h3, -⟩
    · cases h.symm.trans hd
    · cases h.symm.trans hd
    · cases h.symm.trans hd
    · cases h.symm.trans hd
    · exact ⟨h20, h1, h2, h3⟩
  · rintro ⟨h20, h1, h2, h3⟩
    simp only [decodeTag, Machine.constants, h20, h1, h2, h3, if_false]

end Sys2Proof
end

section
/-! What a move of the core leaves as it was (10_state.md R24, R28), said once for every state: a command that
answers has completed, and beside its completion only memory and the count of free values may have changed.
From it the statements on the core's move, and that a host write commutes with it (R29). -/

namespace Sys2Proof.Machine

/-! ## What every operation of the core keeps -/

/-- The interface registers but STATUS, the parameters, the memory map, the footprints held and the host's moves
are those of `s`, and memory is still in its canonical form. -/
structure CoreFrame (s t : State) : Prop where
  op : t.op = s.op
  inBase : t.inBase = s.inBase
  outBase : t.outBase = s.outBase
  count : t.count = s.count
  cfg : t.cfg = s.cfg
  map : t.mem.map = s.mem.map
  held : t.held = s.held
  hostQueue : t.hostQueue = s.hostQueue
  wf : s.mem.wf = true → t.mem.wf = true

theorem CoreFrame.refl (s : State) : CoreFrame s s := ⟨rfl, rfl, rfl, rfl, rfl, rfl, rfl, rfl, id⟩

theorem CoreFrame.trans {s t u : State} (h : CoreFrame s t) (h' : CoreFrame t u) : CoreFrame s u :=
  ⟨h'.op.trans h.op, h'.inBase.trans h.inBase, h'.outBase.trans h.outBase, h'.count.trans h.count,
    h'.cfg.trans h.cfg, h'.map.trans h.map, h'.held.trans h.held, h'.hostQueue.trans h.hostQueue,
    h'.wf ∘ h.wf⟩

theorem CoreFrame.iterate {body : State → State} (hb : ∀ s, CoreFrame s (body s)) (s : State) :
    ∀ n, CoreFrame s (body^[n] s)
  | 0 => .refl s
  | n + 1 => by
    rw [Function.iterate_succ_apply']
    exact (CoreFrame.iterate hb s n).trans (hb _)

theorem beginIndex_frame (s : State) : CoreFrame s (beginIndex s) :=
  ⟨rfl, rfl, rfl, rfl, rfl, rfl, rfl, rfl, id⟩

theorem headerBegin_frame (s : State) : CoreFrame s (headerBegin s) :=
  ⟨rfl, rfl, rfl, rfl, rfl, rfl, rfl, rfl, id⟩

theorem pointsBegin_frame (s : State) : CoreFrame s (pointsBegin s) :=
  ⟨rfl, rfl, rfl, rfl, rfl, rfl, rfl, rfl, id⟩

theorem latchPrefix_frame (s : State) : CoreFrame s (latchPrefix s) :=
  ⟨rfl, rfl, rfl, rfl, rfl, rfl, rfl, rfl, id⟩

theorem complete_frame (st : Word) (s : State) : CoreFrame s (complete st s) :=
  ⟨rfl, rfl, rfl, rfl, rfl, rfl, rfl, rfl, id⟩

/-- One texel written, and on to the next point. -/
theorem bumpIndex_putWords_frame (a : Nat) (ws : List Word) (k : Nat) (s : State) :
    CoreFrame s (bumpIndex (putWords a ws k s)) :=
  ⟨rfl, rfl, rfl, rfl, rfl, writeWords_map _ _ _, rfl, rfl, fun h => writeWords_wf h _ _⟩

theorem hashByte_frame (s : State) : CoreFrame s (hashByte s) := by
  unfold hashByte
  split
  · exact ⟨rfl, rfl, rfl, rfl, rfl, rfl, rfl, rfl, id⟩
  · exact .refl s

theorem genericSplatPoint_frame (s : State) : CoreFrame s (genericSplatPoint s) := by
  unfold genericSplatPoint
  split
  · exact bumpIndex_putWords_frame _ _ _ _
  · exact .refl s

theorem splat20Point_frame (n : Word) (s : State) : CoreFrame s (splat20Point n s) := by
  unfold splat20Point
  split
  · exact bumpIndex_putWords_frame _ _ _ _
  · exact .refl s

theorem shPoint_frame (k : Nat) (s : State) : CoreFrame s (shPoint k s) := by
  unfold shPoint
  split
  · exact bumpIndex_putWords_frame _ _ _ _
  · exact .refl s

/-! ## The core's move -/

/-- `t` is the completion of a command that started in `s` (R28). -/
def Completed (s t : State) : Prop := ∃ st u, (st = 0 ∨ st = 1) ∧ CoreFrame s u ∧ t = complete st u

theorem statusOf_cases (ok : Bool) : statusOf ok = 0 ∨ statusOf ok = 1 := by
  cases ok
  · exact .inr rfl
  · exact .inl rfl

theorem Completed.of_frame {s u t : State} (h : CoreFrame s u) (ht : Completed u t) : Completed s t := by
  obtain ⟨st, v, hst, hv, rfl⟩ := ht
  exact ⟨st, v, hst, h.trans hv, rfl⟩

theorem execValidateHeader_completed {s t : State} (h : execValidateHeader s = .next t) : Completed s t := by
  obtain ⟨-, rfl⟩ := execValidateHeader_next.mp h
  exact ⟨_, _, statusOf_cases _, (headerBegin_frame s).trans (.iterate hashByte_frame _ _), rfl⟩

theorem execDecodePoints_completed {s t : State} (h : execDecodePoints s = .next t) : Completed s t := by
  obtain ⟨-, rfl⟩ := execDecodePoints_next.mp h
  exact ⟨_, _, .inl rfl, (pointsBegin_frame s).trans (.iterate genericSplatPoint_frame _ _), rfl⟩

theorem execSplat20_completed {s t : State} {n : Word} (h : execSplat20 n s = .next t) : Completed s t := by
  obtain ⟨-, rfl⟩ := execSplat20_next.mp h
  exact ⟨_, _, .inl rfl, (beginIndex_frame s).trans (.iterate (splat20Point_frame n) _ _), rfl⟩

theorem shDecode_completed {s t : State} {k : Nat} {n : Word} (h : shDecode k n s = .next t) :
    Completed s t := by
  obtain ⟨-, rfl⟩ := shDecode_next.mp h
  exact ⟨_, _, .inl rfl, (beginIndex_frame s).trans (.iterate (shPoint_frame k) _ _), rfl⟩

theorem dispatchTag_completed {s t : State} {tag n : Word} (h : dispatchTag tag n s = .next t) :
    Completed s t := by
  rcases dispatchTag_cases tag n s with ⟨-, -, -, hx⟩ | ⟨-, -, -, hx⟩ | ⟨-, -, -, hx⟩ |
    ⟨-, -, -, hx⟩ | ⟨-, -, -, -, -, -, hx⟩ <;> rw [hx] at h
  · exact execSplat20_completed h
  · exact shDecode_completed h
  · exact shDecode_completed h
  · exact shDecode_completed h
  · cases h
    exact ⟨_, _, .inr rfl, .refl s, rfl⟩

theorem execDecodeBlock_completed {s t : State} (h : execDecodeBlock s = .next t) : Completed s t :=
  .of_frame (latchPrefix_frame s) (dispatchTag_completed (execDecodeBlock_next.mp h).2)

/-- Every operation with an encoding ends its command. -/
theorem exec_completed {i : Instr} {s t : State} (hi : i.encodable = true) (h : exec i s = .next t) :
    Completed s t := by
  cases i with
  | validateHeader => exact execValidateHeader_completed h
  | decodePoints => exact execDecodePoints_completed h
  | decodeBlock => exact execDecodeBlock_completed h
  | splat20 n => exact execSplat20_completed h
  | sh1 n => exact shDecode_completed (k := 9) h
  | sh12 n => exact shDecode_completed (k := 24) h
  | sh3 n => exact shDecode_completed (k := 21) h
  | floatToHalf u => cases hi
  | packHalf2x16 ux uy => cases hi
  | writeGeometryTexel o k r => cases hi

theorem fetch_of_busy {s : State} (hb : s.busy = true) : ∃ e, fetch s = some e := by
  unfold fetch
  rw [if_pos hb]
  split <;> exact ⟨_, rfl⟩

/-- What a move of the core answers, in every state: an idle core's, the same state; a running one's, a
completion. -/
theorem coreStep_next {s t : State} (h : coreStep s = .next t) :
    (s.busy = false ∧ t = s) ∨ (s.busy = true ∧ Completed s t) := by
  cases hb : s.busy with
  | false =>
    rw [coreStep_idle hb] at h
    cases h
    exact .inl ⟨rfl, rfl⟩
  | true =>
    obtain ⟨e, he⟩ := fetch_of_busy hb
    refine .inr ⟨rfl, ?_⟩
    simp only [coreStep, he] at h
    split at h
    next i hd => exact exec_completed (decode_ok hd).2 h
    next err hd =>
      cases err with
      | reservedOpcode => cases h
      | unsupportedTag =>
        cases h
        exact ⟨_, _, .inr rfl, .refl s, rfl⟩

theorem coreStep_frame {s t : State} (h : coreStep s = .next t) : CoreFrame s t := by
  rcases coreStep_next h with ⟨-, rfl⟩ | ⟨-, st, u, -, hu, rfl⟩
  · exact .refl t
  · exact hu.trans (complete_frame st u)

/-- Settles O18: a completion and what it completes are each within the frame. -/
theorem coreNeverWritesOperandRegisters : Obligations.CoreNeverWritesOperandRegisters := by
  intro s t h
  obtain ⟨hop, hin, hout, hcount, hcfg, hmap, hheld, hqueue, -⟩ := coreStep_frame h
  exact ⟨hop, hin, hout, hcount, hcfg, hmap, hheld, hqueue⟩

/-! ## The host's side of the state

The core's move does not see the operand registers and the host's coming moves: whatever they are made to be, before
the move or after it, the outcome is the same. -/

/-- What the host writes and the core does not read: `x[0]` to `x[3]` and the coming moves (R29). -/
structure HostSide where
  op : Option Word
  inBase : Option Nat
  outBase : Option Nat
  count : Option Word
  hostQueue : List HostMove

/-- The state with this host side. -/
def withHostSide (h : HostSide) (s : State) : State :=
  { s with op := h.op, inBase := h.inBase, outBase := h.outBase, count := h.count, hostQueue := h.hostQueue }

/-- The host side of a state. -/
def hostSide (s : State) : HostSide :=
  { op := s.op, inBase := s.inBase, outBase := s.outBase, count := s.count, hostQueue := s.hostQueue }

@[simp] theorem withHostSide_cfg (h : HostSide) (s : State) : (withHostSide h s).cfg = s.cfg := rfl

@[simp] theorem withHostSide_smp (h : HostSide) (s : State) : (withHostSide h s).smp = s.smp := rfl

@[simp] theorem withHostSide_mem (h : HostSide) (s : State) : (withHostSide h s).mem = s.mem := rfl

@[simp] theorem withHostSide_index (h : HostSide) (s : State) : (withHostSide h s).index = s.index := rfl

@[simp] theorem withHostSide_draws (h : HostSide) (s : State) : (withHostSide h s).draws = s.draws := rfl

@[simp] theorem withHostSide_fetch (h : HostSide) (s : State) : fetch (withHostSide h s) = fetch s := rfl

@[simp] theorem withHostSide_footprintCheck (h : HostSide) (s : State) (f : Footprint) :
    footprintCheck (withHostSide h s) f = footprintCheck s f :=
  footprintCheck_congr (withHostSide_cfg h s) (by rw [withHostSide_mem]) f

theorem mapNext_refuseOr (f : State → State) (c : Option Refusal) (k : Out) :
    mapNext f (refuseOr c k) = refuseOr c (mapNext f k) := by
  cases c <;> rfl

theorem beginIndex_withHostSide (h : HostSide) (s : State) :
    beginIndex (withHostSide h s) = withHostSide h (beginIndex s) := rfl

theorem headerBegin_withHostSide (h : HostSide) (s : State) :
    headerBegin (withHostSide h s) = withHostSide h (headerBegin s) := rfl

theorem pointsBegin_withHostSide (h : HostSide) (s : State) :
    pointsBegin (withHostSide h s) = withHostSide h (pointsBegin s) := rfl

theorem latchPrefix_withHostSide (h : HostSide) (s : State) :
    latchPrefix (withHostSide h s) = withHostSide h (latchPrefix s) := rfl

theorem complete_withHostSide (st : Word) (h : HostSide) (s : State) :
    complete st (withHostSide h s) = withHostSide h (complete st s) := rfl

theorem headerEnd_withHostSide (h : HostSide) (s : State) :
    headerEnd (withHostSide h s) = withHostSide h (headerEnd s) := rfl

theorem bumpIndex_putWords_withHostSide (a : Nat) (ws : List Word) (k : Nat) (h : HostSide) (s : State) :
    bumpIndex (putWords a ws k (withHostSide h s)) = withHostSide h (bumpIndex (putWords a ws k s)) := rfl

theorem bumpIndex_writeTexel_withHostSide (o : Nat) (i : Word) (p : SplatRecord) (h : HostSide)
    (s : State) :
    bumpIndex (writeTexel o i p (withHostSide h s)) = withHostSide h (bumpIndex (writeTexel o i p s)) := by
  rw [writeTexel, writeTexel, bumpIndex_putWords_withHostSide, withHostSide_cfg, withHostSide_draws]

theorem hashByte_withHostSide (h : HostSide) : Function.Commute hashByte (withHostSide h) := by
  intro s
  cases hi : s.index with
  | none => simp only [hashByte, withHostSide_index, hi]
  | some i =>
    rw [hashByte_some hi, hashByte_some ((withHostSide_index h s).trans hi)]
    rfl

theorem genericSplatPoint_withHostSide (h : HostSide) :
    Function.Commute genericSplatPoint (withHostSide h) := by
  intro s
  cases hi : s.index with
  | none => simp only [genericSplatPoint, withHostSide_index, hi]
  | some i =>
    rw [genericSplatPoint_some hi, genericSplatPoint_some ((withHostSide_index h s).trans hi),
      bumpIndex_writeTexel_withHostSide, withHostSide_smp, withHostSide_mem]

theorem splat20Point_withHostSide (n : Word) (h : HostSide) :
    Function.Commute (splat20Point n) (withHostSide h) := by
  intro s
  cases hi : s.index with
  | none => simp only [splat20Point, withHostSide_index, hi]
  | some i =>
    rw [splat20Point_some hi, splat20Point_some ((withHostSide_index h s).trans hi),
      bumpIndex_writeTexel_withHostSide, withHostSide_smp, withHostSide_mem, withHostSide_cfg]

theorem shPoint_withHostSide (k : Nat) (h : HostSide) :
    Function.Commute (shPoint k) (withHostSide h) := by
  intro s
  cases hi : s.index with
  | none => simp only [shPoint, withHostSide_index, hi]
  | some i =>
    rw [shPoint_some hi, shPoint_some ((withHostSide_index h s).trans hi), bumpIndex_putWords_withHostSide,
      withHostSide_smp, withHostSide_mem]

theorem execValidateHeader_withHostSide (h : HostSide) (s : State) :
    execValidateHeader (withHostSide h s) = mapNext (withHostSide h) (execValidateHeader s) := by
  have hcheck : headerCheck (withHostSide h s) = headerCheck s := by
    simp only [headerCheck, headerFootprint, withHostSide_smp, withHostSide_footprintCheck]
  rw [execValidateHeader, execValidateHeader, mapNext_refuseOr, hcheck, headerBegin_withHostSide,
    (hashByte_withHostSide h).iterate_left _ _, headerEnd_withHostSide, mapNext_next]

theorem execDecodePoints_withHostSide (h : HostSide) (s : State) :
    execDecodePoints (withHostSide h s) = mapNext (withHostSide h) (execDecodePoints s) := by
  have hcheck : pointsCheck (withHostSide h s) = pointsCheck s := by
    simp only [pointsCheck, pointsFootprint, withHostSide_smp, withHostSide_footprintCheck]
  rw [execDecodePoints, execDecodePoints, mapNext_refuseOr, hcheck, pointsBegin_withHostSide, withHostSide_smp,
    (genericSplatPoint_withHostSide h).iterate_left _ _, complete_withHostSide, mapNext_next]

theorem execSplat20_withHostSide (n : Word) (h : HostSide) (s : State) :
    execSplat20 n (withHostSide h s) = mapNext (withHostSide h) (execSplat20 n s) := by
  have hcheck : splat20Check n (withHostSide h s) = splat20Check n s := by
    simp only [splat20Check, blockFootprint, withHostSide_smp, withHostSide_footprintCheck]
  rw [execSplat20, execSplat20, mapNext_refuseOr, hcheck, beginIndex_withHostSide,
    (splat20Point_withHostSide n h).iterate_left _ _, complete_withHostSide, mapNext_next]

theorem shDecode_withHostSide (k : Nat) (n : Word) (h : HostSide) (s : State) :
    shDecode k n (withHostSide h s) = mapNext (withHostSide h) (shDecode k n s) := by
  have hcheck : shCheck k n (withHostSide h s) = shCheck k n s := by
    simp only [shCheck, blockFootprint, withHostSide_smp, withHostSide_footprintCheck]
  rw [shDecode, shDecode, mapNext_refuseOr, hcheck, beginIndex_withHostSide,
    (shPoint_withHostSide k h).iterate_left _ _, complete_withHostSide, mapNext_next]

theorem dispatchTag_withHostSide (tag n : Word) (h : HostSide) (s : State) :
    dispatchTag tag n (withHostSide h s) = mapNext (withHostSide h) (dispatchTag tag n s) := by
  unfold dispatchTag
  split_ifs
  · exact execSplat20_withHostSide n h s
  · exact shDecode_withHostSide _ n h s
  · exact shDecode_withHostSide _ n h s
  · exact shDecode_withHostSide _ n h s
  · rw [complete_withHostSide, mapNext_next]

theorem execDecodeBlock_withHostSide (h : HostSide) (s : State) :
    execDecodeBlock (withHostSide h s) = mapNext (withHostSide h) (execDecodeBlock s) := by
  have hcheck : prefixCheck (withHostSide h s) = prefixCheck s := by
    simp only [prefixCheck, prefixFootprint, withHostSide_smp, withHostSide_footprintCheck]
  rw [execDecodeBlock, execDecodeBlock, mapNext_refuseOr, hcheck, latchPrefix_withHostSide,
    dispatchTag_withHostSide, withHostSide_smp, withHostSide_mem]

theorem exec_withHostSide {i : Instr} (hi : i.encodable = true) (h : HostSide) (s : State) :
    exec i (withHostSide h s) = mapNext (withHostSide h) (exec i s) := by
  cases i with
  | validateHeader => exact execValidateHeader_withHostSide h s
  | decodePoints => exact execDecodePoints_withHostSide h s
  | decodeBlock => exact execDecodeBlock_withHostSide h s
  | splat20 n => exact execSplat20_withHostSide n h s
  | sh1 n => exact shDecode_withHostSide 9 n h s
  | sh12 n => exact shDecode_withHostSide 24 n h s
  | sh3 n => exact shDecode_withHostSide 21 n h s
  | floatToHalf u => cases hi
  | packHalf2x16 ux uy => cases hi
  | writeGeometryTexel o k p => cases hi

theorem coreStep_withHostSide (h : HostSide) (s : State) :
    coreStep (withHostSide h s) = mapNext (withHostSide h) (coreStep s) := by
  unfold coreStep
  rw [withHostSide_fetch]
  split
  next => rfl
  next e he =>
    split
    next i hd => exact exec_withHostSide (decode_ok hd).2 h s
    next err hd =>
      cases err with
      | reservedOpcode => rfl
      | unsupportedTag => exact congrArg Host.Outcome.next (complete_withHostSide _ h s)

/-- Maps of states that agree on what a move answers agree on the move. -/
theorem mapNext_congr {f g : State → State} {o : Out} (h : ∀ t, o = .next t → f t = g t) :
    mapNext f o = mapNext g o := by
  cases o with
  | next t => exact congrArg Host.Outcome.next (h t rfl)
  | fault r => rfl
  | refused r => rfl

/-- A host write gives another host side, that of the registers before it with one value changed. -/
theorem hostWrite_eq_withHostSide {s t : State} (r : XReg) (v : Nat) (ht : CoreFrame s t) :
    hostWrite r v t = withHostSide (hostSide (hostWrite r v s)) t := by
  obtain ⟨hop, hin, hout, hcount, hcfg, -, -, hqueue, -⟩ := ht
  cases r <;> simp only [hostWrite, withHostSide, hostSide, ← hop, ← hin, ← hout, ← hcount, ← hcfg, ← hqueue]

/-- Settles O10: the write gives the state another host side, and the frame of the move keeps the rest of that
side as it was. -/
theorem hostWriteDuringCommandIsNotSeen : Obligations.HostWriteDuringCommandIsNotSeen := by
  intro s r v
  rw [hostWrite_eq_withHostSide r v (.refl s), coreStep_withHostSide]
  exact mapNext_congr fun t ht => (hostWrite_eq_withHostSide r v (coreStep_frame ht)).symm

theorem hostQueue_eq_withHostSide {s t : State} (q : List HostMove) (ht : CoreFrame s t) :
    { t with hostQueue := q } = withHostSide { hostSide s with hostQueue := q } t := by
  obtain ⟨hop, hin, hout, hcount, -⟩ := ht
  simp only [withHostSide, hostSide, ← hop, ← hin, ← hout, ← hcount]

/-- The core's move does not see the coming moves. -/
theorem coreStep_hostQueue {s t : State} (q : List HostMove) (ht : coreStep s = .next t) :
    coreStep { s with hostQueue := q } = .next { t with hostQueue := q } := by
  rw [hostQueue_eq_withHostSide q (.refl s), coreStep_withHostSide, ht, mapNext_next,
    hostQueue_eq_withHostSide q (coreStep_frame ht)]

end Sys2Proof.Machine
end

section
/-! The invariant of the machine (`StateInv`). Each move keeps it by one lemma of its own; the step is one of
them. The statements that need only which moves end a command, start one or let a footprint go follow from the
same case split. -/

namespace Sys2Proof.Machine

/-! ## The two kinds of step -/

theorem step_core {s : State} (h : s.hostQueue = []) : step s = coreStep s := by
  simp only [step, h]

theorem step_host {s : State} {m : HostMove} {rest : List HostMove} (h : s.hostQueue = m :: rest) :
    step s = hostStep m { s with hostQueue := rest } := by
  simp only [step, h]

theorem step_next {s t : State} (h : step s = .next t) :
    (s.hostQueue = [] ∧ coreStep s = .next t) ∨
      ∃ m rest, s.hostQueue = m :: rest ∧ hostStep m { s with hostQueue := rest } = .next t := by
  cases hq : s.hostQueue with
  | nil => exact .inl ⟨rfl, by rwa [step_core hq] at h⟩
  | cons m rest => exact .inr ⟨m, rest, rfl, by rwa [step_host hq] at h⟩

/-! ## The invariant, kept by each move -/

/-- The coming moves are not part of the invariant. -/
theorem StateInv_hostQueue {s : State} (h : StateInv s) (q : List HostMove) :
    StateInv { s with hostQueue := q } := h

/-- With the same map and parameters the configuration is as legal as it was. -/
theorem configOk_congr {s t : State} (hc : t.cfg = s.cfg) (hm : t.mem.map = s.mem.map) (h : configOk s) :
    configOk t := by
  rw [configOk, hc, hm]
  exact h

/-- An idle core meets the invariant once its registers do and nothing hidden is left. -/
theorem StateInv_of_idle {t : State} (hm : t.mem.wf = true) (hc : configOk t) (hw : widthsOk t)
    (hst : statusLegal t) (hh : hiddenGone t) (hb : t.busy = false) : StateInv t :=
  ⟨hm, hc, hw, hst, hh, fun h => absurd (hb.symm.trans h) Bool.false_ne_true⟩

theorem hiddenGone_complete (st : Word) (s : State) : hiddenGone (complete st s) :=
  fun _ => ⟨rfl, rfl, rfl, rfl, rfl, rfl, rfl⟩

theorem coreStep_keepsInv {s t : State} (h : StateInv s) (ht : coreStep s = .next t) : StateInv t := by
  rcases coreStep_next ht with ⟨-, rfl⟩ | ⟨-, st, u, hst, hu, rfl⟩
  · exact h
  obtain ⟨hm, hc, ⟨hin, hout, -, -⟩, -, -, -⟩ := h
  refine StateInv_of_idle (hu.wf hm) (configOk_congr hu.cfg hu.map hc) ⟨?_, ?_, ?_, ?_⟩ hst
    (hiddenGone_complete st u) rfl
  · rw [complete_inBase, complete_cfg, hu.inBase, hu.cfg]
    exact hin
  · rw [complete_outBase, complete_cfg, hu.outBase, hu.cfg]
    exact hout
  · exact Nat.two_pow_pos _
  · exact Nat.two_pow_pos _

theorem hostWrite_keepsInv {s : State} (h : StateInv s) (r : XReg) (v : Nat) :
    StateInv (hostWrite r v s) := by
  obtain ⟨hm, hc, ⟨hin, hout, hsmp⟩, hst, hh, ha⟩ := h
  have hfit : v % 2 ^ s.cfg.addrW < 2 ^ s.cfg.addrW := Nat.mod_lt _ (Nat.two_pow_pos _)
  cases r with
  | op => exact ⟨hm, hc, ⟨hin, hout, hsmp⟩, hst, hh, ha⟩
  | inBase => exact ⟨hm, hc, ⟨fun a h => by cases h; exact hfit, hout, hsmp⟩, hst, hh, ha⟩
  | outBase => exact ⟨hm, hc, ⟨hin, fun a h => by cases h; exact hfit, hsmp⟩, hst, hh, ha⟩
  | count => exact ⟨hm, hc, ⟨hin, hout, hsmp⟩, hst, hh, ha⟩
  | status => exact ⟨hm, hc, ⟨hin, hout, hsmp⟩, hst, hh, ha⟩

/-- A register that fits its width still does when it is sampled, with 0 for no value. -/
theorem getD_lt {o : Option Nat} {w : Nat} (h : ∀ a ∈ o, a < 2 ^ w) : o.getD 0 < 2 ^ w := by
  cases o with
  | none => exact Nat.two_pow_pos w
  | some a => exact h a rfl

theorem runningFootprint_beginCommand (s : State) :
    runningFootprint (beginCommand s) = runningFootprint (sample s) := rfl

theorem hostStart_keepsInv {s t : State} (h : StateInv s) (ht : hostStart s = .next t) : StateInv t := by
  obtain ⟨w, i, hop, hd, hb, -, hcheck, rfl⟩ := hostStart_next.mp ht
  obtain ⟨hm, hc, ⟨hin, hout, -, -⟩, hst, hh, -⟩ := h
  obtain ⟨-, hn, htag, hindex, hrs, -, -⟩ := hh hb
  refine ⟨hm, hc, ⟨hin, hout, getD_lt hin, getD_lt hout⟩, hst, fun h => (by cases h),
    fun _ => ⟨hindex, hrs, hn, htag, ?_, i, ?_, ?_⟩⟩
  · rw [runningFootprint_beginCommand, beginCommand_held]
    exact List.mem_cons_self
  · rw [beginCommand_smp, sample_smp, hop]
    exact hd
  · rw [← hcheck]
    exact startCheck_congr i rfl rfl rfl

theorem resetRegisters_keepsInv {s : State} (hm : s.mem.wf = true) (hc : configOk s) :
    StateInv (resetRegisters s) :=
  StateInv_of_idle hm hc
    ⟨fun a h => by (cases h), fun a h => by (cases h), Nat.two_pow_pos _, Nat.two_pow_pos _⟩
    (.inl rfl) (fun _ => ⟨rfl, rfl, rfl, rfl, rfl, rfl, rfl⟩) rfl

theorem hostReset_keepsInv {s t : State} (h : StateInv s) (ht : hostReset s = .next t) : StateInv t := by
  obtain ⟨hm, hc, -⟩ := h
  rcases hostReset_next.mp ht with ⟨-, rfl⟩ | ⟨-, rfl⟩
  · exact resetRegisters_keepsInv hm hc
  · exact resetRegisters_keepsInv (scramble_wf hm _ _ _) (configOk_congr (s := s) rfl (scramble_map _ _ _ _) hc)

/-- The footprints of an idle core may be let go. -/
theorem letGo_keepsInv {s : State} (h : StateInv s) (hb : s.busy = false) :
    StateInv { s with held := [] } := by
  obtain ⟨hm, hc, hw, hst, hh, -⟩ := h
  exact StateInv_of_idle hm hc hw hst hh hb

theorem observeBusy_keepsInv {s : State} (h : StateInv s) : StateInv (observeBusy s) := by
  cases hb : s.busy with
  | true => rwa [observeBusy_busy_true hb]
  | false => rw [observeBusy_busy_false hb]; exact letGo_keepsInv h hb

theorem hostAwait_keepsInv {s t : State} (h : StateInv s) (ht : hostAwait s = .next t) : StateInv t := by
  rcases hostAwait_next.mp ht with ⟨hb, rfl⟩ | ⟨-, u, hu, rfl⟩
  · exact letGo_keepsInv h hb
  · exact StateInv_hostQueue (coreStep_keepsInv h hu) _

/-- A store that keeps off a footprint leaves the bytes it reads. -/
theorem byte_setByte_of_not_held {s : State} {a x : Nat} {f : Footprint} (b : Byte)
    (hm : s.mem.wf = true) (hf : f ∈ s.held) (ha : heldBuffer s a = false) (hx : f.reads.has x = true) :
    (s.mem.setByte a b).byte x = s.mem.byte x := by
  refine byte_setByte_ne hm b ?_
  rintro rfl
  rw [heldBuffer_iff.mpr ⟨f, hf, .inl hx⟩] at ha
  cases ha

/-- A host store keeps off the running footprint, so the bytes that decide it are as `start` saw them. -/
theorem hostStore_keepsInv {s t : State} {a : Nat} {b : Byte} (h : StateInv s)
    (ht : hostStore a b s = .next t) : StateInv t := by
  obtain ⟨hnot, -, rfl⟩ := hostStore_next.mp ht
  obtain ⟨hm, hc, hw, hst, hh, ha⟩ := h
  refine ⟨setByte_wf hm a b, configOk_congr (s := s) rfl (setByte_map _ _ _) hc, hw, hst, hh, fun hb => ?_⟩
  obtain ⟨hindex, hrs, hn, htag, hheld, i, hd, hcheck⟩ := ha hb
  refine ⟨hindex, hrs, hn, htag, ?_, i, hd, ?_⟩
  · have hkept : runningFootprint { s with mem := s.mem.setByte a b } = runningFootprint s :=
      runningFootprint_congr rfl rfl rfl fun x hx => byte_setByte_of_not_held b hm hheld hnot hx
    rw [hkept]
    exact hheld
  · rw [← hcheck]
    exact startCheck_congr i rfl rfl (setByte_map _ _ _)

theorem hostStep_keepsInv {m : HostMove} {s t : State} (h : StateInv s) (ht : hostStep m s = .next t) :
    StateInv t := by
  cases m with
  | write r v => cases ht; exact hostWrite_keepsInv h r v
  | start => exact hostStart_keepsInv h ht
  | reset => exact hostReset_keepsInv h ht
  | readBusy => cases ht; exact observeBusy_keepsInv h
  | await => exact hostAwait_keepsInv h ht
  | pause => exact coreStep_keepsInv h ht
  | load a => obtain ⟨-, -, rfl⟩ := hostLoad_next.mp ht; exact h
  | store a b => exact hostStore_keepsInv h ht

/-- Settles O17: each move keeps the invariant, and a step is one of them. -/
theorem stepKeepsInvariant : Obligations.StepKeepsInvariant := by
  intro s t h ht
  rcases step_next ht with ⟨-, hcore⟩ | ⟨m, rest, -, hhost⟩
  · exact coreStep_keepsInv h hcore
  · exact hostStep_keepsInv (StateInv_hostQueue h rest) hhost

/-- Settles O16: the reset state is idle, its memory canonical and its one region below 2^32. -/
theorem resetHasInvariant : Obligations.ResetHasInvariant := by
  refine StateInv_of_idle resetMemory_wf ⟨le_refl 32, fun r hr => ?_⟩
    ⟨fun a h => by (cases h), fun a h => by (cases h), Nat.two_pow_pos _, Nat.two_pow_pos _⟩
    (.inl rfl) (fun _ => ⟨rfl, rfl, rfl, rfl, rfl, rfl, rfl⟩) rfl
  rw [List.mem_singleton.mp hr]
  exact le_refl (2 ^ 32)

/-! ## What a step does to STATUS, BUSY and the footprints held -/

/-- The ways in which a step from `s` to `t` can treat STATUS, BUSY and the footprints held. -/
inductive LifeStep (s t : State) : Prop where
  /-- All three are as before. -/
  | unchanged (hstatus : t.status = s.status) (hbusy : t.busy = s.busy) (hheld : t.held = s.held)
  /-- The running command completes (R28). -/
  | completed (hbusy : s.busy = true) (hbusy' : t.busy = false) (hheld : t.held = s.held)
  /-- A command starts, and its footprint is held (R28, R63). -/
  | started (rest : List HostMove) (hqueue : s.hostQueue = .start :: rest) (hstatus : t.status = s.status)
      (hheld : t.held = runningFootprint t :: s.held)
  /-- The core is reset (R250). -/
  | reset (rest : List HostMove) (hqueue : s.hostQueue = .reset :: rest) (hbusy' : t.busy = false)
  /-- BUSY is read as 0, and the footprints are let go (D39). -/
  | observed (rest : List HostMove) (hqueue : s.hostQueue = .readBusy :: rest ∨ s.hostQueue = .await :: rest)
      (hbusy : s.busy = false) (hbusy' : t.busy = false) (hstatus : t.status = s.status)

/-- A move of the core, whatever the coming moves are before it and after it. -/
theorem coreStep_life {s u t : State} {q : List HostMove} (hu : coreStep { s with hostQueue := q } = .next u)
    (hstatus : t.status = u.status) (hbusy : t.busy = u.busy) (hheld : t.held = u.held) : LifeStep s t := by
  have hframe : u.held = s.held := (coreStep_frame hu).held
  rcases coreStep_next hu with ⟨-, rfl⟩ | ⟨hb, st, v, -, -, rfl⟩
  · exact .unchanged hstatus hbusy hheld
  · exact .completed hb hbusy (hheld.trans hframe)

theorem hostStep_life {s t : State} {m : HostMove} {rest : List HostMove} (hq : s.hostQueue = m :: rest)
    (ht : hostStep m { s with hostQueue := rest } = .next t) : LifeStep s t := by
  cases m with
  | write r v => cases ht; cases r <;> exact .unchanged rfl rfl rfl
  | start =>
    obtain ⟨w, i, -, -, -, -, -, rfl⟩ := hostStart_next.mp ht
    exact .started rest hq rfl rfl
  | reset =>
    rcases hostReset_next.mp ht with ⟨-, rfl⟩ | ⟨-, rfl⟩ <;> exact .reset rest hq rfl
  | readBusy =>
    cases ht
    rcases Bool.eq_false_or_eq_true s.busy with hb | hb
    · rw [observeBusy_busy_true (s := { s with hostQueue := rest }) hb]
      exact .unchanged rfl rfl rfl
    · rw [observeBusy_busy_false (s := { s with hostQueue := rest }) hb]
      exact .observed rest (.inl hq) hb hb rfl
  | await =>
    rcases hostAwait_next.mp ht with ⟨hb, rfl⟩ | ⟨-, u, hu, rfl⟩
    · exact .observed rest (.inr hq) hb hb rfl
    · exact coreStep_life hu rfl rfl rfl
  | pause => exact coreStep_life (q := rest) ht rfl rfl rfl
  | load a => obtain ⟨-, -, rfl⟩ := hostLoad_next.mp ht; exact .unchanged rfl rfl rfl
  | store a b => obtain ⟨-, -, rfl⟩ := hostStore_next.mp ht; exact .unchanged rfl rfl rfl

theorem step_life {s t : State} (h : step s = .next t) : LifeStep s t := by
  rcases step_next h with ⟨-, hcore⟩ | ⟨m, rest, hq, hhost⟩
  · exact coreStep_life (q := s.hostQueue) hcore rfl rfl rfl
  · exact hostStep_life hq hhost

/-- Settles O20: only a completion and a reset touch STATUS, and only a start sets BUSY. -/
theorem statusAndBusyChangeOnlyAtTheirMoves : Obligations.StatusAndBusyChangeOnlyAtTheirMoves := by
  intro s t _ h
  cases step_life h with
  | unchanged hstatus hbusy _ => exact ⟨fun hne => absurd hstatus hne, fun hb hb' => by simp_all⟩
  | completed hbusy hbusy' _ => exact ⟨fun _ => .inl ⟨hbusy, hbusy'⟩, fun hb _ => by simp_all⟩
  | started rest hq hstatus _ => exact ⟨fun hne => absurd hstatus hne, fun _ _ => ⟨rest, hq⟩⟩
  | reset rest hq hbusy' => exact ⟨fun _ => .inr ⟨rest, hq⟩, fun _ hb' => by simp_all⟩
  | observed rest _ _ hbusy' hstatus => exact ⟨fun hne => absurd hstatus hne, fun _ hb' => by simp_all⟩

/-- Settles O14: a start holds its footprint in front of the others, and only a reset and a read of BUSY as 0
take one away. -/
theorem footprintHeldUntilBusyIsRead : Obligations.FootprintHeldUntilBusyIsRead := by
  refine ⟨fun s t h => ?_, fun s rest hq => ⟨fun hb => ?_, fun hb => ?_⟩⟩
  · cases step_life h with
    | unchanged _ hbusy hheld => exact ⟨fun _ _ => by simp_all, fun f hf hnot => absurd (hheld ▸ hf) hnot⟩
    | completed hbusy _ hheld => exact ⟨fun _ _ => by simp_all, fun f hf hnot => absurd (hheld ▸ hf) hnot⟩
    | started rest _ _ hheld =>
      exact ⟨fun _ _ => hheld, fun f hf hnot => absurd (hheld ▸ List.mem_cons_of_mem _ hf) hnot⟩
    | reset rest hq hbusy' => exact ⟨fun _ _ => by simp_all, fun _ _ _ => ⟨rest, .inl hq⟩⟩
    | observed rest hq hbusy hbusy' _ =>
      exact ⟨fun _ _ => by simp_all, fun _ _ _ => ⟨rest, .inr ⟨hbusy, hq⟩⟩⟩
  · rw [step_host hq]
    exact congrArg Host.Outcome.next (observeBusy_busy_true hb)
  · rw [step_host hq]
    exact congrArg Host.Outcome.next (observeBusy_busy_false hb)

end Sys2Proof.Machine
end

section
/-! The host's moves (10_state.md R24, R28, R29, R35; 20_memory.md R63; 70_reset_and_hazards.md R250, R251): the
checks of a footprint, what `start` answers by the check that stops it, and reset, loads, stores and polls. -/

namespace Sys2Proof.Machine

/-! ## The footprint check -/

open Classical in
/-- The check in the terms of the statements: the first of the three conditions that fails names the refusal
(log 9). -/
theorem footprintCheck_eq {s : State} (h : s.mem.wf = true) (f : Footprint) :
    footprintCheck s f =
      if ¬ footprintFits s f then some .footprintWraps
      else if ¬ footprintInside s f then some .footprintOutsideMemory
      else if ¬ footprintApart f then some .inputOutputOverlap
      else none := by
  have hfits : (f.reads.wraps s.cfg.addrW || f.writes.wraps s.cfg.addrW) = true ↔ ¬ footprintFits s f := by
    rw [footprintFits, ← wraps_false_iff, ← wraps_false_iff, Bool.or_eq_true, not_and_or,
      Bool.not_eq_false, Bool.not_eq_false]
  have hinside : (!s.mem.readable f.reads || !s.mem.writable f.writes) = true ↔
      ¬ footprintInside s f := by
    rw [footprintInside, ← readable_iff h, ← writable_iff h, Bool.or_eq_true, not_and_or,
      Bool.not_eq_true', Bool.not_eq_true', Bool.not_eq_true, Bool.not_eq_true]
  have hapart : (!f.reads.disjoint f.writes) = true ↔ ¬ footprintApart f := by
    rw [footprintApart, ← disjoint_iff, Bool.not_eq_true', Bool.not_eq_true]
  simp only [footprintCheck, hfits, hinside, hapart]

/-- Settles O8: each verdict is one path through the three conditions. -/
theorem footprintRefusals : Obligations.FootprintRefusals := by
  intro s f h
  rw [footprintCheck_eq h, footprintOk]
  by_cases hfits : footprintFits s f
  · by_cases hinside : footprintInside s f
    · by_cases hapart : footprintApart f
      · simp [hfits, hinside, hapart]
      · simp [hfits, hinside, hapart]
    · simp [hfits, hinside]
  · simp [hfits]

/-! ## The step of an operation -/

/-- Settles O4: an idle core's move, that of a sampled command, and that of a latched prefix. -/
theorem stepRunsDecodedOperation : Obligations.StepRunsDecodedOperation := by
  refine ⟨fun s hq hb => ?_, fun s i hq hb ht hd => ?_, fun s i n tag hq hb hn ht hd => ?_⟩
  · rw [step_core hq, coreStep_idle hb]
  · rw [step_core hq, coreStep_command hb ht hd]
  · rw [step_core hq, coreStep_block hb hn ht ((decode_prefixWord tag n).symm.trans hd)]

theorem headerCheck_misaligned {s : State} (h : s.smp.inBase % 4 ≠ 0) :
    headerCheck s = some .misalignedBase := by
  simp [headerCheck, aligned, h]

theorem pointsCheck_misaligned {s : State} (h : s.smp.inBase % 4 ≠ 0 ∨ s.smp.outBase % 4 ≠ 0) :
    pointsCheck s = some .misalignedBase := by
  rcases h with h | h <;> simp [pointsCheck, aligned, h]

theorem prefixCheck_misaligned {s : State} (h : s.smp.inBase % 4 ≠ 0 ∨ s.smp.outBase % 4 ≠ 0) :
    prefixCheck s = some .misalignedBase := by
  rcases h with h | h <;> simp [prefixCheck, aligned, h]

theorem texelCheck_misaligned {s : State} {o : Nat} (i : Word) (h : o % 4 ≠ 0) :
    texelCheck o i s = some .misalignedBase := by
  simp [texelCheck, aligned, h]

theorem headerCheck_aligned {s : State} (h : s.smp.inBase % 4 = 0) :
    headerCheck s = footprintCheck s (headerFootprint s) := by
  simp [headerCheck, aligned, h]

theorem pointsCheck_aligned {s : State} (hin : s.smp.inBase % 4 = 0) (hout : s.smp.outBase % 4 = 0) :
    pointsCheck s = footprintCheck s (pointsFootprint s) := by
  simp [pointsCheck, aligned, hin, hout]

theorem prefixCheck_aligned {s : State} (hin : s.smp.inBase % 4 = 0) (hout : s.smp.outBase % 4 = 0) :
    prefixCheck s = footprintCheck s (prefixFootprint s) := by
  simp [prefixCheck, aligned, hin, hout]

theorem texelCheck_aligned {s : State} {o : Nat} (i : Word) (h : o % 4 = 0) :
    texelCheck o i s = footprintCheck s (texelFootprint o i) := by
  simp [texelCheck, aligned, h]

/-- A move whose check fails is refused, whatever is behind the check. -/
theorem refuseOr_of_check {c : Option Refusal} {r : Refusal} (k : Out) (h : c = some r) :
    refuseOr c k = .refused r := by
  rw [h, refuseOr_some]

/-- Settles O9: each operation is behind its check, and each check answers the refusal first. -/
theorem brokenPreconditionsRefused : Obligations.BrokenPreconditionsRefused := by
  intro s r n o i p
  refine ⟨fun h => ?_, fun h => ⟨?_, ?_⟩, fun h => ?_, fun h hr => ?_, fun h h' hr => ?_, fun h h' hr => ?_,
    fun hr => ?_, fun hr => ?_, fun hr => ?_, fun hr => ?_, fun h hr => ?_⟩
  · exact refuseOr_of_check _ (headerCheck_misaligned h)
  · exact refuseOr_of_check _ (pointsCheck_misaligned h)
  · exact refuseOr_of_check _ (prefixCheck_misaligned h)
  · exact refuseOr_of_check _ (texelCheck_misaligned i h)
  · exact refuseOr_of_check _ ((headerCheck_aligned h).trans hr)
  · exact refuseOr_of_check _ ((pointsCheck_aligned h h').trans hr)
  · exact refuseOr_of_check _ ((prefixCheck_aligned h h').trans hr)
  · exact refuseOr_of_check _ hr
  · exact refuseOr_of_check _ hr
  · exact refuseOr_of_check _ hr
  · exact refuseOr_of_check _ hr
  · exact refuseOr_of_check _ ((texelCheck_aligned i h).trans hr)

/-! ## Registers -/

theorem toNat_ofNat_word {v : Nat} (h : v < 2 ^ 32) : (BitVec.ofNat 32 v).toNat = v := by
  rw [BitVec.toNat_ofNat, Nat.mod_eq_of_lt h]

/-- Settles O5: each register by its own clause; a value that fits is its own low bits. -/
theorem hostWriteChangesOneRegister : Obligations.HostWriteChangesOneRegister := by
  refine ⟨fun s rest v => ⟨fun hq hv => ?_, fun hq hv => ?_, fun hq hv => ?_, fun hq hv => ?_, fun hq => ?_⟩,
    fun s => ⟨rfl, fun h => ?_, id, id, fun h => ?_⟩, fun r => ?_⟩
  · exact ⟨_, step_host hq, rfl, congrArg some (toNat_ofNat_word hv)⟩
  · refine ⟨_, step_host hq, ?_, congrArg some (Nat.mod_eq_of_lt hv)⟩
    simp only [hostWrite, Nat.mod_eq_of_lt hv]
  · refine ⟨_, step_host hq, ?_, congrArg some (Nat.mod_eq_of_lt hv)⟩
    simp only [hostWrite, Nat.mod_eq_of_lt hv]
  · exact ⟨_, step_host hq, rfl, congrArg some (toNat_ofNat_word hv)⟩
  · exact step_host hq
  · rw [hostReadReg, h, Option.map_none]
  · rw [hostReadReg, h, Option.map_none]
  · cases r <;> rfl

/-! ## start -/

/-- With a valid opcode and the core idle, the operands and then the checks decide (R225). -/
theorem hostStart_idle {s : State} {w : Word} {i : Instr} (hop : s.op = some w)
    (hd : decodeCommand w = .ok i) (hb : s.busy = false) :
    hostStart s = if !operandsWritten i s then .refused .operandNotWritten
      else refuseOr (startCheck i (sample s)) (.next (beginCommand s)) := by
  simp [hostStart, hop, hd, hb]

theorem hostStart_reserved {s : State} {w : Word} (hop : s.op = some w)
    (hd : decodeCommand w = .error .reservedOpcode) : hostStart s = .refused .reservedOpcode := by
  simp only [hostStart, hop, hd]

theorem hostStart_noOpcode {s : State} (hop : s.op = none) (hb : s.busy = false) :
    hostStart s = .refused .operandNotWritten := by
  simp [hostStart, hop, hb]

theorem hostStart_busy {s : State} (hop : ∀ w, s.op = some w → w = 0 ∨ w = 1 ∨ w = 2)
    (hb : s.busy = true) : hostStart s = .refused .startWhileBusy := by
  cases h : s.op with
  | none => simp [hostStart, h, hb]
  | some w => rcases hop w h with rfl | rfl | rfl <;> simp [hostStart, h, hb, decodeCommand]

theorem operandsWritten_hostQueue (i : Instr) (s : State) (q : List HostMove) :
    operandsWritten i { s with hostQueue := q } = operandsWritten i s := by
  cases i <;> rfl

theorem startCheck_hostQueue (i : Instr) (s : State) (q : List HostMove) :
    startCheck i (sample { s with hostQueue := q }) = startCheck i (sample s) :=
  startCheck_congr i rfl rfl rfl

/-- An accepted start (R28). -/
theorem step_start_accepted {s : State} {rest : List HostMove} {w : Word} {i : Instr}
    (hq : s.hostQueue = .start :: rest) (hop : s.op = some w) (hd : decodeCommand w = .ok i)
    (hb : s.busy = false) (hwritten : operandsWritten i s = true) (hcheck : startCheck i (sample s) = none) :
    step s = .next { beginCommand s with hostQueue := rest } := by
  rw [step_host hq]
  refine hostStart_next.mpr ⟨w, i, hop, hd, hb, ?_, ?_, rfl⟩
  · rwa [operandsWritten_hostQueue]
  · rwa [startCheck_hostQueue]

/-- A start that its checks refuse (R46, R52, R59, R64). -/
theorem step_start_checked {s : State} {rest : List HostMove} {w : Word} {i : Instr} {r : Refusal}
    (hq : s.hostQueue = .start :: rest) (hop : s.op = some w) (hd : decodeCommand w = .ok i)
    (hb : s.busy = false) (hwritten : operandsWritten i s = true)
    (hcheck : startCheck i (sample s) = some r) : step s = .refused r := by
  rw [step_host hq]
  refine (hostStart_idle (s := { s with hostQueue := rest }) hop hd hb).trans ?_
  rw [operandsWritten_hostQueue, hwritten, startCheck_hostQueue, hcheck]
  rfl

/-- A start that needs a register without a value (R35). -/
theorem step_start_unwritten {s : State} {rest : List HostMove} {w : Word} {i : Instr}
    (hq : s.hostQueue = .start :: rest) (hop : s.op = some w) (hd : decodeCommand w = .ok i)
    (hb : s.busy = false) (hwritten : operandsWritten i s = false) :
    step s = .refused .operandNotWritten := by
  rw [step_host hq]
  refine (hostStart_idle (s := { s with hostQueue := rest }) hop hd hb).trans ?_
  rw [operandsWritten_hostQueue, hwritten]
  rfl

/-- The operands a start samples, once its registers are known (R28). -/
theorem sample_of_registers {s : State} {w : Word} {a : Nat} (hop : s.op = some w) (hin : s.inBase = some a) :
    sample s = { s with smp := { op := w, inBase := a, outBase := s.outBase.getD 0,
                                 count := s.count.getD 0 } } := by
  simp only [sample, hop, hin, Option.getD_some]

theorem beginCommand_eq (s : State) : beginCommand s =
    { sample s with busy := true, held := runningFootprint (sample s) :: s.held } := rfl

/-- Settles O6: the three commands by their checks at `start`; what is left is to read the accepted state. -/
theorem startSamplesOperands : Obligations.StartSamplesOperands := by
  intro s rest a b c hq hm hb hin ha
  refine ⟨fun hop hfit => ?_, fun hop hout hb4 hcount hfit => ?_, fun hop hout hb4 hfit t ht => ?_⟩
  · have hsample := sample_of_registers hop hin
    have hcheck : startCheck .validateHeader (sample s) = none := by
      refine (headerCheck_none (s := sample s) hm).mpr ?_
      rw [hsample]
      exact ⟨ha, hfit⟩
    rw [step_start_accepted hq hop rfl hb (by simp [operandsWritten, hin]) hcheck, beginCommand_eq, hsample]
    rfl
  · have hsample : sample s = { s with smp := { op := 1, inBase := a, outBase := b, count := c } } := by
      rw [sample_of_registers hop hin, hout, hcount, Option.getD_some, Option.getD_some, ← hout, ← hcount]
    have hcheck : startCheck .decodePoints (sample s) = none := by
      refine (pointsCheck_none (s := sample s) hm).mpr ?_
      rw [hsample]
      exact ⟨ha, hb4, hfit⟩
    rw [step_start_accepted hq hop rfl hb (by simp [operandsWritten, hin, hout, hcount]) hcheck,
      beginCommand_eq, hsample]
    rfl
  · have hsample : sample s =
        { s with smp := { op := 2, inBase := a, outBase := b, count := s.count.getD 0 } } := by
      rw [sample_of_registers hop hin, hout, Option.getD_some, ← hout]
    have hcheck : startCheck .decodeBlock (sample s) = none := by
      refine (prefixCheck_none (s := sample s) hm).mpr ?_
      rw [hsample]
      exact ⟨ha, hb4, hfit⟩
    rw [step_start_accepted hq hop rfl hb (by simp [operandsWritten, hin, hout]) hcheck,
      beginCommand_eq, hsample, ht]
    rfl

/-- A start of DECODE_POINTS or DECODE_BLOCK needs each of its registers. -/
theorem operandsWritten_false {i : Instr} {s : State}
    (h : (i = .validateHeader ∧ s.inBase = none) ∨
      (i = .decodePoints ∧ (s.inBase = none ∨ s.outBase = none ∨ s.count = none)) ∨
      (i = .decodeBlock ∧ (s.inBase = none ∨ s.outBase = none))) : operandsWritten i s = false := by
  rcases h with ⟨rfl, h⟩ | ⟨rfl, h | h | h⟩ | ⟨rfl, h | h⟩ <;> simp [operandsWritten, h]

/-- Settles O7: the clauses in the order of R225, each by the lemma of the check that stops it. -/
theorem startRefusals : Obligations.StartRefusals := by
  intro s rest hq
  refine ⟨fun hop hb => ?_, fun w hop hw => ?_, fun hop hb => ?_, fun hb hop hin => ?_,
    fun hb hop hnone => ?_, fun hb hop hnone => ?_, fun a hb hop hin ha => ?_,
    fun a b c hb hop hin hout hcount hab => ?_, fun a b hb hop hin hout hab => ?_,
    fun a r hb hop hin ha hr => ?_, fun a b c r hb hop hin hout hcount ha hb4 hr => ?_,
    fun a b r hb hop hin hout ha hb4 hr => ?_⟩
  · rw [step_host hq]
    exact hostStart_noOpcode hop hb
  · rw [step_host hq]
    exact hostStart_reserved hop ((decodeCommand_error_iff w).mpr ((opReserved_iff w).mp hw))
  · rw [step_host hq]
    exact hostStart_busy hop hb
  · exact step_start_unwritten hq hop rfl hb (operandsWritten_false (.inl ⟨rfl, hin⟩))
  · exact step_start_unwritten hq hop rfl hb (operandsWritten_false (.inr (.inl ⟨rfl, hnone⟩)))
  · exact step_start_unwritten hq hop rfl hb (operandsWritten_false (.inr (.inr ⟨rfl, hnone⟩)))
  · refine step_start_checked hq hop rfl hb (by simp [operandsWritten, hin]) ?_
    rw [sample_of_registers hop hin]
    exact headerCheck_misaligned ha
  · refine step_start_checked hq hop rfl hb (by simp [operandsWritten, hin, hout, hcount]) ?_
    rw [sample_of_registers hop hin, hout]
    exact pointsCheck_misaligned hab
  · refine step_start_checked hq hop rfl hb (by simp [operandsWritten, hin, hout]) ?_
    rw [sample_of_registers hop hin, hout]
    exact prefixCheck_misaligned hab
  · refine step_start_checked hq hop rfl hb (by simp [operandsWritten, hin]) ?_
    rw [sample_of_registers hop hin]
    exact (headerCheck_aligned ha).trans hr
  · refine step_start_checked hq hop rfl hb (by simp [operandsWritten, hin, hout, hcount]) ?_
    rw [sample_of_registers hop hin, hout, hcount]
    exact (pointsCheck_aligned ha hb4).trans hr
  · refine step_start_checked hq hop rfl hb (by simp [operandsWritten, hin, hout]) ?_
    rw [sample_of_registers hop hin, hout]
    exact (prefixCheck_aligned ha hb4).trans hr

/-! ## Reset -/

theorem step_reset {s : State} {rest : List HostMove} (hq : s.hostQueue = .reset :: rest) :
    step s = .next (resetRegisters (if s.busy then
      abandon (runningFootprint s) { s with hostQueue := rest } else { s with hostQueue := rest })) :=
  step_host hq

/-- Settles O11: the registers are those of `resetRegisters`, and only an abandoned command touches memory. -/
theorem resetClearsRegisters : Obligations.ResetClearsRegisters := by
  refine ⟨fun s rest hq => ⟨_, step_reset hq, rfl, rfl, rfl, rfl, rfl, rfl, rfl, rfl, rfl, rfl, rfl, rfl, rfl,
    ?_, ?_, fun hb => ?_⟩, rfl, rfl, rfl, rfl, rfl, rfl⟩
  · cases s.busy <;> rfl
  · cases hb : s.busy with
    | false => rfl
    | true => exact scramble_map _ _ _ _
  · rw [if_neg (by rw [hb]; exact Bool.false_ne_true)]
    rfl

/-- Settles O12: the output is scrambled, byte by byte, and nothing else is. -/
theorem resetAbandonsCommand : Obligations.ResetAbandonsCommand := by
  intro s rest hq hm hb
  have hbyte := byte_scramble hm (runningFootprint s).writes.base s.draws (runningFootprint s).writes.len
  have hframe : ∀ a, (runningFootprint s).writes.has a = false →
      (s.mem.scramble (runningFootprint s).writes.base s.draws (runningFootprint s).writes.len).byte a =
        s.mem.byte a := by
    intro a ha
    rw [Span_has_false_iff] at ha
    rw [hbyte, if_neg (by omega)]
  have hstep := step_reset hq
  rw [if_pos hb] at hstep
  refine ⟨_, hstep, rfl, rfl, hframe, fun k hk hhas => ?_, scramble_map _ _ _ _, fun hapart a ha => hframe a ?_⟩
  · refine (hbyte _).trans ?_
    rw [if_pos ⟨by omega, hhas⟩, Nat.add_sub_cancel_left]
  · rw [← Bool.not_eq_true]
    exact fun hw => hapart a ⟨ha, hw⟩

/-! ## Loads, stores and polls -/

theorem hostStore_held {s : State} {a : Nat} (b : Byte) (h : heldBuffer s a = true) :
    hostStore a b s = .refused .footprintTouched := by
  simp [hostStore, h]

theorem hostLoad_held {s : State} {a : Nat} (h : heldOutput s a = true) :
    hostLoad a s = .refused .footprintTouched := by
  simp [hostLoad, h]

theorem heldBuffer_false {s : State} {a : Nat}
    (h : ∀ f ∈ s.held, f.reads.has a = false ∧ f.writes.has a = false) : heldBuffer s a = false := by
  rw [← Bool.not_eq_true, heldBuffer_iff]
  rintro ⟨f, hf, ha⟩
  simp [h f hf] at ha

theorem heldOutput_false {s : State} {a : Nat} (h : ∀ f ∈ s.held, f.writes.has a = false) :
    heldOutput s a = false := by
  rw [← Bool.not_eq_true, heldOutput_iff]
  rintro ⟨f, hf, ha⟩
  simp [h f hf] at ha

/-- Settles O13: the two tests on the held footprints, and the one byte a store changes. -/
theorem hostAccessAndRunningFootprint : Obligations.HostAccessAndRunningFootprint := by
  intro s rest a b
  refine ⟨fun hinv hb => ?_, fun f hf hq ha => ?_, fun f hf hq ha => ?_, fun hq hm hhas hoff => ?_,
    fun hq hhas hoff => ?_⟩
  · obtain ⟨-, -, -, -, -, hacc⟩ := hinv
    obtain ⟨-, -, -, -, hheld, -⟩ := hacc hb
    exact hheld
  · rw [step_host hq]
    exact hostStore_held b (heldBuffer_iff.mpr ⟨f, hf, ha⟩)
  · rw [step_host hq]
    exact hostLoad_held (heldOutput_iff.mpr ⟨f, hf, ha⟩)
  · refine ⟨{ s with mem := s.mem.setByte a b, hostQueue := rest }, ?_, rfl, setByte_map _ _ _,
      byte_setByte hm hhas b⟩
    rw [step_host hq]
    exact hostStore_next.mpr ⟨heldBuffer_false hoff, hhas, rfl⟩
  · rw [step_host hq]
    exact hostLoad_next.mpr ⟨heldOutput_false hoff, hhas, rfl⟩

/-- Settles O15: a poll of a running core is the core's move with the poll put back, and the core is then idle. -/
theorem awaitRunsCommand : Obligations.AwaitRunsCommand := by
  intro s rest hq
  refine ⟨fun hb => ?_, fun t hinv hb ht => ?_⟩
  · rw [step_host hq]
    exact hostAwait_next.mpr (.inl ⟨hb, rfl⟩)
  · have hidle : t.busy = false := by
      rcases coreStep_next ht with ⟨hb', -⟩ | ⟨-, st, u, -, -, rfl⟩
      · exact absurd (hb'.symm.trans hb) Bool.false_ne_true
      · rfl
    refine ⟨requeue .await { t with hostQueue := rest }, _, ?_, ?_, rfl⟩
    · rw [step_host hq]
      exact hostAwait_next.mpr (.inr ⟨hb, _, coreStep_hostQueue rest ht, rfl⟩)
    · rw [step_host rfl]
      exact hostAwait_next.mpr (.inl ⟨hidle, rfl⟩)

end Sys2Proof.Machine
end

section
/-! The per-point form of the machine (20_memory.md R61). A loop operation is its first step, one step a point and
its last step (`perPointRun_exec`); what the atomic form answers, the per-point form answers within the bound of
70_reset_and_hazards.md R275. -/

namespace Sys2Proof.Machine

/-! ## One operation, point by point -/

/-- The core decodes this operation next. -/
def Decodes (i : Instr) (s : State) : Prop := ∃ e, fetch s = some e ∧ decode e = .ok i

theorem perPointStep_of_decodes {i : Instr} {s : State} (h : Decodes i s) :
    perPointStep s = pointAdvance i s := by
  obtain ⟨e, hf, hd⟩ := h
  simp only [perPointStep, hf, hd]

/-- The operations that go over points or bytes: the two loop commands and the four unpackers. -/
def isLoop : Instr → Bool
  | .validateHeader => true
  | .decodePoints => true
  | .splat20 _ => true
  | .sh1 _ => true
  | .sh12 _ => true
  | .sh3 _ => true
  | _ => false

/-- What a step of a loop keeps of the state that decides it. -/
structure LoopFrame (s t : State) : Prop where
  fetch : fetch t = fetch s
  smp : t.smp = s.smp

theorem fetch_congr {s t : State} (hb : t.busy = s.busy) (hn : t.n = s.n) (ht : t.tag = s.tag)
    (hs : t.smp = s.smp) : fetch t = fetch s := by
  simp only [Sys2Proof.Machine.fetch, hb, hn, ht, hs]

/-- One point moves the index on and keeps what the core decodes. -/
theorem pointBody_some {i : Instr} {s : State} {k : Word} (hi : isLoop i = true)
    (hk : s.index = some k) :
    LoopFrame s (pointBody i s) ∧ (pointBody i s).index = some (k + 1) := by
  have hput : ∀ a ws d, LoopFrame s (bumpIndex (putWords a ws d s)) ∧
      (bumpIndex (putWords a ws d s)).index = some (k + 1) := fun a ws d =>
    ⟨⟨fetch_congr rfl rfl rfl rfl, rfl⟩, by rw [bumpIndex_index, putWords_index, hk]; rfl⟩
  cases i with
  | validateHeader =>
    rw [pointBody_validateHeader, hashByte_some hk]
    exact ⟨⟨fetch_congr rfl rfl rfl rfl, rfl⟩, by rw [bumpIndex_index, hk]; rfl⟩
  | decodePoints => rw [pointBody_decodePoints, genericSplatPoint_some hk]; exact hput _ _ _
  | splat20 n => rw [pointBody_splat20, splat20Point_some hk]; exact hput _ _ _
  | sh1 n => rw [pointBody_sh1, shPoint_some hk]; exact hput _ _ _
  | sh12 n => rw [pointBody_sh12, shPoint_some hk]; exact hput _ _ _
  | sh3 n => rw [pointBody_sh3, shPoint_some hk]; exact hput _ _ _
  | decodeBlock => cases hi
  | floatToHalf u => cases hi
  | packHalf2x16 ux uy => cases hi
  | writeGeometryTexel o j r => cases hi

theorem pointTotal_congr {s t : State} (i : Instr) (h : t.smp = s.smp) : pointTotal i t = pointTotal i s := by
  cases i <;> simp only [pointTotal, h]

theorem pointTotal_lt (i : Instr) (s : State) : pointTotal i s < 2 ^ 32 := by
  cases i with
  | decodePoints => exact s.smp.count.isLt
  | splat20 n => exact n.isLt
  | sh1 n => exact n.isLt
  | sh12 n => exact n.isLt
  | sh3 n => exact n.isLt
  | validateHeader => exact show 124 < 2 ^ 32 by decide
  | decodeBlock => exact Nat.two_pow_pos 32
  | floatToHalf u => exact Nat.two_pow_pos 32
  | packHalf2x16 ux uy => exact Nat.two_pow_pos 32
  | writeGeometryTexel o k r => exact Nat.two_pow_pos 32

/-! ## Runs -/

theorem perPointRun_next {k : Nat} {s t : State} (h : perPointStep s = .next t) :
    perPointRun (k + 1) s = perPointRun k t := by
  simp only [perPointRun, h]

theorem perPointRun_refused {k : Nat} {s : State} {r : Refusal} (h : perPointStep s = .refused r) :
    perPointRun (k + 1) s = .refused r := by
  simp only [perPointRun, h]

theorem perPointRun_fault {k : Nat} {s : State} {r : Fault} (h : perPointStep s = .fault r) :
    perPointRun (k + 1) s = .fault r := by
  simp only [perPointRun, h]

/-- From index `k` on, one step for each point that is left and one to end. -/
theorem perPointRun_loop {i : Instr} (hi : isLoop i = true) {left k : Nat} {s : State}
    (hd : Decodes i s) (hindex : s.index = some (BitVec.ofNat 32 k)) (htotal : pointTotal i s = k + left) :
    perPointRun (left + 1) s = .next (pointEnd i ((pointBody i)^[left] s)) := by
  induction left generalizing k s with
  | zero =>
    have hk : (BitVec.ofNat 32 k).toNat = k := toNat_ofNat_word (by have := pointTotal_lt i s; omega)
    have hstep : perPointStep s = .next (pointEnd i s) := by
      rw [perPointStep_of_decodes hd, pointAdvance, hindex]
      exact if_neg (by omega)
    rw [perPointRun_one, hstep]
    rfl
  | succ left ih =>
    have hk : (BitVec.ofNat 32 k).toNat = k := toNat_ofNat_word (by have := pointTotal_lt i s; omega)
    have hstep : perPointStep s = .next (pointBody i s) := by
      rw [perPointStep_of_decodes hd, pointAdvance, hindex]
      exact if_pos (by omega)
    obtain ⟨⟨hfetch, hsmp⟩, hnext⟩ := pointBody_some hi hindex
    obtain ⟨e, hf, he⟩ := hd
    rw [perPointRun_next hstep, Function.iterate_succ_apply]
    refine ih (k := k + 1) ⟨e, hfetch.trans hf, he⟩ ?_ ?_
    · rw [hnext, BitVec.ofNat_add]; rfl
    · rw [pointTotal_congr i hsmp]; omega

/-- A loop operation, whole, is its first step, its points and its end. -/
theorem exec_eq_pointBegin {i : Instr} (hi : isLoop i = true) (s : State) :
    exec i s = mapNext (fun b => pointEnd i ((pointBody i)^[pointTotal i s] b)) (pointBegin i s) := by
  cases i with
  | validateHeader => rw [pointBegin, mapNext_refuseOr, mapNext_next]; rfl
  | decodePoints => rw [pointBegin, mapNext_refuseOr, mapNext_next]; rfl
  | splat20 n => rw [pointBegin, mapNext_refuseOr, mapNext_next]; rfl
  | sh1 n => rw [pointBegin, mapNext_refuseOr, mapNext_next]; rfl
  | sh12 n => rw [pointBegin, mapNext_refuseOr, mapNext_next]; rfl
  | sh3 n => rw [pointBegin, mapNext_refuseOr, mapNext_next]; rfl
  | decodeBlock => cases hi
  | floatToHalf u => cases hi
  | packHalf2x16 ux uy => cases hi
  | writeGeometryTexel o j r => cases hi

/-- Before its first point a loop operation has index 0; only DECODE_POINTS latches a count there (R31). -/
theorem pointBegin_next {i : Instr} (hi : isLoop i = true) {s b : State}
    (h : pointBegin i s = .next b) :
    b.index = some 0 ∧ b.smp = s.smp ∧ b.busy = s.busy ∧ b.tag = s.tag ∧ (i = .decodePoints ∨ b.n = s.n) := by
  cases i with
  | validateHeader => obtain ⟨-, h⟩ := refuseOr_next.mp h; cases h; exact ⟨rfl, rfl, rfl, rfl, .inr rfl⟩
  | decodePoints => obtain ⟨-, h⟩ := refuseOr_next.mp h; cases h; exact ⟨rfl, rfl, rfl, rfl, .inl rfl⟩
  | splat20 n => obtain ⟨-, h⟩ := refuseOr_next.mp h; cases h; exact ⟨rfl, rfl, rfl, rfl, .inr rfl⟩
  | sh1 n => obtain ⟨-, h⟩ := refuseOr_next.mp h; cases h; exact ⟨rfl, rfl, rfl, rfl, .inr rfl⟩
  | sh12 n => obtain ⟨-, h⟩ := refuseOr_next.mp h; cases h; exact ⟨rfl, rfl, rfl, rfl, .inr rfl⟩
  | sh3 n => obtain ⟨-, h⟩ := refuseOr_next.mp h; cases h; exact ⟨rfl, rfl, rfl, rfl, .inr rfl⟩
  | decodeBlock => cases hi
  | floatToHalf u => cases hi
  | packHalf2x16 ux uy => cases hi
  | writeGeometryTexel o j r => cases hi

/-- The whole run of a loop operation: what `exec` answers, one step for each point and two more. -/
theorem perPointRun_exec {i : Instr} (hi : isLoop i = true) {s : State} (hindex : s.index = none)
    (hd : Decodes i s) (hd' : ∀ b, pointBegin i s = .next b → Decodes i b) :
    perPointRun (pointTotal i s + 2) s = exec i s := by
  have hstep : perPointStep s = pointBegin i s := by
    rw [perPointStep_of_decodes hd, pointAdvance, hindex]
  rw [exec_eq_pointBegin hi]
  cases hbegin : pointBegin i s with
  | next b =>
    obtain ⟨hzero, hsmp, -⟩ := pointBegin_next hi hbegin
    rw [perPointRun_next (hstep.trans hbegin), mapNext_next]
    exact perPointRun_loop hi (k := 0) (hd' b hbegin) hzero (by rw [pointTotal_congr i hsmp, Nat.zero_add])
  | fault r => exact perPointRun_fault (hstep.trans hbegin)
  | refused r => exact perPointRun_refused (hstep.trans hbegin)

/-! ## The running command -/

theorem Decodes_command {s : State} {i : Instr} (hb : s.busy = true) (ht : s.tag = none)
    (hd : decodeCommand s.smp.op = .ok i) : Decodes i s := by
  refine ⟨.cmd s.smp.op, ?_, hd⟩
  simp only [fetch, hb, ht, if_true]
  cases s.n <;> rfl

theorem fetch_block {s : State} {n tag : Word} (hb : s.busy = true) (hn : s.n = some n)
    (ht : s.tag = some tag) : fetch s = some (.block (prefixWord tag n)) := by
  simp only [fetch, hb, hn, ht, if_true]

theorem Decodes_block {s : State} {n tag : Word} {i : Instr} (hb : s.busy = true) (hn : s.n = some n)
    (ht : s.tag = some tag) (hd : decodeTag tag n = .ok i) : Decodes i s :=
  ⟨_, fetch_block hb hn ht, (decode_prefixWord tag n).trans hd⟩

/-- The two loop commands, point by point. -/
theorem perPointRun_command {s : State} {i : Instr} (hi : isLoop i = true) (hb : s.busy = true)
    (ht : s.tag = none) (hindex : s.index = none) (hd : decodeCommand s.smp.op = .ok i) :
    perPointRun (pointTotal i s + 2) s = exec i s := by
  refine perPointRun_exec hi hindex (Decodes_command hb ht hd) fun b h => ?_
  obtain ⟨-, hsmp, hbusy, htag, -⟩ := pointBegin_next hi h
  exact Decodes_command (hbusy.trans hb) (htag.trans ht) (by rwa [hsmp])

/-- An unpacker, point by point, once its prefix is latched. -/
theorem perPointRun_unpacker {s : State} {i : Instr} {n tag : Word} (hi : isLoop i = true)
    (hne : i ≠ .decodePoints) (hb : s.busy = true) (hn : s.n = some n) (ht : s.tag = some tag)
    (hindex : s.index = none) (hd : decodeTag tag n = .ok i) :
    perPointRun (pointTotal i s + 2) s = exec i s := by
  refine perPointRun_exec hi hindex (Decodes_block hb hn ht hd) fun b h => ?_
  obtain ⟨-, -, hbusy, htag, hn'⟩ := pointBegin_next hi h
  exact Decodes_block (hbusy.trans hb) ((hn'.resolve_left hne).trans hn) (htag.trans ht) hd

/-- The dispatch, point by point: two steps beside one for each point, or one for an unsupported tag. -/
theorem perPointRun_dispatchTag {s : State} {n tag : Word} (hb : s.busy = true) (hn : s.n = some n)
    (ht : s.tag = some tag) (hindex : s.index = none) :
    ∃ k ≤ n.toNat + 2, perPointRun k s = dispatchTag tag n s := by
  rcases dispatchTag_cases tag n s with ⟨-, -, hd, hx⟩ | ⟨-, -, hd, hx⟩ | ⟨-, -, hd, hx⟩ |
    ⟨-, -, hd, hx⟩ | ⟨-, -, -, -, -, hd, hx⟩ <;> rw [hx]
  · exact ⟨_, le_rfl, perPointRun_unpacker rfl (by rintro ⟨⟩) hb hn ht hindex hd⟩
  · exact ⟨_, le_rfl, perPointRun_unpacker rfl (by rintro ⟨⟩) hb hn ht hindex hd⟩
  · exact ⟨_, le_rfl, perPointRun_unpacker rfl (by rintro ⟨⟩) hb hn ht hindex hd⟩
  · exact ⟨_, le_rfl, perPointRun_unpacker rfl (by rintro ⟨⟩) hb hn ht hindex hd⟩
  · refine ⟨1, by omega, ?_⟩
    rw [perPointRun_one]
    simp only [perPointStep, fetch_block hb hn ht, decode_prefixWord, hd, noOperation]

/-- The first step of DECODE_BLOCK: its prefix latched, or its start's checks refused again (R161; log 8). -/
theorem perPointStep_decodeBlock {s : State} (hb : s.busy = true) (ht : s.tag = none)
    (hindex : s.index = none) (hd : decodeCommand s.smp.op = .ok .decodeBlock) :
    perPointStep s = refuseOr (prefixCheck s) (.next (latchPrefix s)) := by
  rw [perPointStep_of_decodes (Decodes_command hb ht hd), pointAdvance, hindex]
  rfl

/-- In a state of the invariant the per-point form answers what the core's move answers, within the bound. -/
theorem perPointRun_coreStep {s : State} (hinv : StateInv s) (hb : s.busy = true) :
    ∃ k ≤ pointBound s, perPointRun k s = coreStep s := by
  obtain ⟨i, hd, hcheck, hstep⟩ := coreStep_running hinv hb
  obtain ⟨-, -, -, -, -, hacc⟩ := hinv
  obtain ⟨hindex, -, -, ht, -⟩ := hacc hb
  rw [hstep, pointBound, hd]
  rcases decodeCommand_ok hd with ⟨-, rfl⟩ | ⟨-, rfl⟩ | ⟨-, rfl⟩
  · exact ⟨_, le_rfl, perPointRun_command rfl hb ht hindex hd⟩
  · exact ⟨_, le_rfl, perPointRun_command rfl hb ht hindex hd⟩
  · have hprefix : prefixCheck s = none := hcheck
    have hlatch : perPointStep s = .next (latchPrefix s) := by
      rw [perPointStep_decodeBlock hb ht hindex hd, hprefix, refuseOr_none]
    obtain ⟨k, hk, hrun⟩ := perPointRun_dispatchTag (s := latchPrefix s) hb rfl rfl hindex
    refine ⟨k + 1, Nat.succ_le_succ hk, ?_⟩
    rw [perPointRun_next hlatch, hrun]
    exact (execDecodeBlock_of_check hprefix).symm

/-- Settles O21: both outcomes of the core's move are the one answer of the per-point form. -/
theorem perPointAgreesWithAtomic : Obligations.PerPointAgreesWithAtomic := by
  intro s hinv hb
  obtain ⟨k, hk, hrun⟩ := perPointRun_coreStep hinv hb
  exact ⟨fun t ht => ⟨k, hk, hrun.trans ht⟩, fun r hr => ⟨k, hk, hrun.trans hr⟩⟩

/-! ## Termination -/

/-- A tag without a layout fails (R162). -/
theorem dispatchTag_no_layout {tag n : Word} {s : State} (hl : layoutOf tag = none) :
    dispatchTag tag n s = .next (complete 1 s) := by
  rcases dispatchTag_cases tag n s with ⟨-, hl', -⟩ | ⟨-, hl', -⟩ | ⟨-, hl', -⟩ | ⟨-, hl', -⟩ |
    ⟨-, -, -, -, -, -, hx⟩
  · cases hl.symm.trans hl'
  · cases hl.symm.trans hl'
  · cases hl.symm.trans hl'
  · cases hl.symm.trans hl'
  · exact hx

/-- Before its tag is latched, a block without a layout has the footprint of its prefix (R55). -/
theorem runningFootprint_prefix {s : State} (hd : decodeCommand s.smp.op = .ok .decodeBlock)
    (ht : s.tag = none) (hl : layoutOf (s.mem.read32 (s.smp.inBase + 4)) = none) :
    runningFootprint s = prefixFootprint s := by
  simp only [runningFootprint, hd, ht, Option.getD_none, hl]

/-- A running command whose footprint is in order completes. -/
theorem coreStep_completes {s : State} (hinv : StateInv s) (hb : s.busy = true)
    (hfit : footprintOk s (runningFootprint s)) : ∃ t, coreStep s = .next t ∧ Completed s t := by
  obtain ⟨i, hd, hcheck, hstep⟩ := coreStep_running hinv hb
  obtain ⟨hm, -, -, -, -, hacc⟩ := hinv
  obtain ⟨-, -, hn, ht, -⟩ := hacc hb
  have hcompletes : ∃ t, coreStep s = .next t := by
    rw [hstep]
    rcases decodeCommand_ok hd with ⟨-, rfl⟩ | ⟨-, rfl⟩ | ⟨-, rfl⟩
    · exact ⟨_, execValidateHeader_next.mpr ⟨hcheck, rfl⟩⟩
    · exact ⟨_, execDecodePoints_next.mpr ⟨hcheck, rfl⟩⟩
    · cases hl : layoutOf (s.mem.read32 (s.smp.inBase + 4)) with
      | none => exact ⟨_, execDecodeBlock_next.mpr ⟨hcheck, dispatchTag_no_layout hl⟩⟩
      | some layout =>
        rw [runningFootprint_block hd hn ht hl] at hfit
        obtain ⟨t, hdone, -⟩ := dispatchTag_completesOk (s := latchPrefix s) hm hl hfit
        exact ⟨t, execDecodeBlock_next.mpr ⟨hcheck, hdone⟩⟩
  obtain ⟨t, h⟩ := hcompletes
  rcases coreStep_next h with ⟨hidle, -⟩ | ⟨-, hdone⟩
  · exact absurd (hidle.symm.trans hb) Bool.false_ne_true
  · exact ⟨t, h, hdone⟩

/-- The first step of an unpacker is its payload check (R161). -/
theorem perPointStep_payload_refused {s : State} {n tag : Word} {stride texel : Nat} {r : Refusal}
    (hb : s.busy = true) (hn : s.n = some n) (ht : s.tag = some tag) (hindex : s.index = none)
    (hl : layoutOf tag = some (stride, texel))
    (hr : footprintCheck s (blockFootprint s stride texel n) = some r) : perPointStep s = .refused r := by
  have hbegin : ∀ i, decodeTag tag n = .ok i → perPointStep s = pointBegin i s := fun i hd => by
    rw [perPointStep_of_decodes (Decodes_block hb hn ht hd), pointAdvance, hindex]
  rcases dispatchTag_cases tag n s with ⟨-, hl', hd, -⟩ | ⟨-, hl', hd, -⟩ | ⟨-, hl', hd, -⟩ |
    ⟨-, hl', hd, -⟩ | ⟨-, -, -, -, hl', -⟩ <;> cases hl.symm.trans hl' <;> rw [hbegin _ hd]
  · exact refuseOr_of_check _ hr
  · exact refuseOr_of_check _ hr
  · exact refuseOr_of_check _ hr
  · exact refuseOr_of_check _ hr

/-- The payload check stops the dispatch. -/
theorem dispatchTag_payload_refused {s : State} {n tag : Word} {stride texel : Nat} {r : Refusal}
    (hl : layoutOf tag = some (stride, texel))
    (hr : footprintCheck s (blockFootprint s stride texel n) = some r) : dispatchTag tag n s = .refused r := by
  rcases dispatchTag_cases tag n s with ⟨-, hl', -, hx⟩ | ⟨-, hl', -, hx⟩ | ⟨-, hl', -, hx⟩ |
    ⟨-, hl', -, hx⟩ | ⟨-, -, -, -, hl', -⟩ <;> cases hl.symm.trans hl' <;> rw [hx]
  · exact refuseOr_of_check _ hr
  · exact refuseOr_of_check _ hr
  · exact refuseOr_of_check _ hr
  · exact refuseOr_of_check _ hr

/-- `s` runs a block whose payload check answers `r`. -/
structure BrokenPayload (s : State) (stride texel : Nat) (r : Refusal) : Prop where
  command : decodeCommand s.smp.op = .ok .decodeBlock
  prefix_ok : prefixCheck s = none
  layout : layoutOf (s.mem.read32 (s.smp.inBase + 4)) = some (stride, texel)
  payload : footprintCheck s (blockFootprint s stride texel (s.mem.read32 s.smp.inBase)) = some r

/-- A running command whose footprint is not in order is a block with a broken payload, since `start` checked
the rest. -/
theorem brokenPayload_of_running {s : State} (hinv : StateInv s) (hb : s.busy = true)
    (hbroken : ¬ footprintOk s (runningFootprint s)) : ∃ stride texel r, BrokenPayload s stride texel r := by
  obtain ⟨i, hd, hcheck, -⟩ := coreStep_running hinv hb
  obtain ⟨hm, -, -, -, -, hacc⟩ := hinv
  obtain ⟨-, -, hn, ht, -⟩ := hacc hb
  rcases decodeCommand_ok hd with ⟨-, rfl⟩ | ⟨-, rfl⟩ | ⟨-, rfl⟩
  · obtain ⟨-, hfit⟩ := (headerCheck_none hm).mp hcheck
    rw [runningFootprint, hd] at hbroken
    exact absurd hfit hbroken
  · obtain ⟨-, -, hfit⟩ := (pointsCheck_none hm).mp hcheck
    rw [runningFootprint_decodePoints hd] at hbroken
    exact absurd hfit hbroken
  · have hprefix : prefixCheck s = none := hcheck
    cases hl : layoutOf (s.mem.read32 (s.smp.inBase + 4)) with
    | none =>
      rw [runningFootprint_prefix hd ht hl] at hbroken
      obtain ⟨-, -, hfit⟩ := (prefixCheck_none hm).mp hprefix
      exact absurd hfit hbroken
    | some layout =>
      rw [runningFootprint_block hd hn ht hl, ← footprintCheck_none hm, ← ne_eq,
        Option.ne_none_iff_exists'] at hbroken
      obtain ⟨r, hr⟩ := hbroken
      exact ⟨_, _, r, hd, hprefix, hl, hr⟩

/-- The per-point form refuses it right after its prefix. -/
theorem perPointRun_broken {s : State} (hinv : StateInv s) (hb : s.busy = true)
    (hbroken : ¬ footprintOk s (runningFootprint s)) : ∃ r, perPointRun 2 s = .refused r := by
  obtain ⟨stride, texel, r, hd, hprefix, hl, hr⟩ := brokenPayload_of_running hinv hb hbroken
  obtain ⟨-, -, -, -, -, hacc⟩ := hinv
  obtain ⟨hindex, -, -, ht, -⟩ := hacc hb
  have hlatch : perPointStep s = .next (latchPrefix s) := by
    rw [perPointStep_decodeBlock hb ht hindex hd, hprefix, refuseOr_none]
  refine ⟨r, ?_⟩
  rw [perPointRun_next hlatch, perPointRun_one]
  exact perPointStep_payload_refused (s := latchPrefix s) hb rfl rfl hindex hl hr

/-- The core's move refuses it. -/
theorem coreStep_broken {s : State} (hinv : StateInv s) (hb : s.busy = true)
    (hbroken : ¬ footprintOk s (runningFootprint s)) : ∃ r, coreStep s = .refused r := by
  obtain ⟨stride, texel, r, hd, hprefix, hl, hr⟩ := brokenPayload_of_running hinv hb hbroken
  obtain ⟨-, -, -, -, -, hacc⟩ := hinv
  obtain ⟨-, -, -, ht, -⟩ := hacc hb
  refine ⟨r, ?_⟩
  rw [coreStep_command hb ht hd]
  exact (execDecodeBlock_of_check hprefix).trans (dispatchTag_payload_refused (s := latchPrefix s) hl hr)

/-- Settles O22: with its footprint in order the command completes, and the per-point form with it; a broken
one is refused at its payload check. -/
theorem runningCommandTerminates : Obligations.RunningCommandTerminates := by
  refine fun s hinv hb => ⟨fun hfit => ?_, fun hbroken => ⟨2, le_rfl, perPointRun_broken hinv hb hbroken⟩⟩
  obtain ⟨t, ht, st, u, hst, -, rfl⟩ := coreStep_completes hinv hb hfit
  obtain ⟨k, hk, hrun⟩ := perPointRun_coreStep hinv hb
  exact ⟨k, hk, _, hrun.trans ht, rfl, hst⟩

end Sys2Proof.Machine
end

section
/-! DECODE_POINTS (44_generic_splat.md R170 to R173): the loop of an unpacker (`LoopAt_run`), whose body at point
`i` writes the texel of record `i`. -/

namespace Sys2Proof.Machine

/-- The words of texel `i` of a DECODE_POINTS that starts in `s`, its six free values those from `draws + 6 i` on
(log 7). -/
def pointsWords (s : State) (i : Nat) : List Word :=
  texelWords s.cfg (s.draws + 6 * i) (genericRecord s.mem (s.smp.inBase + 32 * i))

/-- A record is as it was at the start for as long as the loop runs, since no texel overlaps it (R64). -/
theorem record_unchanged {s₀ s : State} {i : Nat} {ws : Nat → List Word}
    (hfit : footprintOk s₀ (pointsFootprint s₀)) (hi : i < s₀.smp.count.toNat) (hl : LoopAt s₀ 32 6 ws i s) :
    genericRecord s.mem (s₀.smp.inBase + 32 * i) = genericRecord s₀.mem (s₀.smp.inBase + 32 * i) := by
  refine genericRecord_congr fun k hk => ?_
  have hread : (pointsFootprint s₀).reads.has (s₀.smp.inBase + 32 * i + k) = true := by
    simp only [Span_has_iff, pointsFootprint, constants]
    omega
  exact LoopAt_byte hl hi.le (Span_has_false_iff.mp (not_written_of_read hfit hread))

/-- At point `i` of the loop the body writes texel `i`, of the record as it was at the start. -/
theorem genericSplatPoint_of_loopAt {s₀ s : State} {i : Nat}
    (hfit : footprintOk s₀ (pointsFootprint s₀)) (hi : i < s₀.smp.count.toNat)
    (hl : LoopAt s₀ 32 6 (pointsWords s₀) i s) :
    genericSplatPoint s = bumpIndex (putWords (s₀.smp.outBase + 32 * i) (pointsWords s₀ i) 6 s) := by
  obtain ⟨hindex, hsmp, hcfg, hdraws⟩ := LoopAt_fields hl
  have hrecord := record_unchanged hfit hi hl
  rw [genericSplatPoint_some hindex, toNat_index hi, hsmp, writeTexel, toNat_index hi, hcfg, hdraws,
    pointsWords, ← hrecord]
  rfl

/-- With its checks passed, DECODE_POINTS completes with the texel of every record at its place. -/
theorem execDecodePoints_unpacked {s : State} (hm : s.mem.wf = true) (hin : s.smp.inBase % 4 = 0)
    (hout : s.smp.outBase % 4 = 0) (hfit : footprintOk s (pointsFootprint s)) :
    ∃ t, execDecodePoints s = .next t ∧
      unpacked s t 32 s.smp.count.toNat (pointsWords s) (6 * s.smp.count.toNat) := by
  -- the loop starts with the count latched, which completion forgets
  have hloop : LoopAt { s with n := some s.smp.count } 32 6 (pointsWords s) s.smp.count.toNat
      (genericSplatPoint^[s.smp.count.toNat] (pointsBegin s)) :=
    LoopAt_run (s0 := { s with n := some s.smp.count }) hm (texelsExist_of_footprint hfit rfl)
      (fun _ => rfl) (fun _ hi _ hl => genericSplatPoint_of_loopAt hfit hi hl) s.smp.count.toNat le_rfl
  have hdone := LoopAt_complete hloop
  exact ⟨_, execDecodePoints_next.mpr ⟨(pointsCheck_none hm).mpr ⟨hin, hout, hfit⟩, rfl⟩, hdone⟩

/-- Settles O30: the records of the obligation are those of the loop, with their fields written out. -/
theorem decodePointsResult : Obligations.DecodePointsResult :=
  fun _ hm hin hout hfit => execDecodePoints_unpacked hm hin hout hfit

/-- Settles O31: words 0, 1, 2, 3 and 7 of a texel are the record's position, a zero and its colour. -/
theorem decodePointsCopiesPositionAndColour : Obligations.DecodePointsCopiesPositionAndColour := by
  intro s hm hin hout hfit
  obtain ⟨t, ht, -, -, hwords, -⟩ := execDecodePoints_unpacked hm hin hout hfit
  refine ⟨t, ht, fun i hi => ?_⟩
  have hword : ∀ k (hk : k < 8), t.mem.read32 (s.smp.outBase + 32 * i + 4 * k) = (pointsWords s i)[k] :=
    hwords i hi
  exact ⟨hword 0 (by decide), hword 1 (by decide), hword 2 (by decide), hword 3 (by decide),
    hword 7 (by decide)⟩

end Sys2Proof.Machine
end

section
/-! What a command computes, as data (10_state.md R20; 20_memory.md R49). `resultOf` gives the status, the texels and
the free values of a running command from its operands, the parameters and the bytes it reads; the core's move
produces exactly that (`coreStep_produced`). That the result depends on the inputs alone, and that a command run
again gives it again, are then statements about `resultOf`. -/

namespace Sys2Proof.Machine

/-! ## Results -/

/-- The result of a command: its status, and `points` texels of `texel` bytes. `words k i` are the words of texel
`i` where `k` is the number of the first free value, of which each point takes `draws` (log 7). -/
structure CommandResult where
  status : Word
  texel : Nat
  points : Nat
  draws : Nat
  words : Nat → Nat → List Word

/-- A result without texels. -/
def CommandResult.ofStatus (st : Word) : CommandResult :=
  { status := st, texel := 0, points := 0, draws := 0, words := fun _ _ => [] }

/-- VALIDATE_HEADER: the rolling sum against the stored word (R121 to R123). -/
def headerResult (s : State) : CommandResult :=
  .ofStatus (if rollingSum (s.mem.bytes s.smp.inBase 124) = s.mem.read32 (s.smp.inBase + 124) then 0 else 1)

/-- DECODE_POINTS: the texels of its records (R172, R173). -/
def pointsResult (s : State) : CommandResult :=
  { status := 0, texel := 32, points := s.smp.count.toNat, draws := 6
    words := fun k i => texelWords s.cfg (k + 6 * i) (genericRecord s.mem (s.smp.inBase + 32 * i)) }

/-- A Splat20 block of `n` points (R182 to R188). -/
def splatBlockResult (s : State) (n : Word) : CommandResult :=
  { status := 0, texel := 32, points := n.toNat, draws := 6
    words := fun k i => texelWords s.cfg (k + 6 * i) (splat20Record s.cfg s.mem s.smp.inBase n.toNat i) }

/-- A spherical-harmonics block of `n` points, `stride` coefficients a point (R202). -/
def harmonicsResult (s : State) (stride : Nat) (n : Word) : CommandResult :=
  { status := 0, texel := 16, points := n.toNat, draws := 0, words := fun _ i => shTexelWords s stride i }

/-- DECODE_BLOCK by its tag (R161, R162). -/
def blockResult (s : State) (tag n : Word) : CommandResult :=
  if tag = 20 then splatBlockResult s n
  else if tag = 1 then harmonicsResult s 9 n
  else if tag = 2 then harmonicsResult s 24 n
  else if tag = 3 then harmonicsResult s 21 n
  else .ofStatus 1

/-- The result of the running command. -/
def resultOf (s : State) : CommandResult :=
  match decodeCommand s.smp.op with
  | .ok .validateHeader => headerResult s
  | .ok .decodePoints => pointsResult s
  | .ok .decodeBlock => blockResult s (s.mem.read32 (s.smp.inBase + 4)) (s.mem.read32 s.smp.inBase)
  | _ => .ofStatus 1

/-- `t` is `s` after a command with result `r` and write footprint `w`. -/
structure Produced (s : State) (r : CommandResult) (w : Span) (t : State) : Prop where
  eq : t = { complete r.status s with mem := t.mem, draws := s.draws + r.draws * r.points }
  map : t.mem.map = s.mem.map
  words : ∀ i < r.points, wordsAt t.mem (s.smp.outBase + r.texel * i) (r.words s.draws i)
  outside : sameOutside w s.mem t.mem
  /-- Every byte written is one of a texel's words. -/
  covers : ∀ a, w.has a = true → ∃ i < r.points, ∃ j < 4 * (r.words s.draws i).length,
    a = s.smp.outBase + r.texel * i + j

/-- Every byte of `n` texels is one of a texel. -/
theorem texel_of_has {base texel n a : Nat} (h : Span.has { base := base, len := texel * n } a = true) :
    ∃ i < n, ∃ j < texel, a = base + texel * i + j := by
  rw [Span_has_iff] at h
  obtain ⟨hlo, hhi⟩ := h
  simp only at hlo hhi
  have hpos : 0 < texel := Nat.pos_of_ne_zero fun h0 => by rw [h0, Nat.zero_mul] at hhi; omega
  refine ⟨(a - base) / texel, Nat.div_lt_of_lt_mul (by omega), (a - base) % texel, Nat.mod_lt _ hpos, ?_⟩
  have := Nat.div_add_mod (a - base) texel
  omega

/-- An unpacker that has run has produced its result. -/
theorem Produced_of_unpacked {s t : State} {r : CommandResult} (hst : r.status = 0)
    (hlen : ∀ i, 4 * (r.words s.draws i).length = r.texel)
    (h : unpacked s t r.texel r.points (r.words s.draws) (r.draws * r.points)) :
    Produced s r { base := s.smp.outBase, len := r.texel * r.points } t := by
  obtain ⟨heq, hmap, hwords, hout⟩ := h
  refine ⟨by rw [hst]; exact heq, hmap, hwords, hout, fun a ha => ?_⟩
  obtain ⟨i, hi, j, hj, rfl⟩ := texel_of_has ha
  exact ⟨i, hi, j, by rw [hlen]; exact hj, rfl⟩

/-- A command that ends at once with its status has produced a result without texels. -/
theorem Produced_ofStatus (st : Word) (s : State) : Produced s (.ofStatus st) noSpan (complete st s) :=
  ⟨rfl, rfl, fun i hi => absurd hi (Nat.not_lt_zero i), fun _ _ => rfl, fun a ha => by simp at ha⟩

/-! ## The core's move produces the result -/

theorem execValidateHeader_produced {s : State} (hcheck : headerCheck s = none) :
    ∃ t, execValidateHeader s = .next t ∧ Produced s (headerResult s) noSpan t := by
  refine ⟨_, execValidateHeader_next.mpr ⟨hcheck, rfl⟩, ?_⟩
  rw [headerEnd_iterate, statusOf_beq]
  exact Produced_ofStatus _ s

theorem execSplat20_produced {s : State} {n : Word} (hm : s.mem.wf = true)
    (hfit : footprintOk s (blockFootprint s 20 32 n)) : ∃ t, execSplat20 n s = .next t ∧
      Produced s (splatBlockResult s n) (blockFootprint s 20 32 n).writes t := by
  obtain ⟨t, ht, hu⟩ := splat20Result s n hm hfit
  simp only [← splat20Record_eq_planes] at hu
  exact ⟨t, ht, Produced_of_unpacked (r := splatBlockResult s n) rfl (fun _ => rfl) hu⟩

theorem shDecode_produced {s : State} {k : Nat} {n : Word} (hm : s.mem.wf = true)
    (hfit : footprintOk s (blockFootprint s k 16 n)) : ∃ t, shDecode k n s = .next t ∧
      Produced s (harmonicsResult s k n) (blockFootprint s k 16 n).writes t := by
  obtain ⟨t, ht, hu⟩ := shDecode_unpacked hm hfit
  rw [← Nat.zero_mul n.toNat] at hu
  exact ⟨t, ht, Produced_of_unpacked (r := harmonicsResult s k n) rfl (fun _ => rfl) hu⟩

theorem dispatchTag_produced {s : State} {tag n : Word} {stride texel : Nat} (hm : s.mem.wf = true)
    (hl : layoutOf tag = some (stride, texel)) (hfit : footprintOk s (blockFootprint s stride texel n)) :
    ∃ t, dispatchTag tag n s = .next t ∧
      Produced s (blockResult s tag n) (blockFootprint s stride texel n).writes t := by
  rcases dispatchTag_cases tag n s with ⟨rfl, hl', -, hx⟩ | ⟨rfl, hl', -, hx⟩ | ⟨rfl, hl', -, hx⟩ |
    ⟨rfl, hl', -, hx⟩ | ⟨-, -, -, -, hl', -⟩ <;> cases hl.symm.trans hl' <;> rw [hx]
  · exact execSplat20_produced hm hfit
  · exact shDecode_produced hm hfit
  · exact shDecode_produced hm hfit
  · exact shDecode_produced hm hfit

theorem blockResult_no_layout {s : State} {tag n : Word} (hl : layoutOf tag = none) :
    blockResult s tag n = .ofStatus 1 := by
  rcases dispatchTag_cases tag n s with ⟨-, hl', -⟩ | ⟨-, hl', -⟩ | ⟨-, hl', -⟩ | ⟨-, hl', -⟩ |
    ⟨h20, h1, h2, h3, -⟩
  · cases hl.symm.trans hl'
  · cases hl.symm.trans hl'
  · cases hl.symm.trans hl'
  · cases hl.symm.trans hl'
  · rw [blockResult, if_neg h20, if_neg h1, if_neg h2, if_neg h3]

/-- The latched prefix is part of no result. -/
theorem Produced_of_latchPrefix {s t : State} {tag n : Word} {w : Span}
    (h : Produced (latchPrefix s) (blockResult (latchPrefix s) tag n) w t) :
    Produced s (blockResult s tag n) w t :=
  ⟨h.eq, h.map, h.words, h.outside, h.covers⟩

/-- In a state of the invariant a running command whose footprint is in order completes with its result. -/
theorem coreStep_produced {s : State} (hinv : StateInv s) (hb : s.busy = true)
    (hfit : footprintOk s (runningFootprint s)) :
    ∃ t, coreStep s = .next t ∧ Produced s (resultOf s) (runningFootprint s).writes t := by
  obtain ⟨i, hd, hcheck, hstep⟩ := coreStep_running hinv hb
  obtain ⟨hm, -, -, -, -, hacc⟩ := hinv
  obtain ⟨-, -, hn, ht, -⟩ := hacc hb
  rw [hstep, resultOf, hd]
  rcases decodeCommand_ok hd with ⟨-, rfl⟩ | ⟨-, rfl⟩ | ⟨-, rfl⟩
  · have hrun : runningFootprint s = headerFootprint s := by rw [runningFootprint, hd]
    rw [hrun]
    exact execValidateHeader_produced hcheck
  · rw [runningFootprint_decodePoints hd] at hfit ⊢
    obtain ⟨hin, hout, -⟩ := (pointsCheck_none hm).mp hcheck
    obtain ⟨t, ht, hu⟩ := execDecodePoints_unpacked hm hin hout hfit
    exact ⟨t, ht, Produced_of_unpacked (r := pointsResult s) rfl (fun _ => rfl) hu⟩
  · cases hl : layoutOf (s.mem.read32 (s.smp.inBase + 4)) with
    | none =>
      refine ⟨_, execDecodeBlock_next.mpr ⟨hcheck, dispatchTag_no_layout hl⟩, ?_⟩
      rw [complete_latchPrefix, runningFootprint_prefix hd ht hl]
      show Produced s (blockResult s _ _) noSpan _
      rw [blockResult_no_layout hl]
      exact Produced_ofStatus 1 s
    | some layout =>
      rw [runningFootprint_block hd hn ht hl] at hfit ⊢
      obtain ⟨t, hdone, hp⟩ := dispatchTag_produced (s := latchPrefix s) hm hl hfit
      exact ⟨t, execDecodeBlock_next.mpr ⟨hcheck, hdone⟩, Produced_of_latchPrefix hp⟩

/-- A running command that completes had its footprint in order. -/
theorem footprintOk_of_coreStep {s t : State} (hinv : StateInv s) (hb : s.busy = true)
    (h : coreStep s = .next t) : footprintOk s (runningFootprint s) := by
  by_contra hbroken
  obtain ⟨r, hr⟩ := coreStep_broken hinv hb hbroken
  cases h.symm.trans hr

/-! ## The result depends on the inputs -/

/-- Two results that give the same bytes, whatever the free values. -/
structure SameResult (r r' : CommandResult) : Prop where
  status : r'.status = r.status
  texel : r'.texel = r.texel
  points : r'.points = r.points
  draws : r'.draws = r.draws
  words : ∀ k, ∀ i < r.points, r'.words k i = r.words k i

theorem SameResult.refl (r : CommandResult) : SameResult r r := ⟨rfl, rfl, rfl, rfl, fun _ _ _ => rfl⟩

/-- The two states have the same bytes in `[a, a + n)`. -/
def SameBytes (s t : State) (a n : Nat) : Prop := ∀ k < n, t.mem.byte (a + k) = s.mem.byte (a + k)

theorem SameBytes.mono {s t : State} {a n : Nat} (h : SameBytes s t a n) {b k : Nat} (hlo : a ≤ b)
    (hhi : b + k ≤ a + n) : SameBytes s t b k := fun j hj => by
  have := h (b - a + j) (by omega)
  rwa [show a + (b - a + j) = b + j by omega] at this

theorem SameBytes.read32 {s t : State} {a : Nat} (h : SameBytes s t a 4) :
    t.mem.read32 a = s.mem.read32 a := read32_congr h

theorem headerResult_congr {s t : State} (hs : t.smp = s.smp) (h : SameBytes s t s.smp.inBase 128) :
    SameResult (headerResult s) (headerResult t) := by
  have hbytes : t.mem.bytes s.smp.inBase 124 = s.mem.bytes s.smp.inBase 124 :=
    bytes_congr (h.mono le_rfl (by omega))
  rw [headerResult, headerResult, hs, hbytes, (h.mono (by omega) (by omega)).read32]
  exact .refl _

theorem pointsResult_congr {s t : State} (hs : t.smp = s.smp) (hc : t.cfg = s.cfg)
    (h : SameBytes s t s.smp.inBase (32 * s.smp.count.toNat)) :
    SameResult (pointsResult s) (pointsResult t) := by
  refine ⟨rfl, rfl, by rw [pointsResult, hs]; rfl, rfl, fun k i (hi : i < s.smp.count.toNat) => ?_⟩
  simp only [pointsResult, hs, hc]
  rw [genericRecord_congr (h.mono (by omega) (by omega))]

theorem splatBlockResult_congr {s t : State} {n : Word} (hs : t.smp = s.smp) (hc : t.cfg = s.cfg)
    (h : SameBytes s t s.smp.inBase (8 + 20 * n.toNat)) :
    SameResult (splatBlockResult s n) (splatBlockResult t n) := by
  refine ⟨rfl, rfl, rfl, rfl, fun k i (hi : i < n.toNat) => ?_⟩
  simp only [splatBlockResult, hs, hc]
  rw [splat20Record_congr hi (h.mono (by omega) (by omega))]

theorem harmonicsResult_congr {s t : State} {stride : Nat} {n : Word} (hs : t.smp = s.smp)
    (h : SameBytes s t s.smp.inBase (8 + stride * n.toNat)) :
    SameResult (harmonicsResult s stride n) (harmonicsResult t stride n) := by
  refine ⟨rfl, rfl, rfl, rfl, fun k i (hi : i < n.toNat) => ?_⟩
  have hpoint : stride * (i + 1) ≤ stride * n.toNat := Nat.mul_le_mul_left stride hi
  rw [Nat.mul_succ] at hpoint
  simp only [harmonicsResult, shTexelWords, hs]
  rw [shCoefficients_congr (h.mono (by omega) (by omega))]

theorem blockResult_congr {s t : State} {tag n : Word} (hs : t.smp = s.smp) (hc : t.cfg = s.cfg)
    (h : ∀ stride texel, layoutOf tag = some (stride, texel) →
      SameBytes s t s.smp.inBase (8 + stride * n.toNat)) :
    SameResult (blockResult s tag n) (blockResult t tag n) := by
  unfold blockResult
  split_ifs with h20 h1 h2 h3
  · exact splatBlockResult_congr hs hc (h 20 32 (by rw [h20]; rfl))
  · exact harmonicsResult_congr hs (h 9 16 (by rw [h1]; rfl))
  · exact harmonicsResult_congr hs (h 24 16 (by rw [h2]; rfl))
  · exact harmonicsResult_congr hs (h 21 16 (by rw [h3]; rfl))
  · exact .refl _

/-- The operands, the parameters and the bytes of the read footprint decide the result (R20). -/
theorem resultOf_congr {s t : State} {i : Instr} (hd : decodeCommand s.smp.op = .ok i) (hn : s.n = none)
    (ht : s.tag = none) (hs : t.smp = s.smp) (hc : t.cfg = s.cfg)
    (h : ∀ a, (runningFootprint s).reads.has a = true → t.mem.byte a = s.mem.byte a) :
    SameResult (resultOf s) (resultOf t) := by
  have hbytes : ∀ n ≤ (runningFootprint s).reads.len,
      SameBytes s t (runningFootprint s).reads.base n := fun n hn k hk =>
    h _ (Span_has_iff.mpr (by omega))
  rw [resultOf, resultOf, hs, hd]
  rcases decodeCommand_ok hd with ⟨-, rfl⟩ | ⟨-, rfl⟩ | ⟨-, rfl⟩
  · have hrun : runningFootprint s = headerFootprint s := by rw [runningFootprint, hd]
    rw [hrun] at hbytes
    exact headerResult_congr hs (hbytes _ le_rfl)
  · rw [runningFootprint_decodePoints hd] at hbytes
    exact pointsResult_congr hs hc (hbytes _ le_rfl)
  · obtain ⟨hbase, hlen⟩ := prefix_reads hd
    have hprefix : SameBytes s t s.smp.inBase 8 := hbase ▸ hbytes 8 hlen
    have htag : t.mem.read32 (s.smp.inBase + 4) = s.mem.read32 (s.smp.inBase + 4) :=
      (hprefix.mono (by omega) (by omega)).read32
    have hcount : t.mem.read32 s.smp.inBase = s.mem.read32 s.smp.inBase :=
      (hprefix.mono (by omega) (by omega)).read32
    show SameResult (blockResult s _ _) (blockResult t _ _)
    rw [htag, hcount]
    refine blockResult_congr hs hc fun stride texel hl => ?_
    rw [runningFootprint_block hd hn ht hl] at hbytes
    exact hbytes _ le_rfl

/-! ## The bytes of a result -/

/-- A byte of a run of words (R42, R44). -/
theorem byte_of_wordsAt {m : Memory} {a j : Nat} {ws : List Word} (h : wordsAt m a ws)
    (hj : j < 4 * ws.length) :
    m.byte (a + j) = (ws.getD (j / 4) 0).extractLsb' (8 * (j % 4)) 8 := by
  have hword := h (j / 4) (by omega)
  rw [List.getD_eq_getElem _ _ (show j / 4 < ws.length by omega), ← hword,
    ← byte_of_read32 m (a + 4 * (j / 4)) (Nat.mod_lt j (by decide)), Nat.add_assoc, Nat.div_add_mod]

/-- Where two commands produce the same words, they leave the same bytes. -/
theorem Produced.byte_congr {s s' t t' : State} {r r' : CommandResult} {w w' : Span}
    (h : Produced s r w t) (h' : Produced s' r' w' t') (hs : s'.smp.outBase = s.smp.outBase)
    (htexel : r'.texel = r.texel) (hpoints : r'.points = r.points)
    (hwords : ∀ i < r.points, r'.words s'.draws i = r.words s.draws i) {a : Nat} (ha : w.has a = true) :
    t'.mem.byte a = t.mem.byte a := by
  obtain ⟨i, hi, j, hj, rfl⟩ := h.covers a ha
  have hw' := h'.words i (hpoints ▸ hi)
  rw [hs, htexel, hwords i hi] at hw'
  rw [byte_of_wordsAt hw' hj, byte_of_wordsAt (h.words i hi) hj]

theorem Produced.status {s t : State} {r : CommandResult} {w : Span} (h : Produced s r w t) :
    t.status = r.status :=
  (congrArg State.status h.eq).trans rfl

theorem Produced.draws {s t : State} {r : CommandResult} {w : Span} (h : Produced s r w t) :
    t.draws = s.draws + r.draws * r.points :=
  (congrArg State.draws h.eq).trans rfl

/-- In a state of the invariant a running command has not latched its prefix. -/
theorem not_latched_of_inv {s : State} (hinv : StateInv s) (hb : s.busy = true) :
    s.n = none ∧ s.tag = none := by
  obtain ⟨-, -, -, -, -, hacc⟩ := hinv
  obtain ⟨-, -, hn, htag, -⟩ := hacc hb
  exact ⟨hn, htag⟩

/-- Settles O23: both moves produce their results, and the results are the same. -/
theorem resultDependsOnlyOnInputs : Obligations.ResultDependsOnlyOnInputs := by
  intro s s' t hinv hinv' hb hb' hsmp hcfg hdraws hbytes hfit' ht
  obtain ⟨i, hd, -⟩ := coreStep_running hinv hb
  obtain ⟨hn, htag⟩ := not_latched_of_inv hinv hb
  obtain ⟨hn', htag'⟩ := not_latched_of_inv hinv' hb'
  have hrun : runningFootprint s' = runningFootprint s :=
    runningFootprint_congr hsmp (hn'.trans hn.symm) (htag'.trans htag.symm) hbytes
  have hsame := resultOf_congr hd hn htag hsmp hcfg hbytes
  obtain ⟨u, hu, hp⟩ := coreStep_produced hinv hb (footprintOk_of_coreStep hinv hb ht)
  obtain ⟨t', ht', hp'⟩ := coreStep_produced hinv' hb' (hrun ▸ hfit')
  cases ht.symm.trans hu
  refine ⟨t', ht', ?_, ?_, fun a ha => ?_⟩
  · rw [hp'.status, hp.status, hsame.status]
  · rw [hp'.draws, hp.draws, hsame.draws, hsame.points, hdraws]
  · exact hp.byte_congr hp' (by rw [hsmp]) hsame.texel hsame.points
      (fun i hi => by rw [hdraws]; exact hsame.words _ i hi) ha

/-! ## The command run again -/

/-- The core that has answered `t`, with the operands of `s` and BUSY set again, and the free values at `k`. -/
def restarted (s t : State) (k : Nat) : State := { t with busy := true, smp := s.smp, draws := k }

/-- The run left the bytes it read, so the command run again has the same footprint. -/
theorem restarted_reads {s t : State} {r : CommandResult} (hfit : footprintOk s (runningFootprint s))
    (hp : Produced s r (runningFootprint s).writes t) (k : Nat) :
    ∀ a, (runningFootprint s).reads.has a = true → (restarted s t k).mem.byte a = s.mem.byte a :=
  fun a ha => hp.outside a (not_written_of_read hfit ha)

theorem footprintOk_congr {s t : State} (hm : s.mem.wf = true) (hm' : t.mem.wf = true)
    (hc : t.cfg = s.cfg) (hmap : t.mem.map = s.mem.map) {f : Footprint} (h : footprintOk s f) :
    footprintOk t f := by
  rw [← footprintCheck_none hm', footprintCheck_congr hc hmap, footprintCheck_none hm]
  exact h

/-- What stands after a run: the invariant, and no hidden state. -/
theorem restarted_running {s t : State} {r : CommandResult} (hinv : StateInv s) (hb : s.busy = true)
    (ht : coreStep s = .next t) (hfit : footprintOk s (runningFootprint s))
    (hp : Produced s r (runningFootprint s).writes t) (k : Nat) :
    runningFootprint (restarted s t k) = runningFootprint s ∧ StateInv (restarted s t k) := by
  obtain ⟨i, hd, hcheck, -⟩ := coreStep_running hinv hb
  have hframe := coreStep_frame ht
  obtain ⟨hm, hc, ⟨hin, hout, -, -⟩, hst, -, -⟩ := coreStep_keepsInv hinv ht
  obtain ⟨-, -, ⟨-, -, hsin, hsout⟩, -, -, hacc⟩ := hinv
  obtain ⟨-, -, hn, htag, hheld, -⟩ := hacc hb
  have heq := hp.eq
  have hrun : runningFootprint (restarted s t k) = runningFootprint s :=
    runningFootprint_congr rfl ((congrArg State.n heq).trans hn.symm)
      ((congrArg State.tag heq).trans htag.symm) (restarted_reads hfit hp k)
  refine ⟨hrun, hm, hc, ⟨hin, hout, ?_, ?_⟩, hst, fun h => (by cases h), fun _ =>
    ⟨congrArg State.index heq, congrArg State.rs heq, congrArg State.n heq, congrArg State.tag heq, ?_,
      i, hd, ?_⟩⟩
  · exact hframe.cfg ▸ hsin
  · exact hframe.cfg ▸ hsout
  · rw [hrun]
    exact hframe.held ▸ hheld
  · exact (startCheck_congr (s := s) (t := restarted s t k) i rfl hframe.cfg hframe.map).trans hcheck

/-! ## The signs of NaN halves

`f32Bits` replaces the sign of a NaN alone, so two texels of one record that take different free values differ in
the sign bits of those halves, and in nothing else (R49, R135). -/

/-- The half of a covariance entry, with the free value number `k`. -/
def entryHalf (cfg : Config) (k : Nat) (e : Word) : Half := floatToHalf cfg (f32Bits cfg.nanSign k e)

theorem f32Bits_fields (mode : NanSign) (k : Nat) (e : Word) :
    f32Exp (f32Bits mode k e) = f32Exp e ∧ f32Frac (f32Bits mode k e) = f32Frac e := by
  unfold f32Bits
  split
  · have hlow : ∀ start len, start + len ≤ 31 →
        (nanSignBit mode k ++ e.extractLsb' 0 31 : Word).extractLsb' start len = e.extractLsb' start len := by
      intro start len hle
      refine BitVec.eq_of_getLsbD_eq fun j hj => ?_
      simp only [BitVec.getLsbD_extractLsb', BitVec.getLsbD_append, hj, decide_true, Bool.true_and,
        show start + j < 31 by omega, if_true, Nat.zero_add]
    exact ⟨congrArg BitVec.toNat (hlow 23 8 le_rfl), congrArg BitVec.toNat (hlow 0 23 (by decide))⟩
  · exact ⟨rfl, rfl⟩

theorem entryHalf_low15 (cfg : Config) (k k' : Nat) (e : Word) :
    (entryHalf cfg k e).extractLsb' 0 15 = (entryHalf cfg k' e).extractLsb' 0 15 := by
  obtain ⟨h1, h2⟩ := f32Bits_fields cfg.nanSign k e
  obtain ⟨h1', h2'⟩ := f32Bits_fields cfg.nanSign k' e
  rw [entryHalf, entryHalf, floatToHalf_low15, floatToHalf_low15, h1, h2, h1', h2']

theorem entryHalf_of_not_nan (cfg : Config) (k k' : Nat) {e : Word} (h : f32IsNaN e = false) :
    entryHalf cfg k e = entryHalf cfg k' e := by
  simp only [entryHalf, f32Bits, h, Bool.false_eq_true, if_false]

theorem f32Bits_fixed {mode : NanSign} (h : mode ≠ .draw) (k k' : Nat) (e : Word) :
    f32Bits mode k e = f32Bits mode k' e := by
  cases mode with
  | draw => exact absurd rfl h
  | positive => rfl
  | negative => rfl

/-- The halves of a covariance entry under two free values: the same but for the sign of a NaN. -/
structure HalfAlike (e : Word) (x x' : Half) : Prop where
  low : x.extractLsb' 0 15 = x'.extractLsb' 0 15
  eq : f32IsNaN e = false → x = x'

/-- Only the top bit of the upper byte of such a half can differ. -/
theorem HalfAlike.byte {e : Word} {x x' : Half} (h : HalfAlike e x x') {b : Nat} (hb : b < 2) :
    (x.extractLsb' (8 * b) 8).extractLsb' 0 7 = (x'.extractLsb' (8 * b) 8).extractLsb' 0 7 ∧
      ((b = 1 → f32IsNaN e = false) → x.extractLsb' (8 * b) 8 = x'.extractLsb' (8 * b) 8) := by
  have hbit : ∀ j < 15, x.getLsbD j = x'.getLsbD j := fun j hj => by
    have := congrArg (fun v => v.getLsbD j) h.low
    simpa only [BitVec.getLsbD_extractLsb', hj, decide_true, Bool.true_and, Nat.zero_add] using this
  refine ⟨BitVec.eq_of_getLsbD_eq fun j hj => ?_, fun hnan => ?_⟩
  · simp only [BitVec.getLsbD_extractLsb', Nat.zero_add, hbit (8 * b + j) (by omega)]
  · by_cases h1 : b = 1
    · rw [h.eq (hnan h1)]
    · obtain rfl : b = 0 := by omega
      refine BitVec.eq_of_getLsbD_eq fun j hj => ?_
      simp only [BitVec.getLsbD_extractLsb', hbit (8 * 0 + j) (by omega)]

/-- Half `j` of the texel of a record, its free value the number `k + j` (R147; log 7). -/
def texelHalf (cfg : Config) (k : Nat) (r : SplatRecord) (j : Nat) : Half :=
  entryHalf cfg (k + j) ((covarianceEntries r).getD j 0)

theorem texelHalf_alike (cfg : Config) (k k' : Nat) (r : SplatRecord) (j : Nat) :
    HalfAlike ((covarianceEntries r).getD j 0) (texelHalf cfg k r j) (texelHalf cfg k' r j) :=
  ⟨entryHalf_low15 cfg _ _ _, entryHalf_of_not_nan cfg _ _⟩

/-- The eight words of a texel by its six halves (R85, R147). -/
theorem texelWords_eq_halves (cfg : Config) (k : Nat) (r : SplatRecord) : texelWords cfg k r =
    [r.px, r.py, r.pz, 0,
      (texelHalf cfg k r 1 ++ texelHalf cfg k r 0 : BitVec (16 + 16)),
      (texelHalf cfg k r 3 ++ texelHalf cfg k r 2 : BitVec (16 + 16)),
      (texelHalf cfg k r 5 ++ texelHalf cfg k r 4 : BitVec (16 + 16)), r.rgba] := rfl

/-- Bytes of a word of two halves (R88). -/
theorem byte_of_halves (x y : Half) {q : Nat} (hq : q < 4) :
    (y ++ x : BitVec (16 + 16)).extractLsb' (8 * q) 8 =
      if q < 2 then x.extractLsb' (8 * q) 8 else y.extractLsb' (8 * (q - 2)) 8 := by
  refine BitVec.eq_of_getLsbD_eq fun j hj => ?_
  split
  · simp only [BitVec.getLsbD_extractLsb', BitVec.getLsbD_append, show 8 * q + j < 16 by omega, if_true]
  · simp only [BitVec.getLsbD_extractLsb', BitVec.getLsbD_append, show ¬ 8 * q + j < 16 by omega, if_false,
      show 8 * q + j - 16 = 8 * (q - 2) + j by omega]

/-- Byte `b` of a texel is one of half `(b - 16) / 2` from byte 16 to byte 27, and is not drawn elsewhere. -/
theorem texel_byte (cfg : Config) (k : Nat) (r : SplatRecord) {b : Nat} (hb : b < 32)
    (hdrawn : 16 ≤ b ∧ b < 28) :
    ((texelWords cfg k r).getD (b / 4) 0).extractLsb' (8 * (b % 4)) 8 =
      (texelHalf cfg k r ((b - 16) / 2)).extractLsb' (8 * ((b - 16) % 2)) 8 := by
  obtain ⟨q, hq, p, hp, rfl⟩ : ∃ q < 4, ∃ p < 3, b = 16 + 4 * p + q :=
    ⟨b % 4, by omega, (b - 16) / 4, by omega, by omega⟩
  interval_cases p <;> interval_cases q <;> exact byte_of_halves _ _ (by decide)

theorem texel_byte_fixed (cfg : Config) (k k' : Nat) (r : SplatRecord) {b : Nat} (hb : b < 32)
    (hfixed : b < 16 ∨ 28 ≤ b) : (texelWords cfg k r).getD (b / 4) 0 =
      (texelWords cfg k' r).getD (b / 4) 0 := by
  have hw : b / 4 < 4 ∨ b / 4 = 7 := by omega
  rw [texelWords_eq_halves, texelWords_eq_halves]
  generalize b / 4 = w at *
  rcases hw with hw | rfl
  · interval_cases w <;> simp only [List.getD_cons_zero, List.getD_cons_succ]
  · simp only [List.getD_cons_zero, List.getD_cons_succ]

/-- Two texels of one record differ in nothing but the signs of NaN halves (R49). -/
theorem sameButNaNSigns_of_words {cfg : Config} {k k' : Nat} {r : SplatRecord} {a : Nat} {m m' : Memory}
    (h : wordsAt m a (texelWords cfg k r)) (h' : wordsAt m' a (texelWords cfg k' r)) :
    sameButNaNSigns r a m m' := by
  intro b hb
  have hm := byte_of_wordsAt h (j := b) hb
  have hm' := byte_of_wordsAt h' (j := b) hb
  by_cases hdrawn : 16 ≤ b ∧ b < 28
  · rw [texel_byte cfg k r hb hdrawn] at hm
    rw [texel_byte cfg k' r hb hdrawn] at hm'
    obtain ⟨hlow, heq⟩ := (texelHalf_alike cfg k' k r ((b - 16) / 2)).byte (b := (b - 16) % 2) (by omega)
    rw [hm, hm']
    refine ⟨hlow, fun hnan => heq fun hodd => hnan ((b - 16) / 2) _ (by omega) ?_⟩
    have hj : (b - 16) / 2 < (covarianceEntries r).length := show (b - 16) / 2 < 6 by omega
    rw [List.getD_eq_getElem _ _ hj, List.getElem?_eq_getElem hj]
  · rw [texel_byte_fixed cfg k' k r hb (by omega)] at hm'
    rw [hm, hm']
    exact ⟨rfl, fun _ => rfl⟩

/-- With NAN_SIGN fixed a texel takes no free value. -/
theorem texelWords_fixed {cfg : Config} (h : cfg.nanSign ≠ .draw) (k k' : Nat) (r : SplatRecord) :
    texelWords cfg k r = texelWords cfg k' r := by
  simp only [texelWords, f32Bits_fixed h _ k']

/-- The command run again from what it left: it completes, with the result it had. -/
theorem restarted_produced {s t : State} (hinv : StateInv s) (hb : s.busy = true)
    (ht : coreStep s = .next t) (k : Nat) :
    ∃ u, coreStep (restarted s t k) = .next u ∧ Produced s (resultOf s) (runningFootprint s).writes t ∧
      Produced (restarted s t k) (resultOf (restarted s t k)) (runningFootprint s).writes u ∧
      SameResult (resultOf s) (resultOf (restarted s t k)) := by
  obtain ⟨i, hd, -⟩ := coreStep_running hinv hb
  obtain ⟨hn, htag⟩ := not_latched_of_inv hinv hb
  have hfit := footprintOk_of_coreStep hinv hb ht
  have hframe := coreStep_frame ht
  obtain ⟨t', ht', hp⟩ := coreStep_produced hinv hb hfit
  cases ht.symm.trans ht'
  obtain ⟨hrun, hinv2⟩ := restarted_running hinv hb ht hfit hp k
  have hfit2 : footprintOk (restarted s t k) (runningFootprint s) :=
    footprintOk_congr (s := s) (t := restarted s t k) hinv.1 hinv2.1 hframe.cfg hframe.map hfit
  obtain ⟨u, hu, hp2⟩ := coreStep_produced hinv2 rfl (hrun.symm ▸ hfit2)
  rw [hrun] at hp2
  exact ⟨u, hu, hp, hp2, resultOf_congr hd hn htag rfl hframe.cfg (restarted_reads hfit hp k)⟩

/-- Two runs whose result is geometry texels differ in nothing but the signs of NaN halves. -/
theorem Produced.sameButNaNSigns {s s' t u : State} {r r' : CommandResult} {w w' : Span}
    {record : Nat → SplatRecord} (h : Produced s r w t) (h' : Produced s' r' w' u)
    (hsame : SameResult r r') (hs : s'.smp.outBase = s.smp.outBase) (htexel : r.texel = 32)
    (hwords : ∀ k i, r.words k i = texelWords s.cfg (k + 6 * i) (record i)) :
    ∀ i < r.points, sameButNaNSigns (record i) (s.smp.outBase + 32 * i) t.mem u.mem := by
  intro i hi
  have hw := h.words i hi
  have hw' := h'.words i (hsame.points ▸ hi)
  rw [hwords, htexel] at hw
  rw [hsame.words _ i hi, hwords, hs, hsame.texel, htexel] at hw'
  exact sameButNaNSigns_of_words hw hw'

/-- A result that draws no NaN sign is the same at every number of free values. -/
theorem resultOf_words_fixed {s : State} {i : Instr} (hd : decodeCommand s.smp.op = .ok i)
    (h : s.cfg.nanSign ≠ .draw ∨ s.smp.op = 0 ∨
      (s.smp.op = 2 ∧ s.mem.read32 (s.smp.inBase + 4) ≠ 20)) (k k' : Nat) :
    ∀ i < (resultOf s).points, (resultOf s).words k i = (resultOf s).words k' i := by
  intro j hj
  rw [resultOf, hd] at hj ⊢
  rcases decodeCommand_ok hd with ⟨-, rfl⟩ | ⟨hop, rfl⟩ | ⟨hop, rfl⟩
  · rfl
  · rw [hop] at h
    rcases h with hsign | h0 | ⟨h2, -⟩
    · exact texelWords_fixed hsign _ _ _
    · exact absurd h0 (by decide)
    · exact absurd h2 (by decide)
  · rw [hop] at h
    show (blockResult s _ _).words k j = (blockResult s _ _).words k' j
    unfold blockResult
    split_ifs with h20
    · rcases h with hsign | h0 | ⟨-, htag⟩
      · exact texelWords_fixed hsign _ _ _
      · exact absurd h0 (by decide)
      · exact absurd h20 htag
    all_goals rfl

/-- Settles O24: the run left the bytes it read, so the second run has the first one's result, which depends on
the number of the free values in the signs of NaN halves alone. -/
theorem commandIsIdempotent : Obligations.CommandIsIdempotent := by
  intro s t k hinv hb ht
  obtain ⟨i, hd, -⟩ := coreStep_running hinv hb
  obtain ⟨u, hu, hp, hp2, hsame⟩ := restarted_produced hinv hb ht k
  refine ⟨u, hu, ?_, hp2.outside, fun hop => ?_, fun hop htag => ?_, fun hfixed a => ?_⟩
  · rw [hp2.status, hp.status, hsame.status]
  · have hres : resultOf s = pointsResult s := by rw [resultOf, hop]; rfl
    rw [hres] at hp hsame
    exact hp.sameButNaNSigns hp2 hsame rfl rfl fun _ _ => rfl
  · have hres : resultOf s = splatBlockResult s (s.mem.read32 s.smp.inBase) := by
      rw [resultOf, hop]
      show blockResult s _ _ = _
      rw [blockResult, if_pos htag]
    rw [hres] at hp hsame
    exact hp.sameButNaNSigns hp2 hsame rfl rfl fun _ _ => rfl
  · cases hw : (runningFootprint s).writes.has a with
    | false => exact hp2.outside a hw
    | true =>
      refine hp.byte_congr hp2 rfl hsame.texel hsame.points (fun j hj => ?_) hw
      rw [hsame.words _ j hj]
      rcases hfixed with rfl | hfixed
      · rfl
      · exact resultOf_words_fixed hd hfixed _ _ j hj

end Sys2Proof.Machine
end

section
/-! The memory's stores and its canonical form (20_memory.md R42 to R44; log 6), and what a changed byte does to
the rolling sum (41_header_validator.md, "Sensitivity", R125): every step of the sum is injective in the sum and in
the byte, so a changed byte changes the sum after it, and no later step undoes that. -/

namespace Sys2Proof.Machine

/-! ## Stores -/

/-- Settles O25: the word reads back, so its bytes are the word's. -/
theorem wordStoreIsLittleEndian : Obligations.WordStoreIsLittleEndian := by
  intro m a v hm hhas
  have hread : (m.write32 a v).read32 a = v := read32_write32 hm v hhas
  refine ⟨fun k hk => ?_, hread, fun x hx => byte_write32_outside hm v (Span_has_false_iff.mp hx)⟩
  rw [byte_of_read32 _ _ hk, hread]

/-! ## The canonical form -/

theorem cellsFrom_cons {lo a : Nat} {b : Byte} {l : List Host.Cell} :
    cellsFrom lo ((a, b) :: l) = true ↔ lo ≤ a ∧ b ≠ unlistedByte ∧ cellsFrom (a + 1) l = true := by
  simp [cellsFrom, and_assoc]

/-- The first cell of a list stands for the lowest address that does not read as unlisted. -/
theorem first_cell_le {lo a a' : Nat} {b : Byte} {l l' : List Host.Cell}
    (h : cellsFrom lo ((a, b) :: l) = true) (h' : cellsFrom a' l' = true)
    (hlook : ∀ x, lookupCell ((a, b) :: l) x = lookupCell l' x) : a' ≤ a := by
  by_contra hlt
  obtain ⟨-, hb, -⟩ := cellsFrom_cons.mp h
  have hhead := hlook a
  rw [lookupCell, if_pos rfl, lookupCell_below (Nat.lt_of_not_le hlt) h'] at hhead
  exact hb hhead

/-- Two cell lists in order that read the same are the same. -/
theorem cells_unique {lo : Nat} : ∀ {l l' : List Host.Cell}, cellsFrom lo l = true →
    cellsFrom lo l' = true → (∀ a, lookupCell l a = lookupCell l' a) → l = l'
  | [], [], _, _, _ => rfl
  | [], (a, b) :: t, _, h', hlook => by
    obtain ⟨-, hb, -⟩ := cellsFrom_cons.mp h'
    have hhead := hlook a
    rw [lookupCell, lookupCell, if_pos rfl] at hhead
    exact absurd hhead.symm hb
  | (a, b) :: t, [], h, _, hlook => by
    obtain ⟨-, hb, -⟩ := cellsFrom_cons.mp h
    have hhead := hlook a
    rw [lookupCell, lookupCell, if_pos rfl] at hhead
    exact absurd hhead hb
  | (a, b) :: t, (a', b') :: t', h, h', hlook => by
    obtain ⟨-, hb, ht⟩ := cellsFrom_cons.mp h
    obtain ⟨-, hb', ht'⟩ := cellsFrom_cons.mp h'
    have hle : a' ≤ a := first_cell_le h (cellsFrom_cons.mpr ⟨le_rfl, hb', ht'⟩) hlook
    have hge : a ≤ a' := first_cell_le h' (cellsFrom_cons.mpr ⟨le_rfl, hb, ht⟩) fun x => (hlook x).symm
    obtain rfl : a = a' := le_antisymm hge hle
    obtain rfl : b = b' := by
      have hhead := hlook a
      rwa [lookupCell, lookupCell, if_pos rfl, if_pos rfl] at hhead
    have htail : t = t' := cells_unique ht ht' fun x => by
      by_cases hx : a = x
      · rw [lookupCell_below (by omega) ht, lookupCell_below (by omega) ht']
      · have hrest := hlook x
        rwa [lookupCell, lookupCell, if_neg hx, if_neg hx] at hrest
    rw [htail]

/-- Settles O26. -/
theorem canonicalMemoryIsUnique : Obligations.CanonicalMemoryIsUnique := by
  rintro ⟨map, cells⟩ ⟨map', cells'⟩ h h' rfl hbyte
  obtain ⟨-, hcells, -⟩ := Memory_wf_iff.mp h
  obtain ⟨-, hcells', -⟩ := Memory_wf_iff.mp h'
  rw [Memory.mk.injEq]
  exact ⟨rfl, cells_unique hcells hcells' hbyte⟩

/-! ## The rolling sum -/

/-- The multiplier 33 is odd, so it has an inverse modulo 2^32. -/
theorem hashMult_mul_inverse (r : Word) : r * constants.hashMult * 1041204193 = r := by
  rw [BitVec.mul_assoc, show constants.hashMult * 1041204193 = 1 by decide]
  exact BitVec.mul_one r

theorem xor_right_injective (x : Word) {y y' : Word} (h : x ^^^ y = x ^^^ y') : y = y' := by
  rw [← BitVec.zero_xor (x := y), ← BitVec.xor_self (x := x), BitVec.xor_assoc, h, ← BitVec.xor_assoc,
    BitVec.xor_self, BitVec.zero_xor]

theorem rollStep_injective_sum {r r' : Word} {b : Byte} (h : rollStep r b = rollStep r' b) : r = r' := by
  rw [rollStep, rollStep, BitVec.xor_comm, BitVec.xor_comm (r' * _)] at h
  rw [← hashMult_mul_inverse r, xor_right_injective _ h, hashMult_mul_inverse]

theorem rollStep_injective_byte {r : Word} {b b' : Byte} (h : rollStep r b = rollStep r b') : b = b' := by
  have hwide : b.setWidth 32 = b'.setWidth 32 := xor_right_injective _ h
  have := congrArg BitVec.toNat hwide
  rw [BitVec.toNat_setWidth, BitVec.toNat_setWidth] at this
  have hb := b.isLt
  have hb' := b'.isLt
  exact BitVec.eq_of_toNat_eq (by omega)

/-- Sums that differ still differ after the same bytes. -/
theorem foldl_rollStep_injective (bs : List Byte) {r r' : Word}
    (h : bs.foldl rollStep r = bs.foldl rollStep r') : r = r' := by
  induction bs generalizing r r' with
  | nil => exact h
  | cons b bs ih => exact rollStep_injective_sum (ih h)

/-- From any sum, a list with one byte changed gives another one. -/
theorem foldl_rollStep_set (bs : List Byte) (r : Word) {k : Nat} (hk : k < bs.length) {b : Byte}
    (hb : b ≠ bs[k]) : (bs.set k b).foldl rollStep r ≠ bs.foldl rollStep r := by
  induction bs generalizing r k with
  | nil => exact absurd hk (Nat.not_lt_zero k)
  | cons c bs ih =>
    cases k with
    | zero => exact fun h => hb (rollStep_injective_byte (foldl_rollStep_injective bs h))
    | succ k => exact ih _ (Nat.lt_of_succ_lt_succ hk) hb

/-- Settles O28. -/
theorem rollingSumSeesEveryByte : Obligations.RollingSumSeesEveryByte :=
  fun bs _ hk _ hb => foldl_rollStep_set bs _ hk hb

/-! ## A flipped bit of the header -/

/-- The bytes of a span after a byte store in it. -/
theorem bytes_setByte {m : Memory} (hm : m.wf = true) {a n k : Nat} (hhas : m.has (a + k) = true)
    (b : Byte) : (m.setByte (a + k) b).bytes a n = (m.bytes a n).set k b := by
  refine List.ext_getElem (by simp) fun j h1 h2 => ?_
  rw [bytes_getElem, byte_setByte hm hhas, List.getElem_set, bytes_getElem]
  by_cases hjk : j = k
  · rw [if_pos (by omega), if_pos hjk.symm]
  · rw [if_neg (by omega), if_neg fun h => hjk h.symm]

/-- The sum and the stored word of a header do not both survive a changed byte: one differs, the other does not. -/
theorem header_setByte {m : Memory} (hm : m.wf = true) {a k : Nat} (hk : k < 128)
    (hhas : m.has (a + k) = true) {b : Byte} (hb : b ≠ m.byte (a + k))
    (hvalid : rollingSum (m.bytes a 124) = m.read32 (a + 124)) :
    rollingSum ((m.setByte (a + k) b).bytes a 124) ≠ (m.setByte (a + k) b).read32 (a + 124) := by
  rw [bytes_setByte hm hhas]
  by_cases hsum : k < 124
  · have hstored : (m.setByte (a + k) b).read32 (a + 124) = m.read32 (a + 124) :=
      read32_congr fun j _ => byte_setByte_ne hm b (by omega)
    rw [hstored, ← hvalid]
    exact rollingSumSeesEveryByte _ _ (by simpa using hsum) _ (by rwa [bytes_getElem])
  · rw [List.set_eq_of_length_le (by simp only [bytes_length]; omega), hvalid]
    intro hstored
    obtain ⟨q, hq, rfl⟩ : ∃ q < 4, k = 124 + q := ⟨k - 124, by omega, by omega⟩
    have hbyte := byte_of_read32 (m.setByte (a + (124 + q)) b) (a + 124) hq
    rw [← hstored, ← byte_of_read32 m (a + 124) hq, Nat.add_assoc, byte_setByte hm hhas, if_pos rfl] at hbyte
    exact hb hbyte

theorem flip_ne (b : Byte) {j : Nat} (hj : j < 8) : b ^^^ (1#8 <<< j) ≠ b := by
  intro h
  have hzero : (1#8 <<< j) = 0 := by
    rw [← BitVec.zero_xor (x := 1#8 <<< j), ← BitVec.xor_self (x := b), BitVec.xor_assoc, h,
      BitVec.xor_self]
    rfl
  interval_cases j <;> exact absurd hzero (by decide)

/-- Settles O29: both headers are checked to the end, and the flip changes the sum or the stored word, never
both. -/
theorem headerBitFlipIsCaught : Obligations.HeaderBitFlipIsCaught := by
  rintro s t k j hm hbase hfit ht hst hk hj m rfl
  have hhas : s.mem.has (s.smp.inBase + k) = true := by
    obtain ⟨-, ⟨hreads, -⟩, -⟩ := hfit
    exact hreads _ (Span_has_iff.mpr ⟨Nat.le_add_right _ _, Nat.add_lt_add_left hk _⟩)
  obtain ⟨_, rfl, hrun⟩ := validateHeaderResult s hm hbase hfit
  have hvalid : rollingSum (s.mem.bytes s.smp.inBase 124) = s.mem.read32 (s.smp.inBase + 124) := by
    by_contra hbad
    cases ht.symm.trans hrun
    rw [complete_status, ← rollingSum_eq_foldl, if_neg hbad] at hst
    exact absurd hst (by decide)
  generalize hflip : s.mem.byte (s.smp.inBase + k) ^^^ (1#8 <<< j) = b
  have hwf := setByte_wf hm (s.smp.inBase + k) b
  have hfit' := footprintOk_congr (t := { s with mem := s.mem.setByte (s.smp.inBase + k) b }) hm hwf rfl
    (setByte_map _ _ _) hfit
  obtain ⟨_, rfl, hrun'⟩ := validateHeaderResult { s with mem := s.mem.setByte (s.smp.inBase + k) b } hwf
    hbase hfit'
  refine ⟨_, hrun', ?_⟩
  rw [complete_status, ← rollingSum_eq_foldl, if_neg]
  exact header_setByte hm hk hhas (hflip ▸ flip_ne _ hj) hvalid

end Sys2Proof.Machine
end

section
/-! FLOAT_TO_HALF and PACK_HALF2X16 (40_half_float.md R100 to R108; 30_encoding.md section 4). The fields of the
half are quotient and remainder of the one number `halfMagnitude`, which each band gives by an equation. -/

namespace Sys2Proof.Machine

/-! ## The fields of the half -/

theorem floatToHalf_msb (cfg : Config) (u : Word) : (floatToHalf cfg u).msb = u.msb := by
  rw [floatToHalf, BitVec.msb_append, if_neg (by decide), BitVec.msb_ofBool, f32Sign]

theorem floatToHalf_toNat_low (cfg : Config) (u : Word) :
    (floatToHalf cfg u).toNat % 2 ^ 15 = halfMagnitude cfg (f32Exp u) (f32Frac u) % 2 ^ 15 := by
  have hlow := congrArg BitVec.toNat (floatToHalf_low15 cfg u)
  rwa [BitVec.extractLsb'_toNat, Nat.shiftRight_zero, BitVec.toNat_ofNat] at hlow

/-- The exponent field of the half. -/
theorem floatToHalf_exp (cfg : Config) (u : Word) : ((floatToHalf cfg u).extractLsb' 10 5).toNat =
    halfMagnitude cfg (f32Exp u) (f32Frac u) % 2 ^ 15 / 2 ^ 10 := by
  have hlow := floatToHalf_toNat_low cfg u
  rw [BitVec.extractLsb'_toNat, Nat.shiftRight_eq_div_pow]
  omega

/-- The mantissa of the half. -/
theorem floatToHalf_frac (cfg : Config) (u : Word) : ((floatToHalf cfg u).extractLsb' 0 10).toNat =
    halfMagnitude cfg (f32Exp u) (f32Frac u) % 2 ^ 10 := by
  have hlow := floatToHalf_toNat_low cfg u
  rw [BitVec.extractLsb'_toNat, Nat.shiftRight_zero]
  omega

/-- The top ten bits of the mantissa (R102, R104). -/
theorem top10_toNat (u : Word) : (u.extractLsb' 13 10).toNat = f32Frac u / 2 ^ 13 := by
  simp only [f32Frac, BitVec.extractLsb'_toNat, Nat.shiftRight_eq_div_pow]
  omega

/-! ## The bands -/

theorem halfMagnitude_zero {cfg : Config} (h : cfg.subnormal = .zero) (f : Nat) :
    halfMagnitude cfg 0 f = 0 := by
  rw [halfMagnitude, if_pos rfl, h]

theorem halfMagnitude_passTop10 {cfg : Config} (h : cfg.subnormal = .passTop10) (f : Nat) :
    halfMagnitude cfg 0 f = f / 2 ^ 13 := by
  rw [halfMagnitude, if_pos rfl, h]

/-- A zero or subnormal input gives no exponent (R102). -/
theorem halfMagnitude_subnormal_lt (cfg : Config) {f : Nat} (hf : f < 2 ^ 23) :
    halfMagnitude cfg 0 f < 2 ^ 10 := by
  cases h : cfg.subnormal with
  | zero => rw [halfMagnitude_zero h]; decide
  | passTop10 => rw [halfMagnitude_passTop10 h]; omega

theorem halfMagnitude_saturated (cfg : Config) {e : Nat} (h : 142 ≤ e) (f : Nat) :
    halfMagnitude cfg e f = 31 * 2 ^ 10 := by
  simp only [halfMagnitude, constants, show e ≠ 0 by omega, show ¬ e < 113 by omega,
    show ¬ e < 142 by omega, if_false]

section Truncate
variable {cfg : Config} (hmode : cfg.halfRound = .truncate)
include hmode

theorem halfMagnitude_low_truncate {e : Nat} (f : Nat) (h1 : 1 ≤ e) (h2 : e ≤ 112) :
    halfMagnitude cfg e f = (f + 2 ^ 23) / 2 ^ (126 - e) := by
  rw [halfMagnitude_low f h1 h2, hmode, halfNarrow, Nat.zero_add]

theorem halfMagnitude_low_lt {e f : Nat} (hf : f < 2 ^ 23) (h1 : 1 ≤ e) (h2 : e ≤ 112) :
    halfMagnitude cfg e f < 2 ^ 10 := by
  rw [halfMagnitude_low_truncate hmode f h1 h2]
  have hpow : 2 ^ 14 ≤ 2 ^ (126 - e) := Nat.pow_le_pow_right (by decide) (by omega)
  exact Nat.div_lt_of_lt_mul (by omega)

theorem halfMagnitude_normal_truncate {e : Nat} (f : Nat) (h1 : 113 ≤ e) (h2 : e ≤ 141) :
    halfMagnitude cfg e f = (e - 112) * 2 ^ 10 + f / 2 ^ 13 := by
  rw [halfMagnitude_normal f h1 h2, hmode, halfNarrow]

/-- Under truncation the exponent is that of a subnormal, of a number below 2^15, or of an infinity. -/
theorem halfMagnitude_truncate {e f : Nat} (hf : f < 2 ^ 23) :
    halfMagnitude cfg e f < 30 * 2 ^ 10 ∨ halfMagnitude cfg e f = 31 * 2 ^ 10 := by
  rcases Nat.eq_zero_or_pos e with rfl | h0
  · have := halfMagnitude_subnormal_lt cfg hf
    omega
  · rcases Nat.lt_or_ge e 113 with h1 | h1
    · have := halfMagnitude_low_lt hmode hf h0 (Nat.le_of_lt_succ h1)
      omega
    · rcases Nat.lt_or_ge e 142 with h2 | h2
      · rw [halfMagnitude_normal_truncate hmode f h1 (Nat.le_of_lt_succ h2)]
        omega
      · exact .inr (halfMagnitude_saturated cfg h2 f)

/-- In the low band a greater exponent shifts the significand less. -/
theorem halfMagnitude_low_mono {e f e' f' : Nat} (hf : f < 2 ^ 23) (h1 : 1 ≤ e) (h2 : e' ≤ 112)
    (hle : e * 2 ^ 23 + f ≤ e' * 2 ^ 23 + f') (hee : e ≤ e') :
    halfMagnitude cfg e f ≤ halfMagnitude cfg e' f' := by
  rw [halfMagnitude_low_truncate hmode f h1 (by omega), halfMagnitude_low_truncate hmode f' (by omega) h2]
  rcases hee.eq_or_lt with rfl | hlt
  · exact Nat.div_le_div_right (by omega)
  · calc (f + 2 ^ 23) / 2 ^ (126 - e)
        = (f + 2 ^ 23) / 2 / 2 ^ (125 - e) := by
          rw [Nat.div_div_eq_div_mul, ← Nat.pow_succ', show (125 - e).succ = 126 - e by omega]
      _ ≤ 2 ^ 23 / 2 ^ (125 - e) := Nat.div_le_div_right (by omega)
      _ ≤ 2 ^ 23 / 2 ^ (126 - e') :=
          Nat.div_le_div_left (Nat.pow_le_pow_right (by decide) (by omega)) (Nat.two_pow_pos _)
      _ ≤ (f' + 2 ^ 23) / 2 ^ (126 - e') := Nat.div_le_div_right (Nat.le_add_left _ _)

/-- Within a band and from band to band the magnitude follows exponent and mantissa as one number. -/
theorem halfMagnitude_mono (hsub : cfg.subnormal = .zero) {e f e' f' : Nat} (hf : f < 2 ^ 23)
    (hf' : f' < 2 ^ 23) (hle : e * 2 ^ 23 + f ≤ e' * 2 ^ 23 + f') :
    halfMagnitude cfg e f ≤ halfMagnitude cfg e' f' := by
  have hee : e ≤ e' := by omega
  rcases Nat.lt_or_ge e' 142 with h142 | h142
  · rcases Nat.eq_zero_or_pos e with rfl | h0
    · rw [halfMagnitude_zero hsub]
      exact Nat.zero_le _
    · rcases Nat.lt_or_ge e' 113 with h113 | h113
      · exact halfMagnitude_low_mono hmode hf h0 (by omega) hle hee
      · rw [halfMagnitude_normal_truncate hmode f' h113 (by omega)]
        rcases Nat.lt_or_ge e 113 with hlow | hnormal
        · have := halfMagnitude_low_lt hmode hf h0 (Nat.le_of_lt_succ hlow)
          omega
        · rw [halfMagnitude_normal_truncate hmode f hnormal (by omega)]
          rcases hee.eq_or_lt with rfl | hlt
          · exact Nat.add_le_add_left (Nat.div_le_div_right (by omega)) _
          · have hq : f / 2 ^ 13 < 2 ^ 10 := Nat.div_lt_of_lt_mul hf
            calc (e - 112) * 2 ^ 10 + f / 2 ^ 13
                ≤ (e - 112 + 1) * 2 ^ 10 := by rw [Nat.succ_mul]; exact Nat.add_le_add_left hq.le _
              _ ≤ (e' - 112) * 2 ^ 10 := Nat.mul_le_mul_right _ (by omega)
              _ ≤ (e' - 112) * 2 ^ 10 + f' / 2 ^ 13 := Nat.le_add_right _ _
  · rw [halfMagnitude_saturated cfg h142]
    have := halfMagnitude_truncate hmode (e := e) hf
    omega

end Truncate

/-! ## The obligations on halves -/

/-- Settles O44: the fields of the half, band by band. -/
theorem floatToHalfBands : Obligations.FloatToHalfBands := by
  rintro s u _ rfl
  have hf := f32Frac_lt u
  rw [floatToHalf_exp, floatToHalf_frac]
  refine ⟨rfl, floatToHalf_msb _ u, fun he => ?_, fun hmode h1 h2 => ?_, fun hmode h1 h2 => ?_, fun he => ?_⟩
  · change f32Exp u = 0 at he
    rw [he]
    have hlt := halfMagnitude_subnormal_lt s.cfg hf
    refine ⟨by omega, fun hsub => by rw [halfMagnitude_zero hsub, Nat.zero_mod],
      fun hsub => BitVec.eq_of_toNat_eq ?_⟩
    rw [floatToHalf_frac, he, halfMagnitude_passTop10 hsub, top10_toNat]
    omega
  · change 1 ≤ f32Exp u at h1
    change f32Exp u ≤ 112 at h2
    change _ ∧ _ = (f32Frac u + 2 ^ 23) / 2 ^ (113 - f32Exp u) / 2 ^ 13
    have hlt := halfMagnitude_low_lt hmode hf h1 h2
    refine ⟨by omega, ?_⟩
    rw [Nat.mod_eq_of_lt hlt, halfMagnitude_low_truncate hmode _ h1 h2, Nat.div_div_eq_div_mul, ← Nat.pow_add,
      show 113 - f32Exp u + 13 = 126 - f32Exp u by omega]
  · change 113 ≤ f32Exp u at h1
    change f32Exp u ≤ 141 at h2
    change _ = f32Exp u - 112 ∧ _
    have hval := halfMagnitude_normal_truncate hmode (f32Frac u) h1 h2
    refine ⟨by omega, BitVec.eq_of_toNat_eq ?_⟩
    rw [floatToHalf_frac, top10_toNat]
    omega
  · change 142 ≤ f32Exp u at he
    rw [halfMagnitude_saturated s.cfg he]
    decide

/-- Settles O46: exponent and mantissa are those of the input as it was. -/
theorem floatToHalfSignSymmetry : Obligations.FloatToHalfSignSymmetry := by
  intro cfg u
  show floatToHalf cfg (f32Neg u) = _
  obtain ⟨hexp, hfrac, hsign⟩ := f32Neg_fields u
  have hbit : ∀ (b : Bool) (x : BitVec 15), BitVec.ofBool (!b) ++ x = (BitVec.ofBool b ++ x) ^^^ (1#1 ++ 0#15) :=
    fun b x => by rw [BitVec.xor_append, BitVec.xor_zero]; cases b <;> rfl
  rw [floatToHalf, floatToHalf, hexp, hfrac, f32Sign, f32Sign, hsign]
  exact hbit _ _

/-- Settles O47: the low 31 bits are exponent and mantissa as one number. -/
theorem floatToHalfMonotone : Obligations.FloatToHalfMonotone := by
  intro cfg u v hmode hsub hle
  have hlow31 : ∀ w : Word, (w.extractLsb' 0 31).toNat = f32Exp w * 2 ^ 23 + f32Frac w := fun w => by
    simp only [f32Exp, f32Frac, BitVec.extractLsb'_toNat, Nat.shiftRight_eq_div_pow]
    omega
  rw [hlow31, hlow31] at hle
  have hmono := halfMagnitude_mono hmode hsub (f32Frac_lt u) (f32Frac_lt v) hle
  have hbound := halfMagnitude_truncate hmode (e := f32Exp v) (f32Frac_lt v)
  rw [floatToHalf_low15, floatToHalf_low15, BitVec.toNat_ofNat, BitVec.toNat_ofNat]
  omega

/-- Settles O48. -/
theorem halfIsNeverNaN : Obligations.HalfIsNeverNaN := by
  intro cfg u hmode
  rw [floatToHalf_exp, floatToHalf_frac]
  have hbound := halfMagnitude_truncate hmode (e := f32Exp u) (f32Frac_lt u)
  omega

/-- Settles O49. -/
theorem packHalvesInPlace : Obligations.PackHalvesInPlace := fun s ux uy =>
  ⟨packHalf2x16 s.cfg ux uy, rfl, BitVec.extractLsb'_append_eq_right, BitVec.extractLsb'_append_eq_left⟩

end Sys2Proof.Machine
end

section
/-! The formats of the texels' words (30_encoding.md sections 3 and 4; 46_spherical_harmonics.md R86, R201; the
colour bytes of R82) and the default EXP (45_splat20.md R185, R186). -/

namespace Sys2Proof.Machine

/-! ## Spherical harmonics -/

/-- Settles O37: each bit of the stream stands in its word. -/
theorem harmonicsWordsAreTheStream : Obligations.HarmonicsWordsAreTheStream := by
  intro v
  refine ⟨shWord v 0, shWord v 1, shWord v 2, shWord v 3, rfl, BitVec.eq_of_getLsbD_eq fun p hp => ?_⟩
  have hword : ∀ w < 4, ∀ q < 32, (shWord v w).getLsbD q = v.getLsbD (96 - 32 * w + q) := fun w _ q hq => by
    simp only [shWord, BitVec.getLsbD_extractLsb', hq, decide_true, Bool.true_and]
  simp only [BitVec.getLsbD_append]
  split_ifs with h3 h2 h1
  · rw [hword 3 (by decide) p h3, show 96 - 32 * 3 + p = p by omega]
  · rw [hword 2 (by decide) _ h2, show 96 - 32 * 2 + (p - 32) = p by omega]
  · rw [hword 1 (by decide) _ h1, show 96 - 32 * 1 + (p - 32 - 32) = p by omega]
  · rw [hword 0 (by decide) _ (by omega), show 96 - 32 * 0 + (p - 32 - 32 - 32) = p by omega]

/-- The stream is a function of the codes. -/
theorem shAccumulate_congr {bs bs' : List Byte} (h : bs.map shCode = bs'.map shCode) (j : Nat) :
    shAccumulate j bs = shAccumulate j bs' := by
  induction bs generalizing bs' j with
  | nil => rw [List.map_eq_nil_iff.mp h.symm]
  | cons b bs ih =>
    obtain ⟨b', rest, rfl, hb, hrest⟩ := List.map_eq_cons_iff.mp h.symm
    rw [shAccumulate, shAccumulate, hb, ih hrest.symm]

/-- Settles O38. -/
theorem lowCoefficientBitsAreDropped : Obligations.LowCoefficientBitsAreDropped := fun bs bs' h => by
  rw [shPack, shPack, shAccumulate_congr (bs := bs) (bs' := bs') h]

/-! ## Colour -/

/-- Bit `p` of the colour word is a bit of byte `p / 8`. -/
theorem packRgba_getLsbD (r g b a : Byte) {k j : Nat} (hk : k < 4) (hj : j < 8) :
    (packRgba r g b a).getLsbD (8 * k + j) = ([r, g, b, a].getD k 0).getLsbD j := by
  have hshift : ∀ (x : Byte) (c : Nat), (x.setWidth 32 <<< (8 * c)).getLsbD (8 * k + j) =
      (decide (c = k) && x.getLsbD j) := fun x c => by
    simp only [BitVec.getLsbD_shiftLeft, BitVec.getLsbD_setWidth, show 8 * k + j < 32 by omega, decide_true,
      Bool.true_and]
    rcases Nat.lt_trichotomy c k with hc | rfl | hc
    · rw [BitVec.getLsbD_of_ge x _ (by omega)]
      simp [hc.ne]
    · simp [show 8 * c + j - 8 * c = j by omega, show j < 32 by omega]
    · simp [hc.ne', show 8 * k + j < 8 * c by omega]
  have hwhole : packRgba r g b a = a.setWidth 32 <<< (8 * 3) ||| b.setWidth 32 <<< (8 * 2) |||
      g.setWidth 32 <<< (8 * 1) ||| r.setWidth 32 <<< (8 * 0) := by
    rw [packRgba, Nat.mul_zero, BitVec.shiftLeft_zero]
  rw [hwhole]
  simp only [BitVec.getLsbD_or, hshift]
  interval_cases k <;> simp

/-- Settles O41. -/
theorem colourBytesInPlace : Obligations.ColourBytesInPlace := by
  intro r g b a
  have hbyte : ∀ k < 4, (packRgba r g b a).extractLsb' (8 * k) 8 = [r, g, b, a].getD k 0 := fun k hk =>
    BitVec.eq_of_getLsbD_eq fun j hj => by
      rw [BitVec.getLsbD_extractLsb', packRgba_getLsbD r g b a hk hj, decide_eq_true hj, Bool.true_and]
  exact ⟨hbyte 0 (by decide), hbyte 1 (by decide), hbyte 2 (by decide), hbyte 3 (by decide)⟩

/-! ## The default EXP -/

/-- A finite positive pattern. -/
def f32Positive (w : Word) : Bool := f32Finite w && !w.msb && w != 0

theorem defaultExp_positive : (expLower ++ expUpper).all f32Positive = true := by
  have hlower : expLower.all f32Positive = true := by decide
  have hupper : expUpper.all f32Positive = true := by decide
  rw [List.all_append, hlower, hupper, Bool.and_self]

/-- The patterns rise, each above the one before, the first above `lo`. -/
def risesFrom : Nat → List Word → Bool
  | _, [] => true
  | lo, w :: ws => decide (lo < w.toNat) && risesFrom w.toNat ws

theorem isChain_of_risesFrom {lo : Nat} {ws : List Word} (h : risesFrom lo ws = true) :
    ws.IsChain fun v w => v.toNat < w.toNat := by
  induction ws generalizing lo with
  | nil => exact .nil
  | cons v ws ih =>
    simp only [risesFrom, Bool.and_eq_true, decide_eq_true_eq] at h
    obtain ⟨-, hrest⟩ := h
    refine List.isChain_cons.mpr ⟨fun w hw => ?_, ih hrest⟩
    cases ws with
    | nil => cases hw
    | cons w' ws =>
      cases hw
      simp only [risesFrom, Bool.and_eq_true, decide_eq_true_eq] at hrest
      exact hrest.1

theorem defaultExp_rises : (expLower ++ expUpper).IsChain fun v w => v.toNat < w.toNat := by
  have hlower : risesFrom 0 expLower = true := by decide
  have hupper : risesFrom 0 expUpper = true := by decide
  have hseam : ∀ v ∈ expLower.getLast?, ∀ w ∈ expUpper.head?, v.toNat < w.toNat := by
    have hlast : expLower.getLast? = some 0x3E022FDF := rfl
    have hhead : expUpper.head? = some 0x3E0A9555 := rfl
    intro v hv w hw
    rw [hlast, Option.mem_some_iff] at hv
    rw [hhead, Option.mem_some_iff] at hw
    subst hv hw
    decide
  exact List.isChain_append.mpr ⟨isChain_of_risesFrom hlower, isChain_of_risesFrom hupper, hseam⟩

/-- An entry of the table, by its place in the list. -/
theorem splatScale_eq {c : Byte} {w : Word} (h : (expLower ++ expUpper)[c.toNat]? = some w) :
    splatScale defaultConfig c = w :=
  Option.some.inj ((splatScale_default c).symm.trans h)

theorem scaleExponent_eq {c : Byte} {n : Nat} (h : c.toNat = n) : scaleExponent c = (n : ℚ) / 16 - 10 := by
  rw [scaleExponent, h]
  rfl

/-- Settles O42: the table read as one list of rising positive patterns. -/
theorem scaleCheckValues : Obligations.ScaleCheckValues := by
  refine ⟨(scaleExponent_eq (n := 160) rfl).trans (by norm_num),
    (scaleExponent_eq (n := 176) rfl).trans (by norm_num), (scaleExponent_eq (n := 144) rfl).trans (by norm_num),
    splatScale_eq rfl, splatScale_eq rfl, splatScale_eq rfl, splatScale_eq rfl, splatScale_eq rfl,
    fun c => ?_, fun c hc => ?_⟩
  · have hpos := List.all_eq_true.mp defaultExp_positive _ (List.mem_of_getElem? (splatScale_default c))
    simpa [f32Positive, and_assoc] using hpos
  · have hnext : (c + 1).toNat = c.toNat + 1 := by
      have hne : c.toNat ≠ 255 := fun h => hc (BitVec.eq_of_toNat_eq h)
      have hlt := c.isLt
      rw [BitVec.toNat_add]
      exact Nat.mod_eq_of_lt (show c.toNat + 1 < 256 by omega)
    obtain ⟨h1, e1⟩ := List.getElem?_eq_some_iff.mp (splatScale_default c)
    obtain ⟨h2, e2⟩ := List.getElem?_eq_some_iff.mp (splatScale_default (c + 1))
    have hrise := List.isChain_iff_getElem.mp defaultExp_rises c.toNat (by rw [← hnext]; exact h2)
    simp only [← hnext] at hrise
    rwa [e1, e2] at hrise

end Sys2Proof.Machine
end

section
/-! binary32 arithmetic (42_covariance_encoder.md R130 to R135). Each operation takes its operands apart
(`Unpacks`), forms a number that is exact or carries a sticky bit, and rounds it once; `f32Round_roundsTo` and
`f32Round_sticky` say what that rounding answers. -/

namespace Sys2Proof.Machine

/-! ## Finite patterns -/

/-- The pattern stands for `m * 2^e` with its sign, where `m` has at most 24 bits, and all 24 above the subnormal
step. -/
structure Unpacks (u : Word) (m : Nat) (e : Int) : Prop where
  unpack : f32Unpack u = .fin u.msb m e
  lt : m < 2 ^ 24
  low : -149 ≤ e
  high : e ≤ 104
  normal : -149 < e → 2 ^ 23 ≤ m

theorem unpacks_of_finite {u : Word} (h : f32Finite u = true) : ∃ m e, Unpacks u m e := by
  have hne : f32Exp u ≠ 255 := by simpa [f32Finite] using h
  have hexp := f32Exp_lt u
  have hfrac := f32Frac_lt u
  by_cases h0 : f32Exp u = 0
  · refine ⟨f32Frac u, -149, ?_, by omega, le_rfl, by decide, fun h => absurd h (lt_irrefl _)⟩
    rw [f32Unpack, if_neg hne, if_pos h0, f32Sign]
  · refine ⟨f32Frac u + 2 ^ 23, (f32Exp u : Int) - 150, ?_, by omega, by omega, by omega, fun _ => by omega⟩
    rw [f32Unpack, if_neg hne, if_neg h0, f32Sign]

/-- The sign as a factor. -/
def signFactor (neg : Bool) : ℝ := if neg then -1 else 1

@[simp] theorem signFactor_false : signFactor false = 1 := rfl

@[simp] theorem signFactor_true : signFactor true = -1 := rfl

theorem signFactor_xor (a b : Bool) : signFactor (a ^^ b) = signFactor a * signFactor b := by
  cases a <;> cases b <;> simp

theorem signFactor_ne_zero (a : Bool) : signFactor a ≠ 0 := by cases a <;> simp

theorem abs_signFactor (a : Bool) : |signFactor a| = 1 := by cases a <;> simp

theorem div_signFactor (a b : Bool) : signFactor a / signFactor b = signFactor (a ^^ b) := by
  cases a <;> cases b <;> simp

/-- An integer is its magnitude with its sign. -/
theorem signFactor_natAbs (k : ℤ) : signFactor (decide (k < 0)) * (k.natAbs : ℕ) = (k : ℝ) := by
  rw [Nat.cast_natAbs]
  rcases lt_or_ge k 0 with hk | hk
  · rw [abs_of_neg hk, decide_eq_true hk]
    simp
  · rw [abs_of_nonneg hk, decide_eq_false hk.not_gt]
    simp

/-- The number of a finite pattern. -/
theorem Unpacks.rat {u : Word} {m : Nat} {e : Int} (h : Unpacks u m e) :
    (f32Rat u : ℝ) = signFactor u.msb * (m * 2 ^ e) := by
  rw [f32Rat, h.unpack]
  cases u.msb <;> simp

theorem Unpacks.rat_eq_zero {u : Word} {m : Nat} {e : Int} (h : Unpacks u m e) : f32Rat u = 0 ↔ m = 0 := by
  rw [← Rat.cast_eq_zero (α := ℝ), h.rat, mul_eq_zero, mul_eq_zero, or_iff_right (signFactor_ne_zero _),
    or_iff_left (by positivity), Nat.cast_eq_zero]

/-- Every finite pattern is below the overflow cut. -/
theorem abs_f32Rat_lt {u : Word} (h : f32Finite u = true) : |(f32Rat u : ℝ)| < 2 ^ 128 - 2 ^ 103 := by
  obtain ⟨m, e, hu⟩ := unpacks_of_finite h
  have hm : (m : ℝ) ≤ 2 ^ 24 - 1 := by
    have := hu.lt
    rw [le_sub_iff_add_le]
    exact_mod_cast this
  rw [hu.rat, abs_mul, abs_signFactor, one_mul, abs_of_nonneg (by positivity)]
  calc (m : ℝ) * 2 ^ e
      ≤ (2 ^ 24 - 1) * 2 ^ (104 : ℤ) :=
        mul_le_mul hm (zpow_le_zpow_right₀ one_le_two hu.high) (by positivity) (by norm_num)
    _ < 2 ^ 128 - 2 ^ 103 := by norm_num

/-! ## Rounding -/

theorem f32Round_signed (neg : Bool) (m : Nat) (e : Int) :
    roundsTo (signFactor neg * (m * 2 ^ e)) (f32Round neg m e) :=
  f32Round_roundsTo neg m e

theorem f32Round_zero (neg : Bool) (e : Int) : f32Round neg 0 e = f32SignBit neg := if_pos rfl

/-- Either zero is what zero rounds to. -/
theorem roundsTo_zero (neg : Bool) : roundsTo 0 (f32SignBit neg) := by
  have h := f32Round_signed neg 0 0
  rwa [f32Round_zero, Nat.cast_zero, zero_mul, mul_zero] at h

/-- A quotient or root kept with its whole part `q` and one sticky bit rounds as the exact number `y` does. -/
theorem f32Round_stickyBit {neg : Bool} {q : Nat} {isExact : Prop} [Decidable isExact] {e : Int} {y : ℝ}
    (hq : 2 ^ 24 ≤ q) (hexact : isExact → y = q) (hbetween : ¬ isExact → (q : ℝ) < y ∧ y < q + 1) :
    roundsTo (signFactor neg * (y * 2 ^ e)) (f32Round neg (2 * q + if isExact then 0 else 1) (e - 1)) := by
  have hhalf : (2 : ℝ) ^ e = 2 * 2 ^ (e - 1) := by
    rw [← zpow_one_add₀ (by norm_num)]
    congr 1
    ring
  have hpos : (0 : ℝ) < 2 ^ (e - 1) := by positivity
  by_cases h : isExact
  · have hround := f32Round_signed neg (2 * q) (e - 1)
    rw [if_pos h, Nat.add_zero, hexact h, hhalf]
    convert hround using 2
    push_cast
    ring
  · obtain ⟨hlo, hhi⟩ := hbetween h
    rw [if_neg h]
    refine f32Round_sticky (by omega) (by omega) ?_ ?_ <;> (push_cast; rw [hhalf]; nlinarith)

/-! ## Addition -/

theorem f32Signed_cast (neg : Bool) (m : Nat) : (f32Signed neg m : ℝ) = signFactor neg * m := by
  cases neg <;> simp [f32Signed]

/-- The two addends over their common exponent. -/
theorem f32AddFin_sum (na nb : Bool) (ma mb : Nat) (ea eb : Int) :
    ((f32Signed na (ma * 2 ^ (ea - min ea eb).toNat) +
        f32Signed nb (mb * 2 ^ (eb - min ea eb).toNat) : ℤ) : ℝ) * 2 ^ min ea eb =
      signFactor na * (ma * 2 ^ ea) + signFactor nb * (mb * 2 ^ eb) := by
  have hshift : ∀ e : ℤ, min ea eb ≤ e →
      (2 : ℝ) ^ (e - min ea eb).toNat * 2 ^ min ea eb = 2 ^ e := fun e he => by
    rw [← zpow_natCast, Int.toNat_of_nonneg (by omega), ← zpow_add₀ (by norm_num), sub_add_cancel]
  rw [← hshift ea (min_le_left _ _), ← hshift eb (min_le_right _ _)]
  push_cast [f32Signed_cast]
  ring

/-- The sum of two finite numbers is rounded once. -/
theorem f32AddFin_roundsTo (na nb : Bool) (ma mb : Nat) (ea eb : Int) :
    roundsTo (signFactor na * (ma * 2 ^ ea) + signFactor nb * (mb * 2 ^ eb))
      (f32AddFin na ma ea nb mb eb) := by
  rw [f32AddFin, ← f32AddFin_sum]
  generalize f32Signed na (ma * 2 ^ (ea - min ea eb).toNat) + f32Signed nb (mb * 2 ^ (eb - min ea eb).toNat) = t
  split
  · next h =>
    rw [h, Int.cast_zero, zero_mul]
    exact roundsTo_zero _
  · rw [← signFactor_natAbs t, mul_assoc]
    exact f32Round_signed _ _ _

/-- An exact zero is -0 only where both addends have the sign. -/
theorem f32AddFin_zero {na nb : Bool} {ma mb : Nat} {ea eb : Int}
    (h : signFactor na * (ma * 2 ^ ea) + signFactor nb * (mb * 2 ^ eb) = 0) :
    f32AddFin na ma ea nb mb eb = f32SignBit (na && nb) := by
  rw [← f32AddFin_sum, mul_eq_zero, or_iff_left (by positivity), Int.cast_eq_zero] at h
  exact if_pos h

theorem fadd_finite {a b : Word} {ma mb : Nat} {ea eb : Int} (ha : Unpacks a ma ea) (hb : Unpacks b mb eb) :
    fadd a b = f32AddFin a.msb ma ea b.msb mb eb := by
  rw [fadd, ha.unpack, hb.unpack]

theorem fadd_roundsTo {a b : Word} (ha : f32Finite a = true) (hb : f32Finite b = true) :
    roundsTo ((f32Rat a : ℝ) + f32Rat b) (fadd a b) ∧
      (f32Rat a + f32Rat b = 0 → fadd a b = f32SignBit (a.msb && b.msb)) := by
  obtain ⟨ma, ea, hua⟩ := unpacks_of_finite ha
  obtain ⟨mb, eb, hub⟩ := unpacks_of_finite hb
  rw [fadd_finite hua hub, hua.rat, hub.rat]
  refine ⟨f32AddFin_roundsTo _ _ _ _ _ _, fun hzero => f32AddFin_zero ?_⟩
  rw [← hua.rat, ← hub.rat]
  exact_mod_cast hzero

/-- A difference is the sum with the second sign changed. -/
theorem fsub_roundsTo {a b : Word} (ha : f32Finite a = true) (hb : f32Finite b = true) :
    roundsTo ((f32Rat a : ℝ) - f32Rat b) (fsub a b) ∧
      (f32Rat a - f32Rat b = 0 → fsub a b = f32SignBit (a.msb && !b.msb)) := by
  obtain ⟨-, -, hsign⟩ := f32Neg_fields b
  have hadd := fadd_roundsTo ha (b := f32Neg b) ((f32Neg_finite b).trans hb)
  rw [f32Rat_neg hb, hsign, Rat.cast_neg, ← sub_eq_add_neg, ← sub_eq_add_neg] at hadd
  exact hadd

/-- Settles O55. -/
theorem additionIsCorrectlyRounded : Obligations.AdditionIsCorrectlyRounded := by
  intro a b ha hb
  obtain ⟨hadd, hadd0⟩ := fadd_roundsTo ha hb
  obtain ⟨hsub, hsub0⟩ := fsub_roundsTo ha hb
  exact ⟨hadd, hsub, hadd0, hsub0⟩

/-! ## Multiplication -/

theorem fmul_finite {a b : Word} {ma mb : Nat} {ea eb : Int} (ha : Unpacks a ma ea) (hb : Unpacks b mb eb) :
    fmul a b = f32Round (a.msb ^^ b.msb) (ma * mb) (ea + eb) := by
  rw [fmul, ha.unpack, hb.unpack]

/-- Settles O56: the product of the significands, at the sum of the exponents, is exact. -/
theorem multiplicationIsCorrectlyRounded : Obligations.MultiplicationIsCorrectlyRounded := by
  intro a b ha hb
  obtain ⟨ma, ea, hua⟩ := unpacks_of_finite ha
  obtain ⟨mb, eb, hub⟩ := unpacks_of_finite hb
  rw [fmul_finite hua hub]
  refine ⟨?_, fun hzero => ?_⟩
  · have hprod : (f32Rat a : ℝ) * f32Rat b =
        signFactor (a.msb ^^ b.msb) * ((ma * mb : ℕ) * 2 ^ (ea + eb)) := by
      rw [hua.rat, hub.rat, signFactor_xor, zpow_add₀ (by norm_num), Nat.cast_mul]
      ring
    rw [hprod]
    exact f32Round_signed _ _ _
  · have hm : ma * mb = 0 := by
      rwa [mul_eq_zero, hua.rat_eq_zero, hub.rat_eq_zero, ← mul_eq_zero] at hzero
    rw [hm]
    exact f32Round_zero _ _

/-! ## Division -/

theorem fdiv_finite {a b : Word} {ma mb : Nat} {ea eb : Int} (ha : Unpacks a ma ea) (hb : Unpacks b mb eb)
    (hmb : mb ≠ 0) : fdiv a b = f32DivFin (a.msb ^^ b.msb) ma ea mb eb := by
  rw [fdiv, ha.unpack, hb.unpack]
  exact if_neg hmb

theorem f32DivFin_zero (neg : Bool) (ea : Int) (mb : Nat) (eb : Int) :
    f32DivFin neg 0 ea mb eb = f32SignBit neg := by
  rw [f32DivFin, stickyDiv, Nat.zero_mul, Nat.zero_div, Nat.zero_mod, if_pos rfl]
  exact f32Round_zero _ _

/-- 64 further bits of quotient and the sticky bit are enough. -/
theorem f32DivFin_roundsTo (neg : Bool) {ma mb : Nat} (ea eb : Int) (hma : ma ≠ 0) (hmb : mb ≠ 0)
    (hlt : mb < 2 ^ 24) :
    roundsTo (signFactor neg * (ma * 2 ^ ea / (mb * 2 ^ eb))) (f32DivFin neg ma ea mb eb) := by
  have hb : (0 : ℝ) < mb := by exact_mod_cast Nat.pos_of_ne_zero hmb
  have hq : 2 ^ 24 ≤ ma * 2 ^ 64 / mb := by
    rw [Nat.le_div_iff_mul_le (Nat.pos_of_ne_zero hmb)]
    have : 1 ≤ ma := Nat.one_le_iff_ne_zero.mpr hma
    omega
  have hdiv : ((ma * 2 ^ 64 / mb : ℕ) : ℝ) * mb + ((ma * 2 ^ 64 % mb : ℕ) : ℝ) = ma * 2 ^ 64 := by
    exact_mod_cast Nat.div_add_mod' (ma * 2 ^ 64) mb
  have hround := f32Round_stickyBit (neg := neg) (isExact := ma * 2 ^ 64 % mb = 0) (e := ea - eb - 64)
    (y := ma * 2 ^ 64 / mb) hq (fun h => ?_) (fun h => ?_)
  · rw [f32DivFin, stickyDiv]
    convert hround using 2
    · rw [zpow_sub₀ (by norm_num), zpow_sub₀ (by norm_num), show (2 : ℝ) ^ (64 : ℤ) = 2 ^ 64 by norm_num]
      field_simp
    · ring
  · rw [h, Nat.cast_zero, add_zero] at hdiv
    rw [← hdiv, mul_div_cancel_right₀ _ hb.ne']
  · have hpos : (0 : ℝ) < ((ma * 2 ^ 64 % mb : ℕ) : ℝ) := by exact_mod_cast Nat.pos_of_ne_zero h
    have hless : ((ma * 2 ^ 64 % mb : ℕ) : ℝ) < mb := by
      exact_mod_cast Nat.mod_lt _ (Nat.pos_of_ne_zero hmb)
    rw [← hdiv, lt_div_iff₀ hb, div_lt_iff₀ hb, add_mul, one_mul]
    exact ⟨lt_add_of_pos_right _ hpos, by gcongr⟩

/-- Settles O57. -/
theorem divisionIsCorrectlyRounded : Obligations.DivisionIsCorrectlyRounded := by
  intro a b ha hb hne
  obtain ⟨ma, ea, hua⟩ := unpacks_of_finite ha
  obtain ⟨mb, eb, hub⟩ := unpacks_of_finite hb
  have hmb : mb ≠ 0 := fun h => hne (hub.rat_eq_zero.mpr h)
  rw [fdiv_finite hua hub hmb]
  refine ⟨?_, fun hzero => ?_⟩
  · rw [hua.rat, hub.rat, mul_div_mul_comm, div_signFactor]
    by_cases hma : ma = 0
    · rw [hma, f32DivFin_zero, Nat.cast_zero, zero_mul, zero_div, mul_zero]
      exact roundsTo_zero _
    · exact f32DivFin_roundsTo _ ea eb hma hmb hub.lt
  · rw [hua.rat_eq_zero.mp hzero]
    exact f32DivFin_zero _ _ _ _

/-! ## Square root -/

/-- Each bit keeps the root between `acc` and `acc + 2^k`. -/
theorem isqrtFrom_spec (a : Nat) : ∀ (k acc : Nat), acc ^ 2 ≤ a → a < (acc + 2 ^ k) ^ 2 →
    isqrtFrom a k acc ^ 2 ≤ a ∧ a < (isqrtFrom a k acc + 1) ^ 2
  | 0, acc, hlo, hhi => ⟨hlo, hhi⟩
  | k + 1, acc, hlo, hhi => by
    have htwo : acc + 2 ^ (k + 1) = acc + 2 ^ k + 2 ^ k := by rw [Nat.pow_succ]; omega
    rw [isqrtFrom]
    split
    · next h => exact isqrtFrom_spec a k _ h (by rwa [← htwo])
    · next h => exact isqrtFrom_spec a k acc hlo (Nat.lt_of_not_le h)

theorem isqrt_eq_sqrt {a : Nat} (h : a < 2 ^ 128) : isqrt a = Nat.sqrt a := by
  obtain ⟨hlo, hhi⟩ := isqrtFrom_spec a 64 0 (Nat.zero_le a) (by rwa [Nat.zero_add, ← Nat.pow_mul])
  rw [Nat.pow_two] at hlo hhi
  exact Nat.eq_sqrt.mpr ⟨hlo, hhi⟩

/-- The whole part of a root and the sticky bit are enough. -/
theorem stickySqrt_roundsTo {a : Nat} (hlow : 2 ^ 48 ≤ a) (hhigh : a < 2 ^ 128) (e : Int) :
    roundsTo (Real.sqrt a * 2 ^ e) (f32Round false (stickySqrt a) (e - 1)) := by
  have hq : 2 ^ 24 ≤ Nat.sqrt a := Nat.le_sqrt'.mpr (by rwa [← Nat.pow_mul])
  rw [← one_mul (Real.sqrt a * _), ← signFactor_false, stickySqrt, isqrt_eq_sqrt hhigh]
  refine f32Round_stickyBit hq (fun h => ?_) (fun h => ?_)
  · rw [← Real.sqrt_sq (Nat.cast_nonneg a.sqrt), ← Nat.cast_pow, h]
  · refine ⟨Real.lt_sqrt_of_sq_lt (by exact_mod_cast lt_of_le_of_ne (Nat.sqrt_le' a) h), ?_⟩
    rw [Real.sqrt_lt' (by positivity)]
    exact_mod_cast Nat.lt_succ_sqrt' a

/-- 32 further bits of root are long enough for that, at an even exponent. -/
theorem shiftedSqrt_roundsTo {n : Nat} (hn : n ≠ 0) (hlt : n < 2 ^ 25) (e : Int) :
    roundsTo (Real.sqrt (n * 2 ^ (2 * e))) (f32Round false (stickySqrt (n * 2 ^ 64)) (e - 33)) := by
  have hround := stickySqrt_roundsTo (a := n * 2 ^ 64) (by omega) (by omega) (e - 32)
  have hvalue : (n : ℝ) * 2 ^ (2 * e) = ((n * 2 ^ 64 : ℕ) : ℝ) * (2 ^ (e - 32)) ^ 2 := by
    rw [Nat.cast_mul, Nat.cast_pow, Nat.cast_ofNat, mul_assoc, ← zpow_natCast (2 : ℝ) 64,
      ← zpow_natCast ((2 : ℝ) ^ (e - 32)) 2, ← zpow_mul, ← zpow_add₀ (by norm_num)]
    congr 2
    push_cast
    ring
  rw [hvalue, Real.sqrt_mul (Nat.cast_nonneg _), Real.sqrt_sq (by positivity)]
  rwa [show e - 32 - 1 = e - 33 by ring] at hround

theorem f32SqrtFin_roundsTo {m : Nat} (hm : m ≠ 0) (hlt : m < 2 ^ 24) (e : Int) :
    roundsTo (Real.sqrt (m * 2 ^ e)) (f32SqrtFin m e) := by
  rw [f32SqrtFin]
  split
  · next heven =>
    have hround := shiftedSqrt_roundsTo hm (by omega) (e / 2)
    rwa [show 2 * (e / 2) = e by omega] at hround
  · next hodd =>
    have hround := shiftedSqrt_roundsTo (n := 2 * m) (by omega) (by omega) ((e - 1) / 2)
    rw [show 2 * ((e - 1) / 2) = e - 1 by omega] at hround
    convert hround using 2
    rw [zpow_sub_one₀ (by norm_num)]
    push_cast
    ring

/-- Settles O58: the exponent is made even, and the root of the significand is kept with a sticky bit. -/
theorem squareRootIsCorrectlyRounded : Obligations.SquareRootIsCorrectlyRounded := by
  refine ⟨fun a ha hnonneg => ?_, by decide⟩
  obtain ⟨m, e, hu⟩ := unpacks_of_finite ha
  rw [fsqrt, hu.unpack]
  by_cases hm : m = 0
  · rw [hu.rat_eq_zero.mpr hm, Rat.cast_zero, Real.sqrt_zero]
    simp only [hm, if_true]
    exact roundsTo_zero _
  · have hpos : (0 : ℝ) < m * 2 ^ e := by
      have : (0 : ℝ) < m := by exact_mod_cast Nat.pos_of_ne_zero hm
      positivity
    have hsign : a.msb = false := by
      by_contra hneg
      have hrat : (0 : ℝ) ≤ f32Rat a := by exact_mod_cast hnonneg
      rw [hu.rat, Bool.of_not_eq_false hneg, signFactor_true] at hrat
      linarith
    rw [hu.rat, hsign, signFactor_false, one_mul]
    simp only [hm, if_false, Bool.false_eq_true]
    exact f32SqrtFin_roundsTo hm hu.lt e

/-! ## Exact results -/

/-- What has at most 24 bits at an exponent in range keeps them all. -/
theorem f32Significand_exact {m : Nat} {e : Int} (h0 : m ≠ 0) (hm : m < 2 ^ 24) (hlow : -149 ≤ e) :
    ∃ d k : Nat, f32Quantum m e = (k : Int) - 149 ∧ e = f32Quantum m e + d ∧
      f32Significand m e = m * 2 ^ d ∧ m * 2 ^ d < 2 ^ 24 := by
  obtain ⟨k, hk, -⟩ := f32Quantum_nat m e
  have hlog : Nat.log2 m < 24 := (Nat.log2_lt h0).mpr hm
  have hle : f32Quantum m e ≤ e := max_le (by omega) hlow
  have hge : (Nat.log2 m : Int) + e - 23 ≤ f32Quantum m e := le_max_left _ _
  refine ⟨(e - f32Quantum m e).toNat, k, hk, by omega, if_pos hle, ?_⟩
  calc m * 2 ^ (e - f32Quantum m e).toNat
      < 2 ^ (Nat.log2 m + 1) * 2 ^ (e - f32Quantum m e).toNat :=
        Nat.mul_lt_mul_of_pos_right Nat.lt_log2_self (Nat.two_pow_pos _)
    _ = 2 ^ (Nat.log2 m + 1 + (e - f32Quantum m e).toNat) := (Nat.pow_add 2 _ _).symm
    _ ≤ 2 ^ 24 := Nat.pow_le_pow_right (by decide) (by omega)

/-- Such a number is not rounded. -/
theorem f32Round_exact_pos {m : Nat} {e : Int} (h0 : m ≠ 0) (hm : m < 2 ^ 24) (hlow : -149 ≤ e)
    (hhigh : e ≤ 104) :
    f32Finite (f32Round false m e) = true ∧ (f32Rat (f32Round false m e) : ℝ) = m * 2 ^ e := by
  obtain ⟨d, k, hk, he, hs, hlt⟩ := f32Significand_exact h0 hm hlow
  have hnear := f32Significand_near e h0
  have hn := F32Near_normal hnear
  rw [f32Round_eq e h0]
  rw [hs] at hn ⊢
  rw [hk, show ((k : Int) - 149 + 149).toNat = k by omega] at hn ⊢
  have hp : k * 2 ^ 23 + m * 2 ^ d < 255 * 2 ^ 23 := by omega
  have hfin : f32Finite (BitVec.ofNat 32 (k * 2 ^ 23 + m * 2 ^ d)) = true := by
    obtain ⟨hexp, -, -⟩ := f32_ofNat (p := k * 2 ^ 23 + m * 2 ^ d) (by omega)
    rw [f32Finite, hexp]
    exact bne_iff_ne.mpr (by omega)
  obtain ⟨-, -, hsign⟩ := f32_ofNat (p := k * 2 ^ 23 + m * 2 ^ d) (by omega)
  rw [if_neg hp.not_ge]
  refine ⟨hfin, ?_⟩
  have hpow : (2 : ℝ) ^ e = 2 ^ d * 2 ^ k * 2 ^ (-149 : ℤ) := by
    rw [← zpow_natCast, ← zpow_natCast, ← zpow_add₀ (by norm_num), ← zpow_add₀ (by norm_num), he, hk]
    congr 1
    ring
  rw [f32Rat_finite hfin, f32Magnitude_ofNat (by omega), f32Ulps_significand hlt.le hn, hsign, hpow]
  push_cast
  ring

theorem f32Round_exact (neg : Bool) {m : Nat} {e : Int} (hm : m < 2 ^ 24) (hlow : -149 ≤ e) (hhigh : e ≤ 104) :
    f32Finite (f32Round neg m e) = true ∧ (f32Rat (f32Round neg m e) : ℝ) = signFactor neg * (m * 2 ^ e) := by
  by_cases h0 : m = 0
  · have hzero : ∀ b, f32Finite (f32SignBit b) = true ∧ f32Exp (f32SignBit b) = 0 ∧
        f32Frac (f32SignBit b) = 0 := by decide
    obtain ⟨hfin, hexp, hfrac⟩ := hzero neg
    rw [h0, f32Round_zero, f32Rat_finite hfin, f32Magnitude, hexp, hfrac]
    exact ⟨hfin, by simp [f32Ulps]⟩
  · obtain ⟨hfin, hrat⟩ := f32Round_exact_pos h0 hm hlow hhigh
    cases neg with
    | false => exact ⟨hfin, by rw [hrat, signFactor_false, one_mul]⟩
    | true =>
      rw [f32Round_true, f32Neg_finite, f32Rat_neg hfin, Rat.cast_neg, hrat, signFactor_true, neg_one_mul]
      exact ⟨hfin, rfl⟩

/-- The result of an operation whose exact result is a binary32 number is that number. -/
theorem roundsTo_exact {x : ℝ} {r y : Word} (h : roundsTo x r) (hy : f32Finite y = true)
    (hx : x = f32Rat y) : f32Finite r = true ∧ (f32Rat r : ℝ) = x := by
  obtain ⟨-, -, ⟨hbig, -⟩ | ⟨-, hfin, hbest⟩⟩ := h
  · rw [hx] at hbig
    exact absurd (abs_f32Rat_lt hy) hbig.not_gt
  · obtain ⟨hnear, -⟩ := hbest y hy
    rw [← hx, sub_self, abs_zero, abs_nonpos_iff, sub_eq_zero] at hnear
    exact ⟨hfin, hnear⟩

/-- In particular an integer of at most 24 bits at an exponent in range. -/
theorem roundsTo_scaled {k e : ℤ} {r : Word} (h : roundsTo (k * 2 ^ e) r) (hk : k.natAbs < 2 ^ 24)
    (hlow : -149 ≤ e) (hhigh : e ≤ 104) : f32Finite r = true ∧ (f32Rat r : ℝ) = k * 2 ^ e := by
  obtain ⟨hfin, hrat⟩ := f32Round_exact (decide (k < 0)) hk hlow hhigh
  refine roundsTo_exact h hfin ?_
  rw [hrat, ← mul_assoc, signFactor_natAbs]

theorem i2f_exact {k : ℤ} (hk : k.natAbs < 2 ^ 24) :
    f32Finite (i2f k) = true ∧ (f32Rat (i2f k) : ℝ) = k := by
  obtain ⟨hfin, hrat⟩ := f32Round_exact (decide (k < 0)) (e := 0) hk (by decide) (by decide)
  rw [zpow_zero, mul_one, signFactor_natAbs] at hrat
  exact ⟨hfin, hrat⟩

/-- The number of a constant, from its parts. -/
theorem f32Rat_of_unpack {u : Word} {neg : Bool} {m : Nat} {e : ℤ} (h : f32Unpack u = .fin neg m e) :
    (f32Rat u : ℝ) = signFactor neg * (m * 2 ^ e) := by
  rw [f32Rat, h]
  cases neg <;> simp

/-! ## The gain -/

theorem f32Rat_covGain : (f32Rat 0x40800000 : ℝ) = 4 := by
  rw [f32Rat_of_unpack (neg := false) (m := 2 ^ 23) (e := -21) (by decide)]
  norm_num

/-- Settles O60: four times a number has its bits, two places up, where there is still a place. -/
theorem gainIsExact : Obligations.GainIsExact := by
  intro v hv hlt
  obtain ⟨hround, -⟩ := multiplicationIsCorrectlyRounded 0x40800000 v (by decide) hv
  obtain ⟨m, e, hu⟩ := unpacks_of_finite hv
  have hfour : (f32Rat 0x40800000 : ℝ) * f32Rat v = (f32Signed v.msb m : ℤ) * 2 ^ (e + 2) := by
    rw [f32Rat_covGain, hu.rat, f32Signed_cast, zpow_add₀ (by norm_num)]
    norm_num
    ring
  have hhigh : e + 2 ≤ 104 := by
    by_contra hover
    have hm : (2 : ℝ) ^ 23 ≤ m := by exact_mod_cast hu.normal (by omega)
    have habs : |(4 * f32Rat v : ℝ)| = m * 2 ^ (e + 2) := by
      rw [← f32Rat_covGain, hfour, f32Signed_cast, abs_mul, abs_mul, abs_signFactor, one_mul,
        abs_of_nonneg (by positivity), abs_of_nonneg (by positivity)]
    have hltR : |(4 * f32Rat v : ℝ)| < 2 ^ 128 := by exact_mod_cast hlt
    have hge : (2 : ℝ) ^ 23 * 2 ^ (105 : ℤ) ≤ m * 2 ^ (e + 2) :=
      mul_le_mul hm (zpow_le_zpow_right₀ one_le_two (by omega)) (by positivity) (by positivity)
    rw [habs] at hltR
    norm_num at hge hltR
    linarith
  have hbits : (f32Signed v.msb m).natAbs < 2 ^ 24 := by
    have := hu.lt
    rw [f32Signed]
    split <;> omega
  rw [hfour] at hround
  obtain ⟨hfin, hrat⟩ := roundsTo_scaled hround hbits (by have := hu.low; omega) hhigh
  rw [← hfour, f32Rat_covGain] at hrat
  exact ⟨hfin, by exact_mod_cast hrat⟩

/-! ## The dequantizers -/

/-- A quotient by a power of two of an integer of at most 24 bits is exact. -/
theorem fdiv_pow_two_exact {a b : Word} {k : ℤ} {j : Nat} (ha : f32Finite a = true) (hb : f32Finite b = true)
    (hak : (f32Rat a : ℝ) = k) (hbj : (f32Rat b : ℝ) = 2 ^ j) (hk : k.natAbs < 2 ^ 24) (hj : j ≤ 149) :
    f32Finite (fdiv a b) = true ∧ (f32Rat (fdiv a b) : ℝ) = k / 2 ^ j := by
  have hne : f32Rat b ≠ 0 := by
    rw [← Rat.cast_ne_zero (α := ℝ), hbj]
    positivity
  obtain ⟨hround, -⟩ := divisionIsCorrectlyRounded a b ha hb hne
  have hscaled : (k : ℝ) / 2 ^ j = k * 2 ^ (-(j : ℤ)) := by rw [zpow_neg, zpow_natCast, div_eq_mul_inv]
  rw [hak, hbj, hscaled] at hround
  rw [hscaled]
  exact roundsTo_scaled hround hk (by omega) (by omega)

theorem f32Rat_qBias : (f32Rat 0x43000000 : ℝ) = 2 ^ 7 := by
  rw [f32Rat_of_unpack (neg := false) (m := 2 ^ 23) (e := -16) (by decide)]
  norm_num

theorem f32Rat_posDiv : (f32Rat 0x45800000 : ℝ) = 2 ^ 12 := by
  rw [f32Rat_of_unpack (neg := false) (m := 2 ^ 23) (e := -11) (by decide)]
  norm_num

/-- Settles O40: the integer, the difference and the quotient are exact. -/
theorem quaternionByteIsExact : Obligations.QuaternionByteIsExact := by
  intro b
  have hb := b.isLt
  obtain ⟨hfin, hrat⟩ := i2f_exact (k := b.toNat) (by omega)
  obtain ⟨hsub, -⟩ := fsub_roundsTo hfin (b := 0x43000000) (by decide)
  have hdiff : (f32Rat (i2f b.toNat) : ℝ) - f32Rat 0x43000000 =
      ((b.toNat - 128 : ℤ) : ℝ) * 2 ^ (0 : ℤ) := by
    rw [hrat, f32Rat_qBias]
    push_cast
    norm_num
  rw [hdiff] at hsub
  obtain ⟨hsfin, hsrat⟩ := roundsTo_scaled hsub (by omega) (by decide) (by decide)
  rw [zpow_zero, mul_one] at hsrat
  obtain ⟨hqfin, hqrat⟩ := fdiv_pow_two_exact hsfin (b := 0x43000000) (by decide) hsrat f32Rat_qBias (by omega)
    (by decide)
  refine ⟨hqfin, ?_⟩
  have hvalue : (f32Rat (quatComponent b) : ℝ) = (((b.toNat : ℚ) - 128) / 128 : ℚ) := by
    refine hqrat.trans ?_
    push_cast
    norm_num
  exact_mod_cast hvalue

/-- The mask is the sign extension (R183). -/
theorem sext24_eq_signExtend (u : BitVec 24) : sext24 u = u.signExtend 32 := by
  refine BitVec.eq_of_getLsbD_eq fun i hi => ?_
  have hmask : constants.sextMask.getLsbD i = decide (24 ≤ i) := by
    interval_cases i <;> decide
  rw [sext24, BitVec.getLsbD_signExtend, decide_eq_true hi, Bool.true_and]
  by_cases h24 : i < 24
  · rw [if_pos h24]
    split
    · rw [BitVec.getLsbD_or, BitVec.getLsbD_setWidth, hmask, decide_eq_true hi, Bool.true_and,
        decide_eq_false (by omega), Bool.or_false]
    · rw [BitVec.getLsbD_setWidth, decide_eq_true hi, Bool.true_and]
  · rw [if_neg h24]
    split
    · next h => rw [BitVec.getLsbD_or, hmask, h, decide_eq_true (by omega), Bool.or_true]
    · next h => rw [BitVec.getLsbD_setWidth, BitVec.getLsbD_of_ge u i (by omega), Bool.and_false,
        Bool.of_not_eq_true h]

/-- Settles O39: the integer and the quotient are exact. -/
theorem splatPositionIsExact : Obligations.SplatPositionIsExact := by
  intro u
  have hlo := BitVec.le_toInt u
  have hhi := BitVec.toInt_lt (x := u)
  have hk : u.toInt.natAbs < 2 ^ 24 := by omega
  have hsext : (sext24 u).toInt = u.toInt := by
    rw [sext24_eq_signExtend, BitVec.toInt_signExtend_of_le (by decide)]
  obtain ⟨hfin, hrat⟩ := i2f_exact hk
  obtain ⟨hqfin, hqrat⟩ := fdiv_pow_two_exact hfin (b := 0x45800000) (by decide) hrat f32Rat_posDiv hk
    (by decide)
  rw [splatPosition, hsext]
  refine ⟨hqfin, ?_, fun h => by subst h; decide⟩
  have hvalue : (f32Rat (fdiv (i2f u.toInt) constants.posDiv) : ℝ) = ((u.toInt : ℚ) / 4096 : ℚ) := by
    refine hqrat.trans ?_
    push_cast
    norm_num
  exact_mod_cast hvalue

end Sys2Proof.Machine
end

section
/-! What the operations give for NaNs, infinities and zeros (42_covariance_encoder.md R131, R135). Each operation
is a match on what its operands stand for, so every clause takes the operands apart and reads off a branch. -/

namespace Sys2Proof.Machine

/-! ## What a pattern stands for -/

theorem f32Unpack_of_nan {u : Word} (h : f32IsNaN u = true) : f32Unpack u = .nan := by
  simp only [f32IsNaN, Bool.and_eq_true, beq_iff_eq, bne_iff_ne] at h
  obtain ⟨hexp, hfrac⟩ := h
  rw [f32Unpack, if_pos hexp, if_neg hfrac]

theorem f32IsNaN_f32NaN : f32IsNaN f32NaN = true := by decide

theorem f32Unpack_inf (neg : Bool) : f32Unpack (f32Inf neg) = .inf neg := by cases neg <;> decide

/-- A pattern that is no NaN stands for an infinity or is finite. -/
theorem f32Unpack_of_not_nan {u : Word} (h : f32IsNaN u = false) :
    f32Unpack u = .inf u.msb ∨ ∃ m e, Unpacks u m e := by
  by_cases hexp : f32Exp u = 255
  · have hfrac : f32Frac u = 0 := by
      simpa [f32IsNaN, hexp] using h
    exact .inl (by rw [f32Unpack, if_pos hexp, if_pos hfrac, f32Sign])
  · exact .inr (unpacks_of_finite (bne_iff_ne.mpr hexp))

/-- The two zeros. -/
theorem f32Unpack_zero {z : Word} (h : z = 0 ∨ z = 0x80000000) : f32Unpack z = .fin z.msb 0 (-149) := by
  rcases h with rfl | rfl <;> decide

/-- Nothing else stands for zero. -/
theorem Unpacks.ne_zero {u : Word} {m : Nat} {e : Int} (h : Unpacks u m e) (h0 : u ≠ 0)
    (h1 : u ≠ 0x80000000) : m ≠ 0 := by
  rintro rfl
  have hunpack := h.unpack
  have hexp : f32Exp u = u.toNat / 2 ^ 23 % 2 ^ 8 := by
    rw [f32Exp, BitVec.extractLsb'_toNat, Nat.shiftRight_eq_div_pow]
  have hfrac : f32Frac u = u.toNat % 2 ^ 23 := by
    rw [f32Frac, BitVec.extractLsb'_toNat, Nat.shiftRight_zero]
  have hlt := u.isLt
  have hne : u.toNat ≠ 0 := fun h => h0 (BitVec.eq_of_toNat_eq h)
  have hne' : u.toNat ≠ 0x80000000 := fun h => h1 (BitVec.eq_of_toNat_eq h)
  rw [f32Unpack] at hunpack
  split at hunpack
  · split at hunpack <;> cases hunpack
  · split at hunpack
    · injection hunpack
      omega
    · injection hunpack
      omega

/-! ## NaN operands -/

theorem fadd_nan {a b : Word} (h : f32Unpack a = .nan ∨ f32Unpack b = .nan) : fadd a b = f32NaN := by
  rcases h with h | h
  · rw [fadd, h]
  · rw [fadd, h]
    cases f32Unpack a <;> rfl

theorem fmul_nan {a b : Word} (h : f32Unpack a = .nan ∨ f32Unpack b = .nan) : fmul a b = f32NaN := by
  rcases h with h | h
  · rw [fmul, h]
  · rw [fmul, h]
    cases f32Unpack a <;> rfl

theorem fdiv_nan {a b : Word} (h : f32Unpack a = .nan ∨ f32Unpack b = .nan) : fdiv a b = f32NaN := by
  rcases h with h | h
  · rw [fdiv, h]
  · rw [fdiv, h]
    cases f32Unpack a <;> rfl

theorem fsqrt_nan {a : Word} (h : f32Unpack a = .nan) : fsqrt a = f32NaN := by rw [fsqrt, h]

theorem f32IsNaN_neg (u : Word) : f32IsNaN (f32Neg u) = f32IsNaN u := by
  obtain ⟨hexp, hfrac, -⟩ := f32Neg_fields u
  rw [f32IsNaN, hexp, hfrac, f32IsNaN]

/-- A NaN operand gives a NaN. -/
theorem operations_nan {a b : Word} (h : f32IsNaN a = true ∨ f32IsNaN b = true) :
    fadd a b = f32NaN ∧ fsub a b = f32NaN ∧ fmul a b = f32NaN ∧ fdiv a b = f32NaN := by
  have hunpack := h.imp f32Unpack_of_nan f32Unpack_of_nan
  have hneg := h.imp f32Unpack_of_nan fun hb => f32Unpack_of_nan ((f32IsNaN_neg b).trans hb)
  exact ⟨fadd_nan hunpack, fadd_nan hneg, fmul_nan hunpack, fdiv_nan hunpack⟩

/-! ## Zeros -/

/-- Whatever is not zero, over a zero, is an infinity. -/
theorem fdiv_by_zero {a z : Word} (ha : f32IsNaN a = false) (h0 : a ≠ 0) (h1 : a ≠ 0x80000000)
    (hz : z = 0 ∨ z = 0x80000000) : fdiv a z = f32Inf (a.msb ^^ z.msb) := by
  rw [fdiv, f32Unpack_zero hz]
  rcases f32Unpack_of_not_nan ha with hinf | ⟨m, e, hu⟩
  · rw [hinf]
  · rw [hu.unpack]
    simp only [if_true, if_neg (hu.ne_zero h0 h1)]

theorem fdiv_zero_by_zero {a z : Word} (ha : a = 0 ∨ a = 0x80000000) (hz : z = 0 ∨ z = 0x80000000) :
    fdiv a z = f32NaN := by
  rw [fdiv, f32Unpack_zero ha, f32Unpack_zero hz]
  rfl

/-- A negative number has no root. -/
theorem fsqrt_negative {a : Word} (ha : f32IsNaN a = false) (hneg : a.msb = true) (h1 : a ≠ 0x80000000) :
    fsqrt a = f32NaN := by
  have h0 : a ≠ 0 := fun h => by rw [h] at hneg; exact absurd hneg (by decide)
  rw [fsqrt]
  rcases f32Unpack_of_not_nan ha with hinf | ⟨m, e, hu⟩
  · rw [hinf, hneg]
    rfl
  · rw [hu.unpack, hneg]
    simp only [if_true, if_neg (hu.ne_zero h0 h1)]

/-! ## Infinities -/

theorem f32Neg_inf (neg : Bool) : f32Neg (f32Inf neg) = f32Inf !neg := by cases neg <;> decide

theorem fadd_inf_finite (neg : Bool) {a : Word} (ha : f32Finite a = true) :
    fadd (f32Inf neg) a = f32Inf neg ∧ fadd a (f32Inf neg) = f32Inf neg := by
  obtain ⟨m, e, hu⟩ := unpacks_of_finite ha
  constructor <;> rw [fadd, hu.unpack, f32Unpack_inf]

theorem fsub_inf_finite (neg : Bool) {a : Word} (ha : f32Finite a = true) :
    fsub (f32Inf neg) a = f32Inf neg ∧ fsub a (f32Inf neg) = f32Inf !neg := by
  obtain ⟨hleft, -⟩ := fadd_inf_finite neg (a := f32Neg a) ((f32Neg_finite a).trans ha)
  obtain ⟨-, hright⟩ := fadd_inf_finite (!neg) ha
  exact ⟨hleft, by rw [fsub, f32Neg_inf, hright]⟩

/-- An infinity times what is not zero is an infinity. -/
theorem fmul_inf {neg : Bool} {a : Word} (ha : f32IsNaN a = false) (h0 : a ≠ 0) (h1 : a ≠ 0x80000000) :
    fmul (f32Inf neg) a = f32Inf (neg ^^ a.msb) ∧ fmul a (f32Inf neg) = f32Inf (a.msb ^^ neg) := by
  rw [fmul, fmul, f32Unpack_inf]
  rcases f32Unpack_of_not_nan ha with hinf | ⟨m, e, hu⟩
  · rw [hinf]
    exact ⟨rfl, rfl⟩
  · rw [hu.unpack]
    simp only [if_neg (hu.ne_zero h0 h1), and_self]

theorem fdiv_inf {neg : Bool} {a : Word} (ha : f32Finite a = true) :
    fdiv (f32Inf neg) a = f32Inf (neg ^^ a.msb) ∧ fdiv a (f32Inf neg) = f32SignBit (a.msb ^^ neg) := by
  obtain ⟨m, e, hu⟩ := unpacks_of_finite ha
  constructor <;> rw [fdiv, hu.unpack, f32Unpack_inf]

/-- The clauses between infinities and zeros, by evaluation. -/
theorem special_constants (n n' : Bool) : f32IsNaN (fdiv (f32Inf n) (f32Inf n')) = true ∧
    f32IsNaN (fsub (f32Inf n) (f32Inf n)) = true ∧ f32IsNaN (fadd (f32Inf n) (f32Inf !n)) = true ∧
    f32IsNaN (fmul (f32SignBit n) (f32Inf n')) = true ∧ f32IsNaN (fmul (f32Inf n) (f32SignBit n')) = true := by
  revert n n'
  decide

/-- Settles O59. -/
theorem specialOperands : Obligations.SpecialOperands := by
  refine ⟨fun a b h => ?_, fun a h => ?_, fun a z => fdiv_by_zero, fun a z ha hz => ?_, special_constants,
    fun a ha hneg h1 => ?_, by decide, by decide, by decide, by decide, fun n a ha => ?_, fun n a => fmul_inf,
    fun n a => fdiv_inf⟩
  · obtain ⟨hadd, hsub, hmul, hdiv⟩ := operations_nan h
    rw [hadd, hsub, hmul, hdiv]
    exact ⟨f32IsNaN_f32NaN, f32IsNaN_f32NaN, f32IsNaN_f32NaN, f32IsNaN_f32NaN⟩
  · rw [fsqrt_nan (f32Unpack_of_nan h)]
    exact f32IsNaN_f32NaN
  · rw [fdiv_zero_by_zero ha hz]
    exact f32IsNaN_f32NaN
  · rw [fsqrt_negative ha hneg h1]
    exact f32IsNaN_f32NaN
  · obtain ⟨hadd, hadd'⟩ := fadd_inf_finite n ha
    obtain ⟨hsub, hsub'⟩ := fsub_inf_finite n ha
    exact ⟨hadd, hadd', hsub, hsub'⟩

end Sys2Proof.Machine
end

section
/-! The covariance encoder's corner cases (42_covariance_encoder.md R135, R145, R150, R151). A square has a clear
sign bit and a sum of such numbers keeps it; a scale's sign cancels in every product of one row; and a zero norm
makes every entry a NaN. -/

namespace Sys2Proof.Machine

/-! ## Sign bits -/

theorem f32Round_neg (neg : Bool) (m : Nat) (e : Int) : f32Round (!neg) m e = f32Neg (f32Round neg m e) := by
  cases neg with
  | false => exact f32Round_true m e
  | true => rw [f32Round_true, f32Neg_neg, Bool.not_true]

theorem f32Round_msb_false (m : Nat) (e : Int) : (f32Round false m e).msb = false := by
  by_cases hm : m = 0
  · rw [hm, f32Round_zero]
    decide
  · rw [f32Round_eq e hm]
    split
    · decide
    · obtain ⟨-, -, hsign⟩ := f32_ofNat
        (p := (f32Quantum m e + 149).toNat * 2 ^ 23 + f32Significand m e) (by omega)
      exact hsign

/-- A square has a clear sign bit. -/
theorem fmul_self_msb (a : Word) : (fmul a a).msb = false := by
  rw [fmul]
  cases f32Unpack a with
  | nan => decide
  | inf neg =>
    simp only [Bool.xor_self]
    decide
  | fin neg m e =>
    simp only [Bool.xor_self]
    exact f32Round_msb_false _ _

theorem f32AddFin_msb_false (ma mb : Nat) (ea eb : Int) : (f32AddFin false ma ea false mb eb).msb = false := by
  have hsum : ¬ f32Signed false (ma * 2 ^ (ea - min ea eb).toNat) +
      f32Signed false (mb * 2 ^ (eb - min ea eb).toNat) < 0 :=
    not_lt.mpr (Int.add_nonneg (Int.natCast_nonneg _) (Int.natCast_nonneg _))
  rw [f32AddFin]
  simp only [decide_eq_false hsum]
  split
  · decide
  · exact f32Round_msb_false _ _

/-- The sum of two patterns with clear sign bits has one. -/
theorem fadd_msb_false {a b : Word} (ha : a.msb = false) (hb : b.msb = false) : (fadd a b).msb = false := by
  by_cases hnan : f32IsNaN a = true ∨ f32IsNaN b = true
  · rw [fadd_nan (hnan.imp f32Unpack_of_nan f32Unpack_of_nan)]
    decide
  · rw [not_or, Bool.not_eq_true, Bool.not_eq_true] at hnan
    obtain ⟨hna, hnb⟩ := hnan
    have hinf : (f32Inf false).msb = false := by decide
    rw [fadd]
    rcases f32Unpack_of_not_nan hna with hia | ⟨ma, ea, hua⟩ <;>
      rcases f32Unpack_of_not_nan hnb with hib | ⟨mb, eb, hub⟩
    · rw [hia, hib, ha, hb]
      exact hinf
    · rw [hia, hub.unpack, ha]
      exact hinf
    · rw [hua.unpack, hib, hb]
      exact hinf
    · rw [hua.unpack, hub.unpack, ha, hb]
      exact f32AddFin_msb_false _ _ _ _

/-- A column's product with itself has a clear sign bit. -/
theorem dot3_self_msb (x y z : Word) : (dot3 x x y y z z).msb = false :=
  fadd_msb_false (fadd_msb_false (fmul_self_msb x) (fmul_self_msb y)) (fmul_self_msb z)

/-- Settles O52: the diagonal entries are sums of squares. -/
theorem covarianceDiagonalIsNotNegative : Obligations.CovarianceDiagonalIsNotNegative := by
  intro r e he
  right
  simp only [List.mem_cons, List.not_mem_nil, or_false] at he
  rcases he with rfl | rfl | rfl <;> exact dot3_self_msb _ _ _

/-! ## The sign of a scale -/

/-- What the pattern with its sign bit changed stands for. -/
def F32.neg : F32 → F32
  | .nan => .nan
  | .inf n => .inf !n
  | .fin n m e => .fin (!n) m e

theorem f32Unpack_neg (u : Word) : f32Unpack (f32Neg u) = (f32Unpack u).neg := by
  obtain ⟨hexp, hfrac, hsign⟩ := f32Neg_fields u
  rw [f32Unpack, f32Unpack, hexp, hfrac, f32Sign, hsign, f32Sign]
  split
  · split <;> rfl
  · split <;> rfl

/-- The same number with its sign changed, or the computed NaN on both sides. -/
def Flipped (x x' : Word) : Prop := x' = f32Neg x ∨ x = f32NaN ∧ x' = f32NaN

/-- A product changes its sign with a factor. -/
theorem fmul_flipped (a b : Word) : Flipped (fmul a b) (fmul a (f32Neg b)) := by
  have hinf : ∀ n n' : Bool, f32Inf (n ^^ !n') = f32Neg (f32Inf (n ^^ n')) := by decide
  rw [fmul, fmul, f32Unpack_neg]
  cases f32Unpack a with
  | nan => exact .inr ⟨rfl, rfl⟩
  | inf n =>
    cases f32Unpack b with
    | nan => exact .inr ⟨rfl, rfl⟩
    | inf n' => exact .inl (hinf n n')
    | fin n' m e =>
      simp only [F32.neg]
      split
      · exact .inr ⟨rfl, rfl⟩
      · exact .inl (hinf n n')
  | fin n m e =>
    cases f32Unpack b with
    | nan => exact .inr ⟨rfl, rfl⟩
    | inf n' =>
      simp only [F32.neg]
      split
      · exact .inr ⟨rfl, rfl⟩
      · exact .inl (hinf n n')
    | fin n' m' e' =>
      simp only [F32.neg, Bool.xor_not]
      exact .inl (f32Round_neg _ _ _)

theorem fmul_neg_neg (x y : Word) : fmul (f32Neg x) (f32Neg y) = fmul x y := by
  rw [fmul, fmul, f32Unpack_neg, f32Unpack_neg]
  cases f32Unpack x <;> cases f32Unpack y <;> simp [F32.neg]

/-- In the product of two such factors the sign cancels. -/
theorem fmul_of_flipped {x x' y y' : Word} (hx : Flipped x x') (hy : Flipped y y') : fmul x' y' = fmul x y := by
  have hnan := f32Unpack_of_nan f32IsNaN_f32NaN
  rcases hx with rfl | ⟨rfl, rfl⟩
  · rcases hy with rfl | ⟨rfl, rfl⟩
    · exact fmul_neg_neg x y
    · rw [fmul_nan (.inr hnan), fmul_nan (.inr hnan)]
  · rw [fmul_nan (.inl hnan), fmul_nan (.inl hnan)]

/-- Two rows whose entries have the same products. -/
def SameProducts (row row' : Fin 3 → Word) : Prop := ∀ i j, fmul (row' i) (row' j) = fmul (row i) (row j)

theorem SameProducts.refl (row : Fin 3 → Word) : SameProducts row row := fun _ _ => rfl

/-- A row scaled by `s` and by its negative. -/
theorem sameProducts_of_neg (s x y z : Word) :
    SameProducts ![fmul x s, fmul y s, fmul z s] ![fmul x (f32Neg s), fmul y (f32Neg s), fmul z (f32Neg s)] := by
  have hflip : ∀ i, Flipped (![fmul x s, fmul y s, fmul z s] i)
      (![fmul x (f32Neg s), fmul y (f32Neg s), fmul z (f32Neg s)] i) :=
    Fin.forall_fin_succ.mpr ⟨fmul_flipped x s, Fin.forall_fin_two.mpr ⟨fmul_flipped y s, fmul_flipped z s⟩⟩
  exact fun i j => fmul_of_flipped (hflip i) (hflip j)

/-- The covariance takes products within rows alone. -/
theorem gram_congr {m m' : Mat3} (h0 : SameProducts ![m.a0, m.a1, m.a2] ![m'.a0, m'.a1, m'.a2])
    (h1 : SameProducts ![m.a3, m.a4, m.a5] ![m'.a3, m'.a4, m'.a5])
    (h2 : SameProducts ![m.a6, m.a7, m.a8] ![m'.a6, m'.a7, m'.a8]) : gram m' = gram m := by
  have hdot : ∀ i j, fadd (fadd (fmul (![m'.a0, m'.a1, m'.a2] i) (![m'.a0, m'.a1, m'.a2] j))
        (fmul (![m'.a3, m'.a4, m'.a5] i) (![m'.a3, m'.a4, m'.a5] j)))
        (fmul (![m'.a6, m'.a7, m'.a8] i) (![m'.a6, m'.a7, m'.a8] j)) =
      fadd (fadd (fmul (![m.a0, m.a1, m.a2] i) (![m.a0, m.a1, m.a2] j))
        (fmul (![m.a3, m.a4, m.a5] i) (![m.a3, m.a4, m.a5] j)))
        (fmul (![m.a6, m.a7, m.a8] i) (![m.a6, m.a7, m.a8] j)) := fun i j => by rw [h0, h1, h2]
  rw [gram, gram, Sym3.mk.injEq]
  exact ⟨hdot 0 0, hdot 0 1, hdot 0 2, hdot 1 1, hdot 1 2, hdot 2 2⟩

/-- Settles O53: the sign of a scale cancels in every product, so the covariance is the same. -/
theorem negativeScaleGivesSameTexel : Obligations.NegativeScaleGivesSameTexel := by
  intro cfg k r
  have hx : sigma { r with sx := f32Neg r.sx } = sigma r :=
    gram_congr (sameProducts_of_neg _ _ _ _) (.refl _) (.refl _)
  have hy : sigma { r with sy := f32Neg r.sy } = sigma r :=
    gram_congr (.refl _) (sameProducts_of_neg _ _ _ _) (.refl _)
  have hz : sigma { r with sz := f32Neg r.sz } = sigma r :=
    gram_congr (.refl _) (.refl _) (sameProducts_of_neg _ _ _ _)
  refine ⟨?_, ?_, ?_⟩
  · show texelWords cfg k { r with sx := f32Neg r.sx } = _
    rw [texelWords, texelWords, hx]
  · show texelWords cfg k { r with sy := f32Neg r.sy } = _
    rw [texelWords, texelWords, hy]
  · show texelWords cfg k { r with sz := f32Neg r.sz } = _
    rw [texelWords, texelWords, hz]

/-! ## A zero quaternion -/

/-- The norm is zero, and zero over zero is a NaN. -/
theorem normalise_zero {r : SplatRecord} (hx : r.qx = 0 ∨ r.qx = 0x80000000)
    (hy : r.qy = 0 ∨ r.qy = 0x80000000) (hz : r.qz = 0 ∨ r.qz = 0x80000000)
    (hw : r.qw = 0 ∨ r.qw = 0x80000000) :
    normalise r = { x := f32NaN, y := f32NaN, z := f32NaN, w := f32NaN } := by
  have hsquare : ∀ q : Word, q = 0 ∨ q = 0x80000000 → fmul q q = 0 := by
    rintro _ (rfl | rfl) <;> decide
  have hquotient : ∀ q : Word, q = 0 ∨ q = 0x80000000 → fdiv q (fsqrt 0) = f32NaN := fun q hq => by
    rw [show fsqrt 0 = 0 by decide]
    exact fdiv_zero_by_zero hq (.inl rfl)
  have hnorm : quatNorm2 r = 0 := by
    rw [quatNorm2, hsquare _ hx, hsquare _ hy, hsquare _ hz, hsquare _ hw]
    decide
  rw [normalise, hnorm]
  simp only [hquotient _ hx, hquotient _ hy, hquotient _ hz, hquotient _ hw]

/-- Every entry is then a NaN. -/
theorem covarianceEntries_zero {r : SplatRecord} (hx : r.qx = 0 ∨ r.qx = 0x80000000)
    (hy : r.qy = 0 ∨ r.qy = 0x80000000) (hz : r.qz = 0 ∨ r.qz = 0x80000000)
    (hw : r.qw = 0 ∨ r.qw = 0x80000000) : covarianceEntries r = List.replicate 6 f32NaN := by
  have hnan := f32Unpack_of_nan f32IsNaN_f32NaN
  have hrotation : rotation { x := f32NaN, y := f32NaN, z := f32NaN, w := f32NaN } =
      { a0 := f32NaN, a1 := f32NaN, a2 := f32NaN, a3 := f32NaN, a4 := f32NaN, a5 := f32NaN, a6 := f32NaN,
        a7 := f32NaN, a8 := f32NaN } := by decide
  rw [covarianceEntries, sigma, normalise_zero hx hy hz hw, hrotation]
  simp only [scaleRows, fmul_nan (.inl hnan)]
  decide

/-- The half of a NaN entry is an infinity pattern, its sign the free value's (R105, R135). -/
theorem entryHalf_nan (cfg : Config) (k : Nat) :
    entryHalf cfg k f32NaN = if nanSignBit cfg.nanSign k = 1 then 0xFC00 else 0x7C00 := by
  have hhalf : ∀ b : Bool, floatToHalf cfg (BitVec.ofBool b ++ (0x7FC00000 : BitVec 31) : BitVec (1 + 31)) =
      if b then 0xFC00 else 0x7C00 := fun b => by
    have hexp : ∀ b : Bool, 142 ≤ f32Exp (BitVec.ofBool b ++ (0x7FC00000 : BitVec 31) : BitVec (1 + 31)) := by
      decide
    rw [floatToHalf, halfMagnitude_saturated cfg (hexp b)]
    cases b <;> decide
  have hbit : ∀ s : BitVec 1, floatToHalf cfg (s ++ (0x7FC00000 : BitVec 31) : BitVec (1 + 31)) =
      if s = 1 then 0xFC00 else 0x7C00 := fun s => by
    rcases BitVec.eq_zero_or_eq_one s with rfl | rfl
    · exact hhalf false
    · exact hhalf true
  rw [entryHalf, f32Bits, if_pos f32IsNaN_f32NaN]
  exact hbit _

/-- Settles O51. -/
theorem zeroQuaternionTexel : Obligations.ZeroQuaternionTexel := by
  intro cfg k r hx hy hz hw
  refine ⟨fun j => entryHalf cfg (k + j) f32NaN, fun hmode j _ => (entryHalf_nan cfg _).trans ?_,
    fun hmode j _ => (entryHalf_nan cfg _).trans ?_, fun hmode j _ => (entryHalf_nan cfg _).trans ?_, ?_⟩
  · rw [hmode, nanSignBit, if_neg (by decide)]
  · rw [hmode, nanSignBit, if_pos rfl]
  · rw [hmode, nanSignBit]
  · rw [texelWords_eq_halves]
    simp only [texelHalf, covarianceEntries_zero hx hy hz hw]
    rfl

/-! ## The worked examples -/

theorem fsqrt_one : fsqrt 0x3F800000 = 0x3F800000 := by
  have hunpack : f32Unpack 0x3F800000 = .fin false (2 ^ 23) (-23) := by decide
  have hroot : isqrt (2 * 2 ^ 23 * 2 ^ 64) = 2 ^ 44 := by
    rw [isqrt_eq_sqrt (by decide), show 2 * 2 ^ 23 * 2 ^ 64 = (2 ^ 44) ^ 2 by decide, Nat.sqrt_eq']
  have hsticky : stickySqrt (2 * 2 ^ 23 * 2 ^ 64) = 2 * 2 ^ 44 := by
    rw [stickySqrt, hroot, if_pos (by decide), Nat.add_zero]
  rw [fsqrt, hunpack]
  simp only
  rw [if_neg (by decide), if_neg (by decide), f32SqrtFin, if_neg (by decide), hsticky]
  decide

/-- The quaternion of both examples is normalised, and its rotation is the identity. -/
theorem rotation_identity {r : SplatRecord} (hx : r.qx = 0) (hy : r.qy = 0) (hz : r.qz = 0)
    (hw : r.qw = 0x3F800000) : rotation (normalise r) =
      { a0 := 0x3F800000, a1 := 0, a2 := 0, a3 := 0, a4 := 0x3F800000, a5 := 0, a6 := 0, a7 := 0,
        a8 := 0x3F800000 } := by
  have hnorm : quatNorm2 r = 0x3F800000 := by
    rw [quatNorm2, hx, hy, hz, hw]
    decide
  have hquat : normalise r = { x := 0, y := 0, z := 0, w := 0x3F800000 } := by
    rw [normalise, hnorm, fsqrt_one, hx, hy, hz, hw]
    decide
  rw [hquat]
  decide

/-- A texel from its covariance entries. -/
theorem texelWords_of_entries {cfg : Config} {k : Nat} {r : SplatRecord} {c : Sym3} (h : gain (sigma r) = c) :
    texelWords cfg k r = [r.px, r.py, r.pz, 0,
      packHalf2x16 cfg (f32Bits cfg.nanSign k c.e0) (f32Bits cfg.nanSign (k + 1) c.e1),
      packHalf2x16 cfg (f32Bits cfg.nanSign (k + 2) c.e2) (f32Bits cfg.nanSign (k + 3) c.e3),
      packHalf2x16 cfg (f32Bits cfg.nanSign (k + 4) c.e4) (f32Bits cfg.nanSign (k + 5) c.e5), r.rgba] := by
  rw [texelWords, h]

/-- Settles O54: the rotation, the entries and then the words, by evaluation. -/
theorem identityRotationTexels : Obligations.IdentityRotationTexels := by
  constructor
  · have hgain : gain (sigma { px := 0, py := 0, pz := 0, sx := 0x3F800000, sy := 0x3F800000, sz := 0x3F800000,
                               qx := 0, qy := 0, qz := 0, qw := 0x3F800000, rgba := 0xFF0000FF }) =
        { e0 := 0x40800000, e1 := 0, e2 := 0, e3 := 0x40800000, e4 := 0, e5 := 0x40800000 } := by
      rw [sigma, rotation_identity rfl rfl rfl rfl]
      decide
    rw [texelWords_of_entries hgain]
    decide
  · have hgain : gain (sigma { px := 0x3F800000, py := 0x40000000, pz := 0x40400000,
                               sx := 0x3F800000, sy := 0x40000000, sz := 0x40400000,
                               qx := 0, qy := 0, qz := 0, qw := 0x3F800000, rgba := 0x11223344 }) =
        { e0 := 0x40800000, e1 := 0, e2 := 0, e3 := 0x41800000, e4 := 0, e5 := 0x42100000 } := by
      rw [sigma, rotation_identity rfl rfl rfl rfl]
      decide
    rw [texelWords_of_entries hgain]
    decide

end Sys2Proof.Machine
end
